-- ==== Sys2Proof/Word.lean ====
section
/-! DEFINITION. Words and bytes of the Mako bytecode machine (spec/00_scope.md R6): the two widths the machine moves,
and the reduction of a mathematical integer to a word. -/

namespace Sys2Proof

/-- A 32-bit word: every cell, stack value, register, opcode and operand (R6). Its signed reading is `BitVec.toInt`. -/
abbrev Word := BitVec 32

/-- A byte moved by a device port (spec/20_memory.md R62). -/
abbrev Byte := BitVec 8

/-- `wrap32(z)` of R6: the one word congruent to `z` modulo 2^32. The sum, difference and product of two `Word`s in
Lean are already `wrap32` of the sum, difference and product of their readings. -/
def wrap32 (z : Int) : Word := BitVec.ofInt 32 z

end Sys2Proof
end

