-- ==== Sys2Proof/Syntax.lean ====
section
/-! DEFINITION. The 27 operations of spec/opcode_table.json, their formats (spec/30_encoding.md R90, R93), and an
instruction as it stands in memory: an operation with its operand word. An operation carries no operand: the machine
reads word 1 only when, and if, the pseudocode reads `M[pc]` (R91; log entry 16). -/

namespace Sys2Proof

/-- One constructor per row of spec/opcode_table.json (R93). -/
inductive Instr where
  | const
  | call
  | jump
  | jumpz
  | jumpif
  | load
  | stor
  | ret
  | drop
  | swap
  | dup
  | ovr
  | str
  | rts
  | add
  | sub
  | mul
  | div
  | mod
  | and
  | or
  | xor
  | not
  | sgt
  | slt
  | sync
  | next
deriving DecidableEq, Repr

/-- The two formats of R90: one word, or an opcode word followed by one operand word. -/
inductive Format where
  | op
  | opi
deriving DecidableEq, Repr

/-- The format of each operation (R91, R93). -/
def Instr.format : Instr → Format
  | .const => .opi
  | .call => .opi
  | .jump => .opi
  | .jumpz => .opi
  | .jumpif => .opi
  | .load => .op
  | .stor => .op
  | .ret => .op
  | .drop => .op
  | .swap => .op
  | .dup => .op
  | .ovr => .op
  | .str => .op
  | .rts => .op
  | .add => .op
  | .sub => .op
  | .mul => .op
  | .div => .op
  | .mod => .op
  | .and => .op
  | .or => .op
  | .xor => .op
  | .not => .op
  | .sgt => .op
  | .slt => .op
  | .sync => .op
  | .next => .opi

/-- Length in words (R91). -/
def Instr.length (i : Instr) : Nat :=
  match i.format with
  | .op => 1
  | .opi => 2

/-- An instruction as it stands in memory or in a listing (R90, R97): the operation, and the operand word `imm` of the
format OPI. -/
structure Coded where
  op : Instr
  imm : Option Word
deriving DecidableEq, Repr

end Sys2Proof
end

