-- ==== Sys2Proof/WellFormed.lean ====
section
/-! DEFINITION. Which instructions-as-written are legal: the operand is present exactly for the format OPI
(spec/30_encoding.md R90, R97). Any word is a legal operand (R92). -/

namespace Sys2Proof

/-- The operand is there exactly when the operation's format has one (R97). -/
def Coded.wellFormed (c : Coded) : Bool :=
  match c.op.format with
  | .op => c.imm.isNone
  | .opi => c.imm.isSome

end Sys2Proof
end

