-- ==== Sys2Proof/Decode.lean ====
section
/-! DEFINITION. Decoding and encoding (spec/30_encoding.md R90 to R96). `decodeWord` is the machine's own decoder of an
opcode word; `decode` reads a whole instruction from a list of words and rejects by name; `encode` writes one. -/

namespace Sys2Proof

/-- `decode(w)` of R96, matching the whole word against the numbers of R93; `none` is ILLEGAL (R95). -/
def decodeWord (w : Word) : Option Instr :=
  match w.toNat with
  | 0 => some .const
  | 1 => some .call
  | 2 => some .jump
  | 3 => some .jumpz
  | 4 => some .jumpif
  | 10 => some .load
  | 11 => some .stor
  | 12 => some .ret
  | 13 => some .drop
  | 14 => some .swap
  | 15 => some .dup
  | 16 => some .ovr
  | 17 => some .str
  | 18 => some .rts
  | 19 => some .add
  | 20 => some .sub
  | 21 => some .mul
  | 22 => some .div
  | 23 => some .mod
  | 24 => some .and
  | 25 => some .or
  | 26 => some .xor
  | 27 => some .not
  | 28 => some .sgt
  | 29 => some .slt
  | 30 => some .sync
  | 31 => some .next
  | _ => none

/-- Why a list of words is no instruction: its first word is none of the 27 numbers (R95), the operand word of the
format OPI is missing (R90), or there is no word at all. -/
inductive DecodeError where
  | illegalOpcode (w : Word)
  | operandMissing (i : Instr)
  | noWord
deriving DecidableEq, Repr

/-- Read one instruction off the front of a list of words and return the words after it (R90, R91). -/
def decode : List Word → Except DecodeError (Coded × List Word)
  | [] => .error .noWord
  | w :: rest =>
    match decodeWord w with
    | none => .error (.illegalOpcode w)
    | some i =>
      match i.format with
      | .op => .ok (⟨i, none⟩, rest)
      | .opi =>
        match rest with
        | [] => .error (.operandMissing i)
        | imm :: rest' => .ok (⟨i, some imm⟩, rest')

/-- The opcode number of each operation (R93). -/
def opcode : Instr → Word
  | .const => 0#32
  | .call => 1#32
  | .jump => 2#32
  | .jumpz => 3#32
  | .jumpif => 4#32
  | .load => 10#32
  | .stor => 11#32
  | .ret => 12#32
  | .drop => 13#32
  | .swap => 14#32
  | .dup => 15#32
  | .ovr => 16#32
  | .str => 17#32
  | .rts => 18#32
  | .add => 19#32
  | .sub => 20#32
  | .mul => 21#32
  | .div => 22#32
  | .mod => 23#32
  | .and => 24#32
  | .or => 25#32
  | .xor => 26#32
  | .not => 27#32
  | .sgt => 28#32
  | .slt => 29#32
  | .sync => 30#32
  | .next => 31#32

/-- The words of an instruction (R90): the opcode number, then the operand word if there is one. -/
def encode (c : Coded) : List Word :=
  opcode c.op :: c.imm.toList

/-- The two words of an instruction given as one number in the numbering of spec/opcode_table.json (bit 0 is the least
significant bit of word 0, word 1 counts on from bit 32), the bits from `nbits` up being 0. The longest instruction has
two words (R91). The numbering is the table's, the machine has no byte order (R62; log entry 21). -/
def tableWords (nbits w : Nat) : List Word :=
  let bits := w % 2 ^ nbits
  [BitVec.ofNat 32 bits, BitVec.ofNat 32 (bits / 2 ^ 32)]

/-- What the decoder reads from an instruction whose table bits are `w`. -/
def decodeTableWord (nbits w : Nat) : Option Instr :=
  match decode (tableWords nbits w) with
  | .ok (c, _) => some c.op
  | .error _ => none

end Sys2Proof
end

