-- ==== Sys2Proof/Config.lean ====
section
/-! DEFINITION. The configuration record of spec/00_scope.md R5, in three parts: the values the spec fixes (constants),
the parameters it leaves to the instance and that are plain data (`Params`, held in the state so that every statement
ranges over them), and the free values (opaque constants, of which nothing can be proved). -/

namespace Sys2Proof

/-! ## Register and port addresses (R5, R22; decision D1) -/

abbrev Config.PC : Int := 0
abbrev Config.DP : Int := 1
abbrev Config.RP : Int := 2
abbrev Config.GP : Int := 3
abbrev Config.GT : Int := 4
abbrev Config.SP : Int := 5
abbrev Config.ST : Int := 6
abbrev Config.SX : Int := 7
abbrev Config.SY : Int := 8
abbrev Config.GS : Int := 9
abbrev Config.CL : Int := 10
abbrev Config.RN : Int := 11
abbrev Config.KY : Int := 12
abbrev Config.CO : Int := 13
abbrev Config.AU : Int := 14
abbrev Config.KB : Int := 15
abbrev Config.XO : Int := 16
abbrev Config.XA : Int := 17
abbrev Config.XS : Int := 18
abbrev Config.RV : Int := 19

/-- The first address that is neither a register nor a port (R5, R68). -/
abbrev Config.reservedHeader : Nat := 20

/-- The largest `MEM_WORDS` an instance may have (R5, D33). -/
abbrev Config.maxMemWords : Nat := 2147483648

/-! ## Fixed values (R5) -/

/-- `HALT_PC`, the program counter that halts (R116; decision D3). -/
abbrev Config.haltPC : Word := 0xFFFFFFFF#32

/-- The word -1: the sentinel of R312 and the canonical true of R182. -/
abbrev Config.minusOne : Word := 0xFFFFFFFF#32

/-- The command codes stored to `XS` (R215; decision D4). -/
abbrev Config.xClose : Word := 0#32
abbrev Config.xOpenRead : Word := 1#32
abbrev Config.xOpenWrite : Word := 2#32

/-- The capability value a load of `XS` returns (R214; decision D5). -/
abbrev Config.xsCaps : Word := 3#32

/-- Screen, grid and tile sizes (R5, R272). -/
abbrev Config.screenW : Nat := 320
abbrev Config.screenH : Nat := 240
abbrev Config.gridCols : Nat := 41
abbrev Config.gridRows : Nat := 31
abbrev Config.tileW : Nat := 8
abbrev Config.tileH : Nat := 8
abbrev Config.tileWords : Nat := 64

/-- The only top byte that lets a tile pixel be drawn (R277). -/
abbrev Config.alphaOpaque : Byte := 0xFF#8

/-- Capacity of the audio buffer in bytes (R32). -/
abbrev Config.audioCap : Nat := 8000

/-- The first handle an open allocates (R34). -/
abbrev Config.firstHandle : Nat := 1

/-- The line feed and the carriage return of the newline normalization (R246). -/
abbrev Config.lineFeed : Byte := 10#8
abbrev Config.carriageReturn : Byte := 13#8

/-- What a cell of main memory that nothing has written reads as. The spec leaves the image to the host (R38, R341).
DESIGN CHOICE (log entry 2, unsafe): 0, as in the images of spec/95_test_vectors.md ("cells not listed are 0"). -/
abbrev Config.unlistedCell : Word := 0#32

/-- `MEM_WORDS` of the reset state. DESIGN CHOICE (log entry 4, unsafe): 128, as in the start state of
spec/95_test_vectors.md. -/
abbrev Config.resetMemWords : Nat := 128

/-! ## Parameters an instance is built with (R5, R37) -/

/-- `ILLEGAL_OPCODE_POLICY` (R95; decision D15). -/
inductive IllegalOpcodePolicy where
  | fault
  | nop
deriving DecidableEq, Repr

/-- `HOST_KEY_WINDOW` (spec/70_reset_and_hazards.md R351; decision D27). -/
inductive HostKeyWindow where
  | anyStepBoundary
  | idleOnly
deriving DecidableEq, Repr

/-- The open parameters of R5 that are plain data. No step changes them (R37). -/
structure Params where
  memWords : Nat
  illegalOpcode : IllegalOpcodePolicy
  keyWindow : HostKeyWindow
deriving DecidableEq, Repr

/-! ## Answers of the host (spec/45_file_port.md R240, spec/70_reset_and_hazards.md R350) -/

/-- Answer to `host.stdin_read()` (R209). A failure carries the word the guest then receives, which the spec leaves
free (D23). -/
inductive StdinAnswer where
  | byte (b : Byte)
  | eof
  | failure (w : Word)
deriving DecidableEq, Repr, Inhabited

/-- Answer to `host.open_read` and `host.open_write` (R240): a stream, named by a number of the host's, or failure. -/
inductive OpenAnswer where
  | opened (stream : Nat)
  | failure
deriving DecidableEq, Repr, Inhabited

/-- Answer to `host.read` (R240). -/
inductive ReadAnswer where
  | byte (b : Byte)
  | eof
  | failure
deriving DecidableEq, Repr, Inhabited

/-- Answer to `host.close` (R240). -/
inductive CloseAnswer where
  | done
  | failure
deriving DecidableEq, Repr, Inhabited

/-! ## Free values: opaque, so that a claim holds whatever they are -/

/-- `ModNeg` (R175; decision D14): MOD with a negative divisor, as a function of (b, a). Log entry 6. -/
opaque Config.modNeg : Word → Word → Word

/-- The n-th word of the random source (R206; decision D28). Log entry 8. -/
opaque Config.randomWord : Nat → Word

/-- The n-th answer of standard input (R209). Log entry 8. -/
opaque Config.stdinAnswer : Nat → StdinAnswer

/-- The n-th answer to an open of the given path (R242, R244). Log entry 8. -/
opaque Config.openAnswer : List Word → Nat → OpenAnswer

/-- The n-th answer to a read of the given stream (R246). Log entry 8. -/
opaque Config.readAnswer : Nat → Nat → ReadAnswer

/-- The n-th answer to a close of the given stream (R245). Log entry 8. -/
opaque Config.closeAnswer : Nat → Nat → CloseAnswer

/-- Pixel `P[i]` before the first frame has drawn it (R38; decision D26). Log entry 7. -/
opaque Config.pixelAtReset : Nat → Word

/-- Byte `abuf[i]` before a sample has been stored there (R38; decision D26). Log entry 7. -/
opaque Config.audioAtReset : Nat → Byte

end Sys2Proof
end

