-- ==== Sys2Proof/Machine/Table.lean ====
section
/-! DEFINITION. Finite maps keyed by natural numbers, as lists sorted strictly by key: the form in which main memory
(spec/10_state.md R21) and the two stream tables (R34) are held, so that equal maps are equal data. -/

namespace Sys2Proof.Machine

/-- A finite map, in canonical form when its keys strictly rise (`tableWf`). -/
abbrev Table (α : Type) := List (Nat × α)

/-- The keys strictly rise. -/
abbrev tableWf {α : Type} (t : Table α) : Prop := t.Pairwise (fun x y => x.1 < y.1)

/-- The value at a key, if there is one. -/
def tableFind {α : Type} : Table α → Nat → Option α
  | [], _ => none
  | (k, v) :: t, a => if a = k then some v else tableFind t a

/-- Set the value at a key, keeping the order. -/
def tableInsert {α : Type} : Table α → Nat → α → Table α
  | [], a, v => [(a, v)]
  | (k, w) :: t, a, v =>
    if a < k then (a, v) :: (k, w) :: t
    else if a = k then (a, v) :: t
    else (k, w) :: tableInsert t a v

/-- Remove a key. -/
def tableErase {α : Type} (t : Table α) (a : Nat) : Table α :=
  t.filter (fun c => c.1 != a)

/-- The values of a list laid out at the keys from `a` up, those equal to `blank` left out. -/
def tableOfList {α : Type} [DecidableEq α] (blank : α) : Nat → List α → Table α
  | _, [] => []
  | a, v :: vs => if v = blank then tableOfList blank (a + 1) vs else (a, v) :: tableOfList blank (a + 1) vs

end Sys2Proof.Machine
end

