-- ==== Sys2Proof/Machine/State.lean ====
section
/-! DEFINITION. The whole state of the machine (spec/10_state.md R20), plain data, and its value after construction
(R38). What belongs to the host and to the free values is kept apart in `Env`. -/

namespace Sys2Proof.Machine

/-- The three model faults of spec/60_exceptions.md R311, each terminal, each recording its info. All are safe: the
model stops where the hardware may go on (decisions D11, D13, D15). -/
inductive Fault where
  /-- Raised by every raw access whose address is below 0 or at or above `MEM_WORDS`, and by the path reader at a
  negative start (R66, R243). Safe: the source calls the case undefined. -/
  | outOfRange (a : Int)
  /-- Raised by DIV and MOD when the divisor is 0; records the dividend (R174, R175). Safe: no value can be justified
  (D13). -/
  | divideByZero (b : Word)
  /-- Raised by `tick` on a word that is no opcode, when the policy is `fault`, and on a SYNC word; records the word and
  the address it was fetched from (R95, R113). Safe. -/
  | illegalOpcode (w p : Word)
deriving DecidableEq, Repr

/-- Moves the model does not have, each refused by name. -/
inductive Refusal where
  /-- Raised by an arm of `exec` whose instruction has no meaning yet (none is left). Safe. -/
  | notModelled (mnemonic : String)
  /-- Raised by `step` in phase HALTED: nobody steps (R36, R116; D32). Safe: the machine has no further step. -/
  | halted
  /-- Raised by SYNC executed outside an invocation, in a phase where the sequencer has no step (R36, R115). Safe:
  `step` never asks for it. -/
  | noInvocation
  /-- Raised by `step` when the host's next move is a key mutation outside the window of R351 (a launch the spec gives
  no meaning, 93_implementation_defined.md S17). Safe. -/
  | keyMoveOutsideWindow
deriving DecidableEq, Repr

/-- The phase of the frame sequencer (R36). -/
inductive Phase where
  /-- Between two invocations: the host owns the instance. -/
  | idle
  /-- Inside an invocation, executing the frame-level stream. -/
  | run
  /-- Inside the frame protocol with a non-zero raster vector: the next SYNC draws scanline `y`. -/
  | scan (y : Fin 240)
  /-- The halt condition was met: terminal. -/
  | halted
  /-- A fault was raised: terminal. -/
  | fault (f : Fault)
deriving DecidableEq, Repr

/-- Main memory (R21): the cells that do not hold `Config.unlistedCell`, sorted by address. A cell is one word, the
smallest addressable unit (R62; log entry 1). -/
abbrev Memory := Table Word

/-- The canonical form of main memory: addresses strictly rising, and no listed cell that an unlisted one reads as. -/
abbrev Memory.wf (m : Memory) : Prop :=
  tableWf m ∧ ∀ c ∈ m, c.2 ≠ Config.unlistedCell

/-- An entry of the read table `rd` (R34): the host's stream and the byte pushed back by the newline normalization. -/
structure ReadStream where
  stream : Nat
  pushback : Option Byte
deriving DecidableEq, Repr

/-- The transactions the core hands to the host (spec/70_reset_and_hazards.md R350), as they are recorded in
`Env.sent`. -/
inductive HostCall where
  | random
  | stdinRead
  | stdoutWrite (b : Byte)
  | audioWrite (bytes : List Byte)
  | openRead (path : List Word)
  | openWrite (path : List Word)
  | read (stream : Nat)
  | write (stream : Nat) (b : Byte)
  | close (stream : Nat)
deriving DecidableEq, Repr

/-- What the host does at a step boundary (R351): set the key bitmask, enqueue a press code, or let the machine go on
(which in phase IDLE is the call of the frame-level entry point, R117). -/
inductive HostMove where
  | setKeys (w : Word)
  | press (code : Word)
  | goOn
deriving DecidableEq, Repr

/-- The answers of one kind the host will give: those in `known` first, then the values of an opaque constant of
Config at `drawn`, `drawn + 1`, … (log entry 8). -/
structure Tape (α : Type) where
  known : List α
  drawn : Nat
deriving DecidableEq, Repr

/-- THE MODEL'S OWN DATA, no state of the spec: the host's answers and moves to come, and the record of what the host
was handed (log entries 8, 10, 15 and 27). -/
structure Env where
  /-- Answers of the random source (R35, R206). -/
  randoms : Tape Word
  /-- Answers of standard input (R209). -/
  stdin : Tape StdinAnswer
  /-- Answers to opens (R242, R244). -/
  opens : Tape OpenAnswer
  /-- Answers to reads of file streams (R246). -/
  reads : Tape ReadAnswer
  /-- Answers to closes (R245). -/
  closes : Tape CloseAnswer
  /-- The host's moves at the coming step boundaries; once used up, the host only lets the machine go on. -/
  moves : List HostMove
  /-- The transactions handed to the host so far, oldest first. -/
  sent : List HostCall
  /-- How many invocations have returned to the host so far, each with one frame (R117); what the host may read of the
  pixel buffer depends on it (R280; log entry 27). -/
  frames : Nat
deriving DecidableEq, Repr

/-- The state of R20. The twenty registers and port cells are cells 0 to 19 of `mem` (R22). -/
structure State where
  /-- The open parameters the instance was built with (spec/00_scope.md R5). -/
  params : Params
  /-- Main memory `M`, registers included (R21, R22). -/
  mem : Memory
  /-- The pixel buffer `P`: row `y`, column `x` is `P[x + 320 * y]` (R31). -/
  pixels : Vector (Vector Word 320) 240
  /-- The audio buffer (R32). -/
  abuf : Vector Byte 8000
  /-- The audio write cursor, 0 to 8000 (R32). -/
  acur : Nat
  /-- The bitmask of held keys (R33). -/
  keys : Word
  /-- The queue of press codes, oldest first (R33). -/
  keyq : List Word
  /-- The read streams by handle (R34). -/
  rd : Table ReadStream
  /-- The write streams by handle (R34). -/
  wr : Table Nat
  /-- The handle counter (R34, R248). -/
  nexth : Nat
  /-- Who moves next, and where the frame sequencer stands (R36). -/
  phase : Phase
  /-- The model's own data about the host. -/
  env : Env
deriving DecidableEq, Repr

/-- No answer is fixed and none has been drawn. -/
def Tape.fresh {α : Type} : Tape α := { known := [], drawn := 0 }

/-- The host before the first invocation. -/
def Env.fresh : Env :=
  { randoms := Tape.fresh, stdin := Tape.fresh, opens := Tape.fresh, reads := Tape.fresh, closes := Tape.fresh,
    moves := [], sent := [], frames := 0 }

/-- A machine before its first invocation, with the given main memory: every other piece of state as R38 gives it. `P`
and `abuf` hold free values (log entry 7). -/
def State.fresh (params : Params) (mem : Memory) : State where
  params := params
  mem := mem
  pixels := Vector.ofFn fun y => Vector.ofFn fun x => Config.pixelAtReset (x.val + 320 * y.val)
  abuf := Vector.ofFn fun i => Config.audioAtReset i.val
  acur := 0
  keys := 0#32
  keyq := []
  rd := []
  wr := []
  nexth := Config.firstHandle
  phase := .idle
  env := Env.fresh

/-- Construction (R341, the first transaction of R350): the host passes `M` with its image, any list of words. The core
checks nothing: the list is `M`, `MEM_WORDS` is its length, and its first twenty words are the registers. The two
policies are parameters of the instance (R5). -/
def State.construct (policy : IllegalOpcodePolicy) (window : HostKeyWindow) (image : List Word) : State :=
  State.fresh { memWords := image.length, illegalOpcode := policy, keyWindow := window }
    (tableOfList Config.unlistedCell 0 image)

/-- The machine right after construction (R38, R340) with ONE image, the host's choice in the spec and here the model's:
the start state of spec/95_test_vectors.md, 128 cells with `PC` = 20, `DP` = 100, `RP` = 110 and 0 in every other cell
(DESIGN CHOICE, log entries 2, 3 and 4). It is `State.construct` of that image (`reset_eq_construct` in Laws/Memory.lean),
its memory written out. -/
def State.reset : State :=
  State.fresh { memWords := Config.resetMemWords, illegalOpcode := .fault, keyWindow := .anyStepBoundary }
    [(0, 20#32), (1, 100#32), (2, 110#32)]

end Sys2Proof.Machine
end

