-- ==== Sys2Proof/Machine/Ops.lean ====
section
/-! DEFINITION. The shared operations over memory, registers and stacks (spec/00_scope.md R7, R8; spec/20_memory.md R61,
R66), raising a fault (spec/60_exceptions.md R311), the one control transfer the hardware makes by itself, the entry into
the per-scanline routine (R317), and the return from it (R318). -/

namespace Sys2Proof.Machine

/-- A block of the spec's pseudocode: statements in order over the state, ending in a value or in a fault. Both ends
carry the state they leave, so the effects of the statements before a fault are kept (R316). -/
abbrev Op (α : Type) := EStateM Fault State α

/-- `raise Fault.<Kind>(info)` (R7, R311): the phase becomes FAULT(kind, info) and no later statement runs. -/
def raise {α : Type} (f : Fault) : Op α := fun s => .error f { s with phase := .fault f }

/-- A whole pseudocode block as an outcome of a step (R9). -/
def run (op : Op Unit) (s : State) : Host.Outcome State Fault Refusal :=
  match op s with
  | .ok _ t => .next t
  | .error f _ => .fault f

/-- Run a block and, unless it faults, go on with its value and the state it leaves. -/
def andThen {α : Type} (op : Op α) (k : α → State → Host.Outcome State Fault Refusal) (s : State) :
    Host.Outcome State Fault Refusal :=
  match op s with
  | .ok a t => k a t
  | .error f _ => .fault f

/-- The state a block leaves, whether it ends in a value or in a fault. -/
def stateLeft {α : Type} (op : Op α) (s : State) : State :=
  match op s with
  | .ok _ t => t
  | .error _ t => t

/-! ## Main memory -/

/-- The word at an address of the memory map. -/
def Memory.read (m : Memory) (a : Nat) : Word := (tableFind m a).getD Config.unlistedCell

/-- Write a word, keeping the canonical form. -/
def Memory.write (m : Memory) (a : Nat) (v : Word) : Memory :=
  if v = Config.unlistedCell then tableErase m a else tableInsert m a v

/-- The range check of R66: `0 <= a < MEM_WORDS`. -/
abbrev State.inMemory (s : State) (a : Int) : Prop := 0 ≤ a ∧ a < (s.params.memWords : Int)

/-- The content of cell `a`, for an address in range. -/
def State.cell (s : State) (a : Int) : Word := s.mem.read a.toNat

/-- The state with `v` in cell `a`, for an address in range. -/
def State.setCell (s : State) (a : Int) (v : Word) : State := { s with mem := s.mem.write a.toNat v }

/-- `MemRead(addr, 1)`, the raw read (R7, R66). -/
def memRead (a : Int) : Op Word := fun s =>
  if s.inMemory a then .ok (s.cell a) s else raise (.outOfRange a) s

/-- `MemWrite(addr, 1, v)`, the raw write (R7, R66). -/
def memWrite (a : Int) (v : Word) : Op Unit := fun s =>
  if s.inMemory a then .ok () (s.setCell a v) else raise (.outOfRange a) s

/-- `x[i]` and `x[i] <- v`: a register is the cell at its address (R7, spec/10_state.md R22). -/
def reg (i : Int) : Op Word := memRead i
def setReg (i : Int) (v : Word) : Op Unit := memWrite i v

/-- `MEM_WORDS` (R5). -/
def memWords : Op Nat := fun s => .ok s.params.memWords s

/-- Set the phase of the frame sequencer (R36). -/
def setPhase (p : Phase) : Op Unit := fun s => .ok () { s with phase := p }

/-- The invocation returns to the host (spec/46_raster_generator.md R265), which has one more frame to read (R280). -/
def returnToHost : Op Unit := fun s =>
  .ok () { s with phase := .idle, env := { s.env with frames := s.env.frames + 1 } }

/-! ## The stacks (R8): the pointer holds one past top, and is updated before the data cell is accessed -/

/-- Push through the pointer register `ptr`. -/
def pushAt (ptr : Int) (v : Word) : Op Unit := do
  let t ← reg ptr
  setReg ptr (t + 1#32)
  memWrite t.toInt v

/-- Pop through the pointer register `ptr`. -/
def popAt (ptr : Int) : Op Word := do
  let p ← reg ptr
  let t := p - 1#32
  setReg ptr t
  memRead t.toInt

def push (v : Word) : Op Unit := pushAt Config.DP v
def pop : Op Word := popAt Config.DP
def rpush (v : Word) : Op Unit := pushAt Config.RP v
def rpop : Op Word := popAt Config.RP

/-! ## The raster-vector entry and the return -/

/-- `EnterRoutine(v)` (spec/46_raster_generator.md R263, R317): the program counter is pushed on the return stack,
control goes to the raster vector, the next SYNC draws scanline 0. Nothing else is saved or changed. -/
def enterRoutine (v : Word) : Op Unit := do
  let p ← reg Config.PC
  rpush p
  setReg Config.PC v
  setPhase (.scan 0)

/-- The return from a subroutine or from the per-scanline routine (R155, R318): the return stack gives the program
counter, nothing else is restored. -/
def returnToCaller : Op Unit := do
  let t ← rpop
  setReg Config.PC t

end Sys2Proof.Machine
end

