-- ==== Sys2Proof/Machine/Operands.lean ====
section
/-! DEFINITION. Operand forms: the inline operand (spec/30_encoding.md R90 to R92), the operands on the stacks
(spec/43_arithmetic_logic.md R170), and the byte fields a port moves (spec/20_memory.md R62). While an instruction
executes, `x[PC]` is the address of the word after the opcode (spec/40_engine_run_loop.md R112). -/

namespace Sys2Proof.Machine

/-- The inline operand `M[pc]` of a control transfer (R92). -/
def operand : Op Word := do
  let p ← reg Config.PC
  memRead p.toInt

/-- The address after the operand, `wrap32(pc + 1)`, the operand being stepped over unread (R91). -/
def afterOperand : Op Word := do
  let p ← reg Config.PC
  pure (p + 1#32)

/-- Where a conditional transfer goes (R91, R150): to its operand when it is taken, else past the operand. -/
def branchTarget (taken : Bool) : Op Word := if taken then operand else afterOperand

/-- The inline operand of CONST: the program counter is moved past it before it is read (R131). -/
def constOperand : Op Word := do
  let p ← reg Config.PC
  setReg Config.PC (p + 1#32)
  memRead p.toInt

/-- A binary instruction (R170): `a` is popped before `b`, the result is `f b a`. -/
def binary (f : Word → Word → Word) : Op Unit := do
  let a ← pop
  let b ← pop
  push (f b a)

/-- The low byte `v[7:0]` of a stored word (R62). -/
def lowByte (v : Word) : Byte := v.setWidth 8

/-- The top byte `v[31:24]` of a word (R6). -/
def topByte (v : Word) : Byte := (v >>> 24).setWidth 8

/-- A byte as a word, zero-extended (R62). -/
def byteWord (b : Byte) : Word := b.setWidth 32

end Sys2Proof.Machine
end

