-- ==== Sys2Proof/Machine/Flags.lean ====
section
/-! DEFINITION. The machine has no flags and no condition codes (spec/10_state.md R30): a comparison pushes a truth
word, a conditional jump tests a popped word. What takes the place of flag computations: the truth words, the two
conditions, and the results of the arithmetic and logic instructions (spec/43_arithmetic_logic.md). -/

namespace Sys2Proof.Machine

/-- All-ones for true, zero for false (R182). -/
def truth (c : Bool) : Word := if c then Config.minusOne else 0#32

/-- `b > a` as signed integers (R180). -/
def signedGreater (b a : Word) : Word := truth (decide (b.toInt > a.toInt))

/-- `b < a` as signed integers (R181). -/
def signedLess (b a : Word) : Word := truth (decide (b.toInt < a.toInt))

/-- The condition of JUMPZ: only the word 0 counts as zero (R153). -/
def isZero (c : Word) : Bool := c == 0#32

/-- The condition under which NEXT ends its loop (R156). -/
def isNegative (n : Word) : Bool := decide (n.toInt < 0)

/-- The quotient rounded toward zero, reduced to a word, for a non-zero divisor (R174). -/
def quotient (b a : Word) : Word := wrap32 (b.toInt.tdiv a.toInt)

/-- The modulo for a non-zero divisor (R175): floored for a positive divisor, the open function `ModNeg` for a negative
one (log entry 6). -/
def modulo (b a : Word) : Word :=
  if a.toInt > 0 then wrap32 (b.toInt - a.toInt * b.toInt.fdiv a.toInt) else Config.modNeg b a

end Sys2Proof.Machine
end

