-- ==== Sys2Proof/Machine/Arith.lean ====
section
/-! DEFINITION. Arithmetic, logic and comparison (spec/43_arithmetic_logic.md R170 to R182). -/

namespace Sys2Proof.Machine

/-- ADD (R171). -/
def opAdd : Op Unit := binary fun b a => b + a
def execAdd (s : State) : Host.Outcome State Fault Refusal := run opAdd s

/-- SUB (R172): the top is subtracted from the second. -/
def opSub : Op Unit := binary fun b a => b - a
def execSub (s : State) : Host.Outcome State Fault Refusal := run opSub s

/-- MUL (R173): the low 32 bits of the product. -/
def opMul : Op Unit := binary fun b a => b * a
def execMul (s : State) : Host.Outcome State Fault Refusal := run opMul s

/-- What DIV and MOD share (R174, R175): both pops, then the divisor test, then the push. -/
def dividing (f : Word → Word → Word) : Op Unit := do
  let a ← pop
  let b ← pop
  if a = 0#32 then raise (.divideByZero b) else push (f b a)

/-- DIV (R174). -/
def opDiv : Op Unit := dividing quotient
def execDiv (s : State) : Host.Outcome State Fault Refusal := run opDiv s

/-- MOD (R175). -/
def opMod : Op Unit := dividing modulo
def execMod (s : State) : Host.Outcome State Fault Refusal := run opMod s

/-- AND (R176). -/
def opAnd : Op Unit := binary fun b a => b &&& a
def execAnd (s : State) : Host.Outcome State Fault Refusal := run opAnd s

/-- OR (R177). -/
def opOr : Op Unit := binary fun b a => b ||| a
def execOr (s : State) : Host.Outcome State Fault Refusal := run opOr s

/-- XOR (R178). -/
def opXor : Op Unit := binary fun b a => b ^^^ a
def execXor (s : State) : Host.Outcome State Fault Refusal := run opXor s

/-- NOT (R179): `wrap32(-a - 1)`. -/
def opNot : Op Unit := do
  let a ← pop
  push (-a - 1#32)
def execNot (s : State) : Host.Outcome State Fault Refusal := run opNot s

/-- SGT (R180). -/
def opSgt : Op Unit := binary signedGreater
def execSgt (s : State) : Host.Outcome State Fault Refusal := run opSgt s

/-- SLT (R181). -/
def opSlt : Op Unit := binary signedLess
def execSlt (s : State) : Host.Outcome State Fault Refusal := run opSlt s

end Sys2Proof.Machine
end

