-- ==== Sys2Proof/Machine/Control.lean ====
section
/-! DEFINITION. The control transfers (spec/42_control_transfer.md R150 to R156): each writes the program counter once,
with a target or with the address after the operand. -/

namespace Sys2Proof.Machine

/-- CALL (R151): the return address is pushed, then the operand is read. -/
def opCall : Op Unit := do
  let ret ← afterOperand
  rpush ret
  let t ← operand
  setReg Config.PC t
def execCall (s : State) : Host.Outcome State Fault Refusal := run opCall s

/-- JUMP (R152). -/
def opJump : Op Unit := do
  let t ← operand
  setReg Config.PC t
def execJump (s : State) : Host.Outcome State Fault Refusal := run opJump s

/-- JUMPZ (R153): the condition is popped whether or not the jump is taken. -/
def opJumpz : Op Unit := do
  let c ← pop
  let t ← branchTarget (isZero c)
  setReg Config.PC t
def execJumpz (s : State) : Host.Outcome State Fault Refusal := run opJumpz s

/-- JUMPIF (R154): every non-zero word is true. -/
def opJumpif : Op Unit := do
  let c ← pop
  let t ← branchTarget (!isZero c)
  setReg Config.PC t
def execJumpif (s : State) : Host.Outcome State Fault Refusal := run opJumpif s

/-- RETURN (R155). -/
def opReturn : Op Unit := returnToCaller
def execReturn (s : State) : Host.Outcome State Fault Refusal := run opReturn s

/-- Decrement a cell in place and give its new value (R156). -/
def decrementCell (a : Int) : Op Word := do
  let m ← memRead a
  memWrite a (m - 1#32)
  pure (m - 1#32)

/-- NEXT (R156): the counter on top of the return stack is decremented in place. -/
def opNext : Op Unit := do
  let r ← reg Config.RP
  let n ← decrementCell (r - 1#32).toInt
  let t ← branchTarget (!isNegative n)
  setReg Config.PC t
def execNext (s : State) : Host.Outcome State Fault Refusal := run opNext s

end Sys2Proof.Machine
end

