-- ==== Sys2Proof/Machine/HostCalls.lean ====
section
/-! DEFINITION. The transactions with the host (spec/70_reset_and_hazards.md R350): each is recorded in order, and where
the host answers, the answer is drawn from its tape (log entries 8 and 15). A failure of the console or the audio device
has no effect on the core (spec/60_exceptions.md R313), so the calls that only hand bytes over have no answer. -/

namespace Sys2Proof.Machine

/-- The next answer of a tape: the first known one, else the next value of the free function. -/
def tapeNext {α : Type} (free : Nat → α) (t : Tape α) : α × Tape α :=
  match t.known with
  | a :: as => (a, { t with known := as })
  | [] => (free t.drawn, { t with drawn := t.drawn + 1 })

/-- Record a transaction handed to the host. -/
def tell (c : HostCall) : Op Unit := fun s =>
  .ok () { s with env := { s.env with sent := s.env.sent ++ [c] } }

/-- Draw the answer to a random-source request. -/
def drawRandom : Op Word := fun s =>
  let r := tapeNext Config.randomWord s.env.randoms
  .ok r.1 { s with env := { s.env with randoms := r.2 } }

/-- Draw the answer to a read of standard input. -/
def drawStdin : Op StdinAnswer := fun s =>
  let r := tapeNext Config.stdinAnswer s.env.stdin
  .ok r.1 { s with env := { s.env with stdin := r.2 } }

/-- Draw the answer to an open of a path. -/
def drawOpen (path : List Word) : Op OpenAnswer := fun s =>
  let r := tapeNext (Config.openAnswer path) s.env.opens
  .ok r.1 { s with env := { s.env with opens := r.2 } }

/-- Draw the answer to a read of a stream. -/
def drawRead (stream : Nat) : Op ReadAnswer := fun s =>
  let r := tapeNext (Config.readAnswer stream) s.env.reads
  .ok r.1 { s with env := { s.env with reads := r.2 } }

/-- Draw the answer to a close of a stream. -/
def drawClose (stream : Nat) : Op CloseAnswer := fun s =>
  let r := tapeNext (Config.closeAnswer stream) s.env.closes
  .ok r.1 { s with env := { s.env with closes := r.2 } }

/-- `host.random()` (R206). -/
def hostRandom : Op Word := do
  tell .random
  drawRandom

/-- `host.stdin_read()` (R209). -/
def hostStdinRead : Op StdinAnswer := do
  tell .stdinRead
  drawStdin

/-- `host.stdout_write(b)` (R210). -/
def hostStdoutWrite (b : Byte) : Op Unit := tell (.stdoutWrite b)

/-- `host.audio_write(bytes)` (spec/47_audio_sink.md R302). -/
def hostAudioWrite (bytes : List Byte) : Op Unit := tell (.audioWrite bytes)

/-- `host.open_read(path)` (spec/45_file_port.md R240). -/
def hostOpenRead (path : List Word) : Op OpenAnswer := do
  tell (.openRead path)
  drawOpen path

/-- `host.open_write(path)` (R240). -/
def hostOpenWrite (path : List Word) : Op OpenAnswer := do
  tell (.openWrite path)
  drawOpen path

/-- `host.read(s)` (R240). -/
def hostRead (stream : Nat) : Op ReadAnswer := do
  tell (.read stream)
  drawRead stream

/-- `host.write(s, b)` (R240): done or failed, the core does the same (R247). -/
def hostWrite (stream : Nat) (b : Byte) : Op Unit := tell (.write stream b)

/-- `host.close(s)` (R240). -/
def hostClose (stream : Nat) : Op CloseAnswer := do
  tell (.close stream)
  drawClose stream

/-- What the host may read of the pixel buffer (R280): all of it, while the phase is IDLE and an invocation has returned.
Before the first return there is no frame to present (spec/10_state.md R38). -/
def State.presented (s : State) : Option (Vector (Vector Word 320) 240) :=
  if s.phase = .idle ∧ 0 < s.env.frames then some s.pixels else none

/-- The `halted` output and its completion status: 0 from the step that halts, for ever (R116, R350). -/
def State.completionStatus (s : State) : Option Nat :=
  if s.phase = .halted then some 0 else none

end Sys2Proof.Machine
end

