-- ==== Sys2Proof/Machine/Audio.lean ====
section
/-! DEFINITION. The Audio Sink (spec/47_audio_sink.md). -/

namespace Sys2Proof.Machine

/-- `AudioAppend(b)` (R301): a byte stored past the capacity is dropped without a trace. -/
def audioAppend (b : Byte) : Op Unit := modify fun s =>
  if s.acur < Config.audioCap then { s with abuf := s.abuf.setIfInBounds s.acur b, acur := s.acur + 1 } else s

/-- The bytes accumulated since the last flush, in the order they were stored (R32). -/
def State.audioBytes (s : State) : List Byte := s.abuf.toList.take s.acur

/-- `AudioFlush()` (R302): one transaction if there is any byte, and the cursor is reset. -/
def audioFlush : Op Unit := do
  let s ← get
  if 0 < s.acur then
    hostAudioWrite s.audioBytes
    modify fun t => { t with acur := 0 }

end Sys2Proof.Machine
end

