-- ==== Sys2Proof/Machine/FilePort.lean ====
section
/-! DEFINITION. The Virtual File Port (spec/45_file_port.md): path strings, the three commands, byte reads with newline
normalization, byte writes. -/

namespace Sys2Proof.Machine

/-- The cells from `a` up to the first zero cell, or `n` cells if none is zero. -/
def stringFrom (m : Memory) : (n : Nat) → (a : Nat) → List Word
  | 0, _ => []
  | n + 1, a => if m.read a = 0#32 then [] else m.read a :: stringFrom m n (a + 1)

/-- `ReadString(a)` (R243): a negative start faults; the zero cell or the end of memory ends the string. -/
def readString (a : Int) : Op (List Word) := fun s =>
  if a < 0 then raise (.outOfRange a) s
  else .ok (stringFrom s.mem (s.params.memWords - a.toNat) a.toNat) s

/-- The handle a word names. Handles are positive integers (R34), so a negative word names none. -/
def handleOf (h : Word) : Option Nat := if 0 ≤ h.toInt then some h.toInt.toNat else none

/-- The read stream of a handle. -/
def readStream (h : Word) : Op (Option ReadStream) := fun s =>
  .ok ((handleOf h).bind (tableFind s.rd)) s

/-- The write stream of a handle. -/
def writeStream (h : Word) : Op (Option Nat) := fun s =>
  .ok ((handleOf h).bind (tableFind s.wr)) s

/-- Set the entry of a handle in `rd`. -/
def setReadStream (h : Word) (e : ReadStream) : Op Unit := modify fun s =>
  { s with rd := tableInsert s.rd h.toInt.toNat e }

/-- Take a handle out of `rd`, its pushback with it. -/
def dropReadStream (h : Word) : Op Unit := modify fun s => { s with rd := tableErase s.rd h.toInt.toNat }

/-- Take a handle out of `wr`. -/
def dropWriteStream (h : Word) : Op Unit := modify fun s => { s with wr := tableErase s.wr h.toInt.toNat }

/-- Enter a read stream under the next handle, with an empty pushback, and leave the handle in `XA` (R242). -/
def allocRead (stream : Nat) : Op Unit := do
  let n := (← get).nexth
  modify fun s => { s with rd := tableInsert s.rd n { stream := stream, pushback := none } }
  setReg Config.XA (wrap32 n)
  modify fun s => { s with nexth := n + 1 }

/-- Enter a write stream under the next handle and leave the handle in `XA` (R244). -/
def allocWrite (stream : Nat) : Op Unit := do
  let n := (← get).nexth
  modify fun s => { s with wr := tableInsert s.wr n stream }
  setReg Config.XA (wrap32 n)
  modify fun s => { s with nexth := n + 1 }

/-- `FileOpenRead()` (R242). -/
def fileOpenRead : Op Unit := do
  let a ← reg Config.XA
  let path ← readString a.toInt
  match (← hostOpenRead path) with
  | .opened stream => allocRead stream
  | .failure => setReg Config.XA Config.minusOne

/-- `FileOpenWrite()` (R244). -/
def fileOpenWrite : Op Unit := do
  let a ← reg Config.XA
  let path ← readString a.toInt
  match (← hostOpenWrite path) with
  | .opened stream => allocWrite stream
  | .failure => setReg Config.XA Config.minusOne

/-- Close and discard the read stream of a handle, if it has one; true if the host reports a failure (R245). -/
def closeRead (h : Word) : Op Bool := do
  match (← readStream h) with
  | none => pure false
  | some e =>
    let r ← hostClose e.stream
    dropReadStream h
    pure (r == .failure)

/-- Close and discard the write stream of a handle, if it has one; true if the host reports a failure (R245). -/
def closeWrite (h : Word) : Op Bool := do
  match (← writeStream h) with
  | none => pure false
  | some stream =>
    let r ← hostClose stream
    dropWriteStream h
    pure (r == .failure)

/-- `FileClose()` (R245): both tables are consulted, and only a failed host close changes `XA`. -/
def fileClose : Op Unit := do
  let h ← reg Config.XA
  let f1 ← closeRead h
  let f2 ← closeWrite h
  if f1 || f2 then setReg Config.XA Config.minusOne

/-- `NextByte(s)` (R246) on the entry `e` of handle `h`: the byte pushed back, else a byte of the host. -/
def nextByte (h : Word) (e : ReadStream) : Op ReadAnswer :=
  match e.pushback with
  | some b => do
    setReadStream h { e with pushback := none }
    pure (.byte b)
  | none => hostRead e.stream

/-- Push the byte read ahead back, unless it is a line feed (R246). -/
def pushBack (h : Word) (e : ReadStream) (n : Byte) : Op Unit :=
  if n = Config.lineFeed then pure () else setReadStream h { e with pushback := some n }

/-- After a carriage return (R246): look at the following byte of the entry `e` of handle `h`, push it back unless it is
a line feed, and give the word the load returns. -/
def afterCarriageReturn (h : Word) (e : ReadStream) : Op Word := do
  match (← nextByte h { e with pushback := none }) with
  | .failure => pure Config.minusOne
  | .eof => pure (byteWord Config.lineFeed)
  | .byte n => do
    pushBack h e n
    pure (byteWord Config.lineFeed)

/-- `FileReadByte(h)` (R246). -/
def fileReadByte (h : Word) : Op Word := do
  match (← readStream h) with
  | none => pure Config.minusOne
  | some e =>
    match (← nextByte h e) with
    | .failure => pure Config.minusOne
    | .eof => pure Config.minusOne
    | .byte r => if r = Config.carriageReturn then afterCarriageReturn h e else pure (byteWord r)

/-- `FileWriteByte(h, b)` (R247). -/
def fileWriteByte (h : Word) (b : Byte) : Op Unit := do
  match (← writeStream h) with
  | none => pure ()
  | some stream => hostWrite stream b

end Sys2Proof.Machine
end

