-- ==== Sys2Proof/Machine/Mux.lean ====
section
/-! DEFINITION. The I/O Multiplexer (spec/44_load_store_iomux.md R202 to R216): the port table over loads and stores, one
definition per port and direction, everything else plain memory. An intercepted access never touches the cell under the
port (R203, R204). -/

namespace Sys2Proof.Machine

/-- `RN` load (R206): a fresh draw. -/
def loadRandom : Op Word := hostRandom

/-- `KY` load (R207). -/
def loadKeyMask : Op Word := fun s => .ok s.keys s

/-- `KB` load (R208): the oldest press code, or -1. -/
def loadKeyQueue : Op Word := fun s =>
  match s.keyq with
  | [] => .ok Config.minusOne s
  | v :: rest => .ok v { s with keyq := rest }

/-- `CO` load (R209). -/
def loadConsole : Op Word := do
  match (← hostStdinRead) with
  | .byte b => pure (byteWord b)
  | .eof => pure Config.minusOne
  | .failure w => pure w

/-- `XO` load (R212). -/
def loadExtData : Op Word := do
  let h ← reg Config.XA
  fileReadByte h

/-- `XS` load (R214). -/
def loadExtStatus : Op Word := pure Config.xsCaps

/-- `CO` store (R210). -/
def storeConsole (v : Word) : Op Unit := hostStdoutWrite (lowByte v)

/-- `AU` store (R211). -/
def storeAudio (v : Word) : Op Unit := audioAppend (lowByte v)

/-- `XO` store (R213). -/
def storeExtData (v : Word) : Op Unit := do
  let h ← reg Config.XA
  fileWriteByte h (lowByte v)

/-- `XS` store (R215): the command is the whole word, any other word does nothing. -/
def storeExtStatus (v : Word) : Op Unit :=
  if v = Config.xClose then fileClose
  else if v = Config.xOpenRead then fileOpenRead
  else if v = Config.xOpenWrite then fileOpenWrite
  else pure ()

/-- `PortLoad(addr)` (R203); the comparison is on the whole address (R202). -/
def portLoad (addr : Word) : Op Word :=
  let a := addr.toInt
  if a = Config.RN then loadRandom
  else if a = Config.KY then loadKeyMask
  else if a = Config.KB then loadKeyQueue
  else if a = Config.CO then loadConsole
  else if a = Config.XO then loadExtData
  else if a = Config.XS then loadExtStatus
  else memRead a

/-- `PortStore(addr, v)` (R204). -/
def portStore (addr v : Word) : Op Unit :=
  let a := addr.toInt
  if a = Config.CO then storeConsole v
  else if a = Config.AU then storeAudio v
  else if a = Config.XO then storeExtData v
  else if a = Config.XS then storeExtStatus v
  else memWrite a v

end Sys2Proof.Machine
end

