-- ==== Sys2Proof/Machine/LoadStore.lean ====
section
/-! DEFINITION. LOAD and STOR (spec/44_load_store_iomux.md R200, R201, R205): one addressing mode, an absolute word
address popped from the data stack. -/

namespace Sys2Proof.Machine

/-- LOAD (R201). -/
def opLoad : Op Unit := do
  let addr ← pop
  let v ← portLoad addr
  push v
def execLoad (s : State) : Host.Outcome State Fault Refusal := run opLoad s

/-- STOR (R205): the address is on top, both pops come before the write. -/
def opStor : Op Unit := do
  let addr ← pop
  let value ← pop
  portStore addr value
def execStor (s : State) : Host.Outcome State Fault Refusal := run opStor s

end Sys2Proof.Machine
end

