-- ==== Sys2Proof/Machine/Stack.lean ====
section
/-! DEFINITION. The stack instructions (spec/41_stack_ops.md R130 to R137). Each has its pseudocode as a block and its
meaning as an outcome; the fetch has been done, so `x[PC]` is the address of the word after the opcode. -/

namespace Sys2Proof.Machine

/-- CONST (R131). -/
def opConst : Op Unit := do
  let v ← constOperand
  push v
def execConst (s : State) : Host.Outcome State Fault Refusal := run opConst s

/-- DROP (R132): the popped cell is read although its value is unused. -/
def opDrop : Op Unit := do
  let _ ← pop
  pure ()
def execDrop (s : State) : Host.Outcome State Fault Refusal := run opDrop s

/-- SWAP (R133). -/
def opSwap : Op Unit := do
  let a ← pop
  let b ← pop
  push a
  push b
def execSwap (s : State) : Host.Outcome State Fault Refusal := run opSwap s

/-- DUP (R134): the top is read in place. -/
def opDup : Op Unit := do
  let d ← reg Config.DP
  let v ← memRead (d - 1#32).toInt
  push v
def execDup (s : State) : Host.Outcome State Fault Refusal := run opDup s

/-- OVER (R135). -/
def opOver : Op Unit := do
  let d ← reg Config.DP
  let v ← memRead (d - 2#32).toInt
  push v
def execOver (s : State) : Host.Outcome State Fault Refusal := run opOver s

/-- STR (R136). -/
def opStr : Op Unit := do
  let v ← pop
  rpush v
def execStr (s : State) : Host.Outcome State Fault Refusal := run opStr s

/-- RTS (R137). -/
def opRts : Op Unit := do
  let v ← rpop
  push v
def execRts (s : State) : Host.Outcome State Fault Refusal := run opRts s

end Sys2Proof.Machine
end

