-- ==== Sys2Proof/Machine/Raster.lean ====
section
/-! DEFINITION. The Raster Generator (spec/46_raster_generator.md): the scanline draw, and the frame synchronization
protocol around it. All reads are raw, raster addresses are unbounded integers that are then range-checked
(spec/20_memory.md R69). -/

namespace Sys2Proof.Machine

/-! ## The pixel buffer (spec/10_state.md R31) -/

/-- One row of the pixel buffer. -/
abbrev Row := Vector Word 320

/-- Row `y` of the pixel buffer; for `y` past the last row, where there is none, a row of 0. -/
def State.row (s : State) (y : Nat) : Row := s.pixels[y]?.getD (Vector.replicate 320 0#32)

/-- Pixel (x, y): the word `P[x + 320 * y]`; 0 outside the buffer, where there is no pixel. -/
def State.pixel (s : State) (x y : Nat) : Word := (s.row y)[x]?.getD 0#32

/-- Replace row `y`. -/
def State.setRow (s : State) (y : Nat) (row : Row) : State := { s with pixels := s.pixels.setIfInBounds y row }

/-- A piece of the draw of one scanline: the machine `s` it reads stands still (spec/20_memory.md R78), so what it
carries along is the row it writes, kept when a read faults (R270: "the row is then partly written"). -/
abbrev RowOp (α : Type) := EStateM Fault Row α

/-- A raw read of the machine's memory during the draw (R66, R69). -/
def rowRead (s : State) (a : Int) : RowOp Word := fun row =>
  if s.inMemory a then .ok (s.cell a) row else .error (.outOfRange a) row

/-- Draw on row `y` of the machine: whatever happens, the row drawn so far replaces the old one. -/
def onRow (y : Nat) (draw : State → RowOp Unit) : Op Unit := fun s =>
  match draw s (s.row y) with
  | .ok _ row => .ok () (s.setRow y row)
  | .error f row => raise f (s.setRow y row)

/-! ## The scanline draw (R270 to R278) -/

/-- The two grid passes of a scanline (R270). -/
inductive GridLayer where
  | low
  | high
deriving DecidableEq, Repr

/-- `FillRow(y)` (R271): unconditional. -/
def fillRow (s : State) : RowOp Unit := do
  let bg ← rowRead s Config.CL
  set (Vector.replicate 320 bg : Row)

/-- `DrawPixel(px, py, v)` on the row of `py` (R277): the horizontal clip, then the hard alpha test. The row is one of
the screen's, so the vertical clip never fails. -/
def drawPixel (px : Int) (v : Word) : RowOp Unit :=
  if px < 0 ∨ Config.screenW ≤ px then pure ()
  else if topByte v ≠ Config.alphaOpaque then pure ()
  else modify fun row => row.setIfInBounds px.toNat v

/-- The cell is empty: bit 31 is set (R273). -/
def cellEmpty (cell : Word) : Bool := cell.msb

/-- The z-bit of a grid cell, bit 30 (R273; conflict C1). -/
def cellZ (cell : Word) : Bool := cell.getLsbD 30

/-- The tile id of a grid cell, bits 29 to 0 (R273). -/
def cellTile (cell : Word) : Int := (cell.toNat % 2 ^ 30 : Nat)

/-- Whether a cell is drawn in a pass (R274): not empty, and its z-bit selects the pass. -/
def cellInPass (layer : GridLayer) (cell : Word) : Bool :=
  !cellEmpty cell &&
    match layer with
    | .low => !cellZ cell
    | .high => cellZ cell

/-- The eight pixels of one tile row (R274): `base` is the address of the first one, `x0` its screen column. -/
def drawTileRow (s : State) (base x0 : Int) : RowOp Unit :=
  (List.range Config.tileW).forM fun k => do
    let v ← rowRead s (base + k)
    drawPixel (x0 + k) v

/-- One column of a grid pass (R274): the cell is read whether visible or not. -/
def gridColumn (s : State) (layer : GridLayer) (r tr pitch : Int) (c : Nat) : RowOp Unit := do
  let gp ← rowRead s Config.GP
  let cell ← rowRead s (gp.toInt + r * pitch + c)
  if cellInPass layer cell then
    let gt ← rowRead s Config.GT
    let sx ← rowRead s Config.SX
    drawTileRow s (gt.toInt + cellTile cell * Config.tileWords + tr * Config.tileW) (c * Config.tileW - sx.toInt)

/-- `GridPass(y, pass)` (R272, R274): a scanline above or below the grid reads and draws nothing. -/
def gridPass (s : State) (y : Nat) (layer : GridLayer) : RowOp Unit := do
  let sy ← rowRead s Config.SY
  let gy : Int := y + sy.toInt
  let r := gy.fdiv Config.tileH
  if r < 0 ∨ Config.gridRows ≤ r then pure ()
  else
    let gs ← rowRead s Config.GS
    (List.range Config.gridCols).forM (gridColumn s layer r (gy - Config.tileH * r) (Config.gridCols + gs.toInt))

/-- `SpritePass(y)` (R276): reads nothing, writes nothing. -/
def spritePass : RowOp Unit := pure ()

/-- The four parts of the draw of scanline `y` (R270). -/
def scanline (y : Nat) (s : State) : RowOp Unit := do
  fillRow s
  gridPass s y .low
  spritePass
  gridPass s y .high

/-- `DrawScanline(y)` (R270). -/
def drawScanline (y : Nat) : Op Unit := onRow y (scanline y)

/-! ## The frame synchronization protocol (R260 to R265) -/

/-- The end of the frame, in either branch of the protocol (R265): the flush, then the return to the host. -/
def endFrame : Op Unit := do
  audioFlush
  returnToHost

/-- `StaticFrame()` (R262). -/
def staticFrame : Op Unit := do
  (List.range Config.screenH).forM drawScanline
  endFrame

/-- `FrameProtocol()` (R261), called with the program counter past the SYNC: the raster vector is sampled once. -/
def frameProtocol : Op Unit := do
  let v ← reg Config.RV
  if v = 0#32 then staticFrame else enterRoutine v

/-- What follows the draw of scanline `y` (R264, R265): the next scanline, or the end of the frame. -/
def afterScanline (y : Fin 240) : Op Unit :=
  if h : y.val + 1 < 240 then setPhase (.scan ⟨y.val + 1, h⟩) else endFrame

/-- A SYNC met in phase SCAN(y) (R264), the program counter past it: one scanline is drawn. -/
def scanlineSync (y : Fin 240) : Op Unit := do
  drawScanline y.val
  afterScanline y

end Sys2Proof.Machine
end

