-- ==== Sys2Proof/Machine/Sync.lean ====
section
/-! DEFINITION. SYNC (spec/40_engine_run_loop.md R115), executed by the sequencer with the program counter past it: a
frame-level SYNC in phase RUN, a scanline SYNC in phase SCAN(y). In the other phases nobody executes (R36). -/

namespace Sys2Proof.Machine

/-- SYNC (R115). -/
def execSync (s : State) : Host.Outcome State Fault Refusal :=
  match s.phase with
  | .run => run frameProtocol s
  | .scan y => run (scanlineSync y) s
  | .idle => .refused .noInvocation
  | .halted => .refused .noInvocation
  | .fault f => .fault f

end Sys2Proof.Machine
end

