-- ==== Sys2Proof/Machine/Dispatch.lean ====
section
/-! DEFINITION. One arm per operation (spec/40_engine_run_loop.md R112): the meaning runs with `x[PC]` equal to the
address of the word after the opcode. -/

namespace Sys2Proof.Machine

def exec (i : Instr) (s : State) : Host.Outcome State Fault Refusal :=
  match i with
  | .const => Sys2Proof.Machine.execConst s
  | .call => Sys2Proof.Machine.execCall s
  | .jump => Sys2Proof.Machine.execJump s
  | .jumpz => Sys2Proof.Machine.execJumpz s
  | .jumpif => Sys2Proof.Machine.execJumpif s
  | .load => Sys2Proof.Machine.execLoad s
  | .stor => Sys2Proof.Machine.execStor s
  | .ret => Sys2Proof.Machine.execReturn s
  | .drop => Sys2Proof.Machine.execDrop s
  | .swap => Sys2Proof.Machine.execSwap s
  | .dup => Sys2Proof.Machine.execDup s
  | .ovr => Sys2Proof.Machine.execOver s
  | .str => Sys2Proof.Machine.execStr s
  | .rts => Sys2Proof.Machine.execRts s
  | .add => Sys2Proof.Machine.execAdd s
  | .sub => Sys2Proof.Machine.execSub s
  | .mul => Sys2Proof.Machine.execMul s
  | .div => Sys2Proof.Machine.execDiv s
  | .mod => Sys2Proof.Machine.execMod s
  | .and => Sys2Proof.Machine.execAnd s
  | .or => Sys2Proof.Machine.execOr s
  | .xor => Sys2Proof.Machine.execXor s
  | .not => Sys2Proof.Machine.execNot s
  | .sgt => Sys2Proof.Machine.execSgt s
  | .slt => Sys2Proof.Machine.execSlt s
  | .sync => Sys2Proof.Machine.execSync s
  | .next => Sys2Proof.Machine.execNext s

end Sys2Proof.Machine
end

