-- ==== Sys2Proof/Machine/Sequencer.lean ====
section
/-! DEFINITION. The frame sequencer (spec/40_engine_run_loop.md R110 to R119): fetch, tick, the sequencer's step, and the
host's moves at a step boundary (spec/70_reset_and_hazards.md R351). -/

namespace Sys2Proof.Machine

/-- `fetch()` (R111): the program counter is advanced before the opcode cell is read. Gives the word and its address. -/
def fetch : Op (Word × Word) := do
  let p ← reg Config.PC
  setReg Config.PC (p + 1#32)
  let w ← memRead p.toInt
  pure (w, p)

/-- A word that is no opcode (R95): a fault or a one-word no-op, by `ILLEGAL_OPCODE_POLICY`. -/
def illegalWord (w p : Word) (s : State) : Host.Outcome State Fault Refusal :=
  match s.params.illegalOpcode with
  | .fault => run (raise (.illegalOpcode w p)) s
  | .nop => .next s

/-- What `tick` does with the fetched word (R113): an operation is executed, a SYNC word faults (R94). -/
def tickWord (w p : Word) (s : State) : Host.Outcome State Fault Refusal :=
  match decodeWord w with
  | none => illegalWord w p s
  | some i => if i = .sync then run (raise (.illegalOpcode w p)) s else exec i s

/-- `tick()` (R113). -/
def tick (s : State) : Host.Outcome State Fault Refusal :=
  andThen fetch (fun wp t => tickWord wp.1 wp.2 t) s

/-- The sequencer's step in the phases RUN and SCAN(y) (R114; spec/46_raster_generator.md R264): the halt test, the look
at the next opcode, the tick, in this order. A SYNC is consumed here: the program counter moves past it and SYNC is
executed. -/
def sequencerStep (s : State) : Host.Outcome State Fault Refusal :=
  andThen (reg Config.PC) (fun p t =>
    if p = Config.haltPC then run (setPhase .halted) t
    else andThen (memRead p.toInt) (fun w u =>
      if w = opcode .sync then andThen (setReg Config.PC (p + 1#32)) (fun _ v => exec .sync v) u
      else tick u) t) s

/-- `host.frame()` begins an invocation (R117). -/
def frameCall (s : State) : Host.Outcome State Fault Refusal := run (setPhase .run) s

/-- The machine goes on: the host calls the frame-level entry point when it owns the instance, else the sequencer steps
(R36, R117). -/
def machineTurn (s : State) : Host.Outcome State Fault Refusal :=
  match s.phase with
  | .idle => frameCall s
  | .run => sequencerStep s
  | .scan _ => sequencerStep s
  | .halted => .refused .halted
  | .fault f => .fault f

/-- Whether the host may mutate the key state now (R351): under `any_step_boundary` in every phase that is not terminal,
under `idle_only` in IDLE. -/
def keyWindowOpen (s : State) : Bool :=
  match s.phase with
  | .idle => true
  | .run => s.params.keyWindow == .anyStepBoundary
  | .scan _ => s.params.keyWindow == .anyStepBoundary
  | .halted => false
  | .fault _ => false

/-- A key mutation of the host (R33, R351): it happens inside the window, or there is no such move. -/
def keyMove (change : State → State) (s : State) : Host.Outcome State Fault Refusal :=
  if keyWindowOpen s then .next (change s) else .refused .keyMoveOutsideWindow

/-- The state with the host's next moves replaced. -/
def State.withMoves (s : State) (ms : List HostMove) : State := { s with env := { s.env with moves := ms } }

/-- One step of whoever moves next: the host makes its next move, or the machine goes on (R70, R71). In the terminal
phases nobody steps (R36). -/
def turn (s : State) : Host.Outcome State Fault Refusal :=
  match s.phase with
  | .halted => .refused .halted
  | .fault f => .fault f
  | _ =>
    match s.env.moves with
    | [] => machineTurn s
    | .goOn :: ms => machineTurn (s.withMoves ms)
    | .setKeys w :: ms => keyMove (fun t => { t with keys := w }) (s.withMoves ms)
    | .press c :: ms => keyMove (fun t => { t with keyq := t.keyq ++ [c] }) (s.withMoves ms)

/-! ## Placing an instruction where the next step fetches it -/

/-- Where an instruction of two words can stand and be fetched: its two cells are free-form memory (spec/20_memory.md
R68). -/
def placeable (s : State) (p : Word) : Bool :=
  decide (Config.reservedHeader ≤ p.toInt ∧ p.toInt + 1 < s.params.memWords)

/-- The state with words written from address `a` up. -/
def State.withWords (s : State) (a : Int) : List Word → State
  | [] => s
  | w :: ws => (s.setCell a w).withWords (a + 1) ws

/-- The state in which the next step fetches the given words as an instruction: they stand at the program counter (at
cell 20, the first free-form cell, when the program counter is at no such place), the phase is one in which the sequencer
steps, and the host has no move before it (log entries 11 and 25). -/
def State.withInstruction (s : State) (ws : List Word) : State :=
  let p := s.cell Config.PC
  let q : Word := if placeable s p then p else 20#32
  let t := ((s.setCell Config.PC q).withWords q.toInt ws).withMoves []
  match t.phase with
  | .scan _ => t
  | _ => { t with phase := .run }

end Sys2Proof.Machine
end

