-- ==== Sys2Proof/Machine/Step.lean ====
section
/-! DEFINITION. One step of the machine, and the placing of an instruction where the next step fetches it. Both only
call Machine/Sequencer.lean. -/

namespace Sys2Proof.Machine

/-- One step of whoever moves next. -/
def step (s : State) : Host.Outcome State Fault Refusal := turn s

/-- `s` with the instruction whose table bits are `w` stored where the next step fetches. -/
def State.withFetchWord (s : State) (nbits w : Nat) : State := s.withInstruction (tableWords nbits w)

end Sys2Proof.Machine
end

