-- ==== Sys2Proof/Safety.lean ====
section
/-! DEFINITION. The terms in which claims are stated: the machine's invariant, what a claim calls the operands of an
instruction, the finished pixel of spec/46_raster_generator.md R278, and the launch premises of
spec/70_reset_and_hazards.md R342. No definition here is used by the machine. -/

namespace Sys2Proof.Machine

/-! ## The invariant -/

/-- A stream table is in canonical form and every handle in it has been allocated (spec/10_state.md R34,
spec/45_file_port.md R248). -/
abbrev tableInv {α : Type} (t : Table α) (nexth : Nat) : Prop :=
  tableWf t ∧ ∀ c ∈ t, 1 ≤ c.1 ∧ c.1 < nexth

/-- What every state of the machine satisfies: `MEM_WORDS` within its bounds (R5, D33), main memory in canonical form
and inside its bounds (R21), the audio cursor within the buffer (R32), the handles allocated in order (R34). -/
abbrev State.Inv (s : State) : Prop :=
  (20 ≤ s.params.memWords ∧ s.params.memWords ≤ 2147483648) ∧
  (s.mem.wf ∧ ∀ c ∈ s.mem, c.1 < s.params.memWords) ∧
  s.acur ≤ 8000 ∧
  (1 ≤ s.nexth ∧ tableInv s.rd s.nexth ∧ tableInv s.wr s.nexth)

/-- No handle owns both a read and a write stream (spec/90_conflicts.md C4, R248). -/
abbrev State.handlesApart (s : State) : Prop := ∀ c ∈ s.rd, ∀ d ∈ s.wr, c.1 ≠ d.1

/-! ## Operands -/

/-- `x[PC]`, `x[DP]`, `x[RP]` (spec/00_scope.md R7). -/
abbrev State.pc (s : State) : Word := s.cell Config.PC
abbrev State.dp (s : State) : Word := s.cell Config.DP
abbrev State.rp (s : State) : Word := s.cell Config.RP

/-- The word a pop finds `k` cells below the pointer register `ptr`: the cell there, or the pointer's own new value when
the pointer names itself, since the pointer is updated before the cell is read (R8). -/
def State.popWord (s : State) (ptr : Int) (k : Word) : Word :=
  if (s.cell ptr - k).toInt = ptr then s.cell ptr - k else s.cell (s.cell ptr - k).toInt

/-- The two operands of a binary instruction lie in memory. -/
abbrev State.twoOperands (s : State) : Prop := s.inMemory (s.dp - 1#32).toInt ∧ s.inMemory (s.dp - 2#32).toInt

/-- Where an instruction with two operands leaves memory: at the first of the two popped cells that lies outside, if one
does (R170). -/
def State.operandOut (s : State) : Option Int :=
  if s.inMemory (s.dp - 1#32).toInt then
    if s.inMemory (s.dp - 2#32).toInt then none else some (s.dp - 2#32).toInt
  else some (s.dp - 1#32).toInt

/-- The state with `v` pushed through the pointer register `ptr` (R8). -/
def State.pushed (s : State) (ptr : Int) (v : Word) : State :=
  (s.setCell ptr (s.cell ptr + 1#32)).setCell (s.cell ptr).toInt v

/-- The state after a binary instruction with result `v`: one operand fewer, the result in the second's cell (R170). -/
def State.afterBinary (s : State) (v : Word) : State :=
  (s.setCell Config.DP (s.dp - 1#32)).setCell (s.dp - 2#32).toInt v

/-- The address a LOAD or a STOR finds on top of the data stack (R201, R205). -/
def State.topAddress (s : State) : Int := (s.popWord Config.DP 1#32).toInt

/-- The state after the host has been asked for a byte of a stream (R246). -/
def State.askedRead (s : State) (stream : Nat) : State :=
  { s with env := { s.env with sent := s.env.sent ++ [.read stream],
                               reads := (tapeNext (Config.readAnswer stream) s.env.reads).2 } }

/-- The state with a transaction handed to the host. -/
def State.told (s : State) (c : HostCall) : State := { s with env := { s.env with sent := s.env.sent ++ [c] } }

/-- The state a LOAD leaves that returns `v` (R201): the value takes the address's place on the stack. -/
def State.afterLoad (s : State) (v : Word) : State := s.setCell (s.dp - 1#32).toInt v

/-- The state a STOR works on once it has popped its two operands (R205). -/
def State.afterStorePops (s : State) : State := s.setCell Config.DP (s.dp - 2#32)

/-- What a path string is (spec/45_file_port.md R243): the cells from `a` up, none of them zero, up to a zero cell or
the end of memory. -/
def State.pathAt (s : State) (a : Int) (path : List Word) : Prop :=
  (∀ i : Nat, i < path.length → s.inMemory (a + i) ∧ path[i]? = some (s.cell (a + i)) ∧ s.cell (a + i) ≠ 0#32) ∧
  (s.inMemory (a + path.length) → s.cell (a + path.length) = 0#32)

/-- The handle in `XA` as a key of the stream tables; a negative word is no handle (R34). -/
def State.xaHandle (s : State) : Option Nat :=
  if 0 ≤ (s.cell Config.XA).toInt then some (s.cell Config.XA).toInt.toNat else none

/-- The read stream and the write stream the handle in `XA` selects, if any (R246, R247). -/
def State.xaReader (s : State) : Option ReadStream := s.xaHandle.bind (tableFind s.rd)
def State.xaWriter (s : State) : Option Nat := s.xaHandle.bind (tableFind s.wr)

/-! ## What a frame looks like -/

/-- The grid line shown at scanline `y`, and the grid column shown at screen column `px` (R272, R278). -/
def State.gridLine (s : State) (y : Nat) : Int := y + (s.cell Config.SY).toInt
def State.gridX (s : State) (px : Nat) : Int := px + (s.cell Config.SX).toInt

/-- The address of grid cell (r, c) (R272). -/
def State.gridAddr (s : State) (r c : Int) : Int :=
  (s.cell Config.GP).toInt + r * (41 + (s.cell Config.GS).toInt) + c

/-- The address of pixel (tr, k) of the tile a grid cell names (R272, R273). -/
def State.tileAddr (s : State) (cell : Word) (tr k : Int) : Int :=
  (s.cell Config.GT).toInt + (cell.toNat % 1073741824 : Nat) * 64 + tr * 8 + k

/-- The word pixel (px, y) holds after scanline `y` has been drawn (R278). -/
def State.finishedPixel (s : State) (px y : Nat) : Word :=
  let gx := s.gridX px
  let gy := s.gridLine y
  let c := gx.fdiv 8
  let r := gy.fdiv 8
  let cell := s.cell (s.gridAddr r c)
  let v := s.cell (s.tileAddr cell (gy - 8 * r) (gx - 8 * c))
  if (0 ≤ c ∧ c < 41) ∧ (0 ≤ r ∧ r < 31) ∧ 0 ≤ cell.toInt ∧ v.extractLsb' 24 8 = 0xFF#8 then v else s.cell Config.CL

/-- Everything scanline `y` reads lies in memory (R274): the 41 cells of the grid row it maps to, and the eight pixels
of the tile row of each cell that is not empty. -/
def State.scanlineReadable (s : State) (y : Nat) : Prop :=
  let r := (s.gridLine y).fdiv 8
  0 ≤ r → r < 31 → ∀ c : Nat, c < 41 →
    s.inMemory (s.gridAddr r c) ∧
    (0 ≤ (s.cell (s.gridAddr r c)).toInt → ∀ k : Nat, k < 8 →
      s.inMemory (s.tileAddr (s.cell (s.gridAddr r c)) (s.gridLine y - 8 * r) k))

/-- The launch premise of R342 in its recommended, stronger form: all 31 rows of the grid lie in memory, and all 64
pixels of every tile referred to. -/
def State.gridLaunchPremise (s : State) : Prop :=
  ∀ r c : Nat, r < 31 → c < 41 →
    s.inMemory (s.gridAddr r c) ∧
    (0 ≤ (s.cell (s.gridAddr r c)).toInt → ∀ i : Nat, i < 64 →
      s.inMemory (s.tileAddr (s.cell (s.gridAddr r c)) 0 i))

/-- The state after the audio flush (spec/47_audio_sink.md R302). -/
def State.flushed (s : State) : State :=
  if 0 < s.acur then { s.told (.audioWrite s.audioBytes) with acur := 0 } else s

/-- The state after the end of a frame (spec/46_raster_generator.md R265): the audio flushed, the invocation returned to
the host, which has one more frame to read (R280). -/
def State.frameEnded (s : State) : State :=
  { s.flushed with phase := .idle, env := { s.flushed.env with frames := s.env.frames + 1 } }

/-! ## Safe runs -/

/-- The machine is in an invocation and no host move comes before its next step. -/
abbrev State.executing (s : State) : Prop :=
  (s.phase = .run ∨ ∃ y, s.phase = .scan y) ∧ (s.env.moves = [] ∨ ∃ ms, s.env.moves = .goOn :: ms)

/-- The state the sequencer steps from: the host's move "go on", if there is one, is used up. -/
def State.boundaryPassed (s : State) : State := s.withMoves s.env.moves.tail

/-- A run is safe for `n` steps: no step of it faults (spec/60_exceptions.md R311: a claim about a program takes "no fault
is reached" as something to prove). A machine that has halted is safe. -/
def safeFor : Nat → State → Prop
  | 0, _ => True
  | n + 1, s =>
    match step s with
    | .next t => safeFor n t
    | .fault _ => False
    | .refused _ => True

end Sys2Proof.Machine
end

