-- ==== Sys2Proof/Certificates/Slice0/Obligations.lean ====
section
/-! DEFINITION. The statements for the provers, from the numbered rules of spec/. Operands are named by Safety.lean:
`popWord DP 1` is the word a pop finds on top, `popWord DP 2` the second (`a` and `b` of spec/43_arithmetic_logic.md
R170). An equation `exec i s = .next t` gives the instruction's whole effect, its frame included. -/

open Sys2Proof Sys2Proof.Machine

/-! ## Encoding -/

/-- R90 to R93, R97: decoding the words of a well-formed instruction gives it back, operand included, and leaves the
words after it. -/
def Obligations.DecodeOfEncode : Prop :=
  ∀ (c : Coded) (rest : List Word), c.wellFormed = true → decode (encode c ++ rest) = .ok (c, rest)

/-- R95, R96: the decoder accepts a word as an operation exactly when it is that operation's number, and rejects
exactly the numbers 5 to 9, every number from 32 up, and every negative word. -/
def Obligations.DecoderMatchesWholeWord : Prop :=
  (∀ (w : Word) (i : Instr), decodeWord w = some i ↔ w = opcode i) ∧
  (∀ w : Word, decodeWord w = none ↔ (5 ≤ w.toInt ∧ w.toInt ≤ 9) ∨ 32 ≤ w.toInt ∨ w.toInt < 0)

/-- R93: six opcode words, one or two of each family, as the table writes them. -/
def Obligations.TableWordsDecode : Prop :=
  decodeWord 0x00000000#32 = some .const ∧ decodeWord 0x00000004#32 = some .jumpif ∧
  decodeWord 0x0000000A#32 = some .load ∧ decodeWord 0x00000012#32 = some .rts ∧
  decodeWord 0x0000001D#32 = some .slt ∧ decodeWord 0x0000001E#32 = some .sync

/-! ## Memory -/

/-- R7, R66: a raw read after a raw write gives the word written at that address and the old word at every other. -/
def Obligations.RawReadAfterWrite : Prop :=
  ∀ (s t : State) (a b : Int) (v : Word), memWrite a v s = .ok () t → s.inMemory b →
    memRead b t = .ok (if b = a then v else s.cell b) t

/-- R66: a raw access is defined only when `0 <= a < MEM_WORDS`, otherwise it raises `Fault.OutOfRange(a)`. -/
def Obligations.RangeCheckFaults : Prop :=
  ∀ (s : State) (a : Int) (v : Word), (a < 0 ∨ (s.params.memWords : Int) ≤ a) →
    memRead a s = .error (.outOfRange a) { s with phase := .fault (.outOfRange a) } ∧
    memWrite a v s = .error (.outOfRange a) { s with phase := .fault (.outOfRange a) }

/-! ## Stack instructions -/

/-- R131: CONST steps over its operand, then pushes it. That the operand is read after the program counter has been
advanced (decision D9 of the spec, so that with the operand address 0 the value is the advanced program counter) is the
spec's own choice. -/
def Obligations.ConstPushesOperand : Prop :=
  ∀ s : State, s.Inv →
    (¬ s.inMemory s.pc.toInt → exec .const s = .fault (.outOfRange s.pc.toInt)) ∧
    (s.inMemory s.pc.toInt → ¬ s.inMemory s.dp.toInt → exec .const s = .fault (.outOfRange s.dp.toInt)) ∧
    (s.inMemory s.pc.toInt → s.inMemory s.dp.toInt →
      exec .const s = .next
        ((s.setCell Config.PC (s.pc + 1#32)).pushed Config.DP (if s.pc = 0#32 then 1#32 else s.cell s.pc.toInt)))

/-- R132: DROP lowers `dp`. That it reads the cell it discards, so that it faults when that cell is outside `M`, `dp`
having been lowered, is the spec's decision D9. -/
def Obligations.DropReadsTheCellItDiscards : Prop :=
  ∀ s : State, s.Inv →
    (s.inMemory (s.dp - 1#32).toInt → exec .drop s = .next (s.setCell Config.DP (s.dp - 1#32))) ∧
    (¬ s.inMemory (s.dp - 1#32).toInt →
      exec .drop s = .fault (.outOfRange (s.dp - 1#32).toInt) ∧
      (stateLeft opDrop s).dp = s.dp - 1#32)

/-- R133: SWAP off the pointer's own cell exchanges the two top cells and leaves `dp` where it was. With the pointer's cell
among the operands, the statements run in order all the same: the first push may overwrite the pointer that the second
push reads. That order, with the pointer updated before the cell (R7, R8), is the spec's decision D9; the faults outside
`M` (R66) are its decision D11. -/
def Obligations.SwapExchangesTopTwo : Prop :=
  ∀ s : State, s.Inv →
    (∀ x, s.operandOut = some x → exec .swap s = .fault (.outOfRange x)) ∧
    (s.twoOperands →
      ((s.dp - 2#32).toInt ≠ Config.DP → (s.dp - 1#32).toInt ≠ Config.DP →
        exec .swap s = .next
          ((s.setCell (s.dp - 2#32).toInt (s.cell (s.dp - 1#32).toInt)).setCell (s.dp - 1#32).toInt
            (s.cell (s.dp - 2#32).toInt))) ∧
      (let u := s.afterBinary (s.popWord Config.DP 1#32)
       (s.inMemory u.dp.toInt → exec .swap s = .next (u.pushed Config.DP (s.popWord Config.DP 2#32))) ∧
       (¬ s.inMemory u.dp.toInt → exec .swap s = .fault (.outOfRange u.dp.toInt))))

/-- R134, R135: DUP and OVER read the top and the second cell in place, then push it; the cell read and the cell pushed to
must lie in `M`, in this order. The faults outside `M` (R66) and the pointer updated before the cell (R8) are the spec's
decisions D11 and D9. -/
def Obligations.DupAndOverPushACopy : Prop :=
  ∀ s : State, s.Inv →
    (¬ s.inMemory (s.dp - 1#32).toInt → exec .dup s = .fault (.outOfRange (s.dp - 1#32).toInt)) ∧
    (s.inMemory (s.dp - 1#32).toInt → ¬ s.inMemory s.dp.toInt → exec .dup s = .fault (.outOfRange s.dp.toInt)) ∧
    (s.inMemory (s.dp - 1#32).toInt → s.inMemory s.dp.toInt →
      exec .dup s = .next (s.pushed Config.DP (s.cell (s.dp - 1#32).toInt))) ∧
    (¬ s.inMemory (s.dp - 2#32).toInt → exec .ovr s = .fault (.outOfRange (s.dp - 2#32).toInt)) ∧
    (s.inMemory (s.dp - 2#32).toInt → ¬ s.inMemory s.dp.toInt → exec .ovr s = .fault (.outOfRange s.dp.toInt)) ∧
    (s.inMemory (s.dp - 2#32).toInt → s.inMemory s.dp.toInt →
      exec .ovr s = .next (s.pushed Config.DP (s.cell (s.dp - 2#32).toInt)))

/-- R136, R137: STR moves the top of the data stack to the return stack, RTS moves it the other way; the popped cell and
the cell pushed to must lie in `M`, in this order. The faults outside `M` (R66) and the pointers updated before the cells
(R8) are the spec's decisions D11 and D9. -/
def Obligations.StrAndRtsMoveBetweenStacks : Prop :=
  ∀ s : State, s.Inv →
    (¬ s.inMemory (s.dp - 1#32).toInt → exec .str s = .fault (.outOfRange (s.dp - 1#32).toInt)) ∧
    (s.inMemory (s.dp - 1#32).toInt → ¬ s.inMemory s.rp.toInt → exec .str s = .fault (.outOfRange s.rp.toInt)) ∧
    (s.inMemory (s.dp - 1#32).toInt → s.inMemory s.rp.toInt →
      exec .str s = .next ((s.setCell Config.DP (s.dp - 1#32)).pushed Config.RP (s.popWord Config.DP 1#32))) ∧
    (¬ s.inMemory (s.rp - 1#32).toInt → exec .rts s = .fault (.outOfRange (s.rp - 1#32).toInt)) ∧
    (s.inMemory (s.rp - 1#32).toInt → ¬ s.inMemory s.dp.toInt → exec .rts s = .fault (.outOfRange s.dp.toInt)) ∧
    (s.inMemory (s.rp - 1#32).toInt → s.inMemory s.dp.toInt →
      exec .rts s = .next ((s.setCell Config.RP (s.rp - 1#32)).pushed Config.DP (s.popWord Config.RP 1#32)))

/-! ## Control transfer -/

/-- R151: CALL pushes the address after the operand and goes to the operand. That the operand is read after the push (it
matters when the push overwrites it) is the spec's decision D9. -/
def Obligations.CallPushesThenReadsTarget : Prop :=
  ∀ s : State, s.Inv →
    let u := s.pushed Config.RP (s.pc + 1#32)
    (¬ s.inMemory s.rp.toInt → exec .call s = .fault (.outOfRange s.rp.toInt)) ∧
    (s.inMemory s.rp.toInt → ¬ s.inMemory u.pc.toInt → exec .call s = .fault (.outOfRange u.pc.toInt)) ∧
    (s.inMemory s.rp.toInt → s.inMemory u.pc.toInt →
      exec .call s = .next (u.setCell Config.PC (u.cell u.pc.toInt)))

/-- R152, R155: JUMP goes to its operand, RETURN to the word it pops off the return stack, whatever they are; only the
cell read must lie in `M`. The faults outside `M` (R66), and what a RETURN pops that finds the pointer's own cell (R8), are
the spec's decisions D11 and D9. -/
def Obligations.JumpAndReturnSetProgramCounter : Prop :=
  ∀ s : State, s.Inv →
    (s.inMemory s.pc.toInt → exec .jump s = .next (s.setCell Config.PC (s.cell s.pc.toInt))) ∧
    (¬ s.inMemory s.pc.toInt → exec .jump s = .fault (.outOfRange s.pc.toInt)) ∧
    (s.inMemory (s.rp - 1#32).toInt →
      exec .ret s = .next ((s.setCell Config.RP (s.rp - 1#32)).setCell Config.PC (s.popWord Config.RP 1#32))) ∧
    (¬ s.inMemory (s.rp - 1#32).toInt → exec .ret s = .fault (.outOfRange (s.rp - 1#32).toInt))

/-- R153, R154, R91: JUMPZ and JUMPIF pop their condition; taken, they go to the operand; not taken, they step over the
operand, which is not read and may lie outside `M`. The condition's own cell must lie in `M`. That the condition is popped,
and first, are the spec's decisions D10 and D9; that the operand goes unread is its decision D8. -/
def Obligations.ConditionalJumpsPopAndBranch : Prop :=
  ∀ s : State, s.Inv →
    let u := s.setCell Config.DP (s.dp - 1#32)
    let c := s.popWord Config.DP 1#32
    (¬ s.inMemory (s.dp - 1#32).toInt → exec .jumpz s = .fault (.outOfRange (s.dp - 1#32).toInt) ∧
      exec .jumpif s = .fault (.outOfRange (s.dp - 1#32).toInt)) ∧
    (s.inMemory (s.dp - 1#32).toInt → c = 0#32 → exec .jumpif s = .next (u.setCell Config.PC (s.pc + 1#32)) ∧
      (s.inMemory s.pc.toInt → exec .jumpz s = .next (u.setCell Config.PC (u.cell s.pc.toInt))) ∧
      (¬ s.inMemory s.pc.toInt → exec .jumpz s = .fault (.outOfRange s.pc.toInt))) ∧
    (s.inMemory (s.dp - 1#32).toInt → c ≠ 0#32 → exec .jumpz s = .next (u.setCell Config.PC (s.pc + 1#32)) ∧
      (s.inMemory s.pc.toInt → exec .jumpif s = .next (u.setCell Config.PC (u.cell s.pc.toInt))) ∧
      (¬ s.inMemory s.pc.toInt → exec .jumpif s = .fault (.outOfRange s.pc.toInt)))

/-- R156: NEXT decrements the counter on the return stack in place, and writes `rp` only where the counter is `rp`'s own
cell; a negative result falls through, any other goes to the operand. That the operand goes unread when it falls through,
the order of the statements, and the faults outside `M` (R66) are the spec's decisions D8, D9 and D11. -/
def Obligations.NextDecrementsInPlace : Prop :=
  ∀ s : State, s.Inv →
    (¬ s.inMemory (s.rp - 1#32).toInt → exec .next s = .fault (.outOfRange (s.rp - 1#32).toInt)) ∧
    (s.inMemory (s.rp - 1#32).toInt →
      let n := s.cell (s.rp - 1#32).toInt - 1#32
      let u := s.setCell (s.rp - 1#32).toInt n
      (n.toInt < 0 → exec .next s = .next (u.setCell Config.PC (u.pc + 1#32))) ∧
      (0 ≤ n.toInt → s.inMemory u.pc.toInt → exec .next s = .next (u.setCell Config.PC (u.cell u.pc.toInt))) ∧
      (0 ≤ n.toInt → ¬ s.inMemory u.pc.toInt → exec .next s = .fault (.outOfRange u.pc.toInt)))

/-! ## Arithmetic, logic and comparison -/

/-- R171, R172, R173, R182: the second operand plus, minus, times the top, reduced to a word; the operands are popped in
the order of R170 and must lie in `M`. The faults outside `M` (R66), and what the pops find in the pointer's own cell (R8),
are the spec's decisions D11 and D9. -/
def Obligations.AddSubMulWrap : Prop :=
  ∀ s : State, s.Inv →
    (∀ x i, i ∈ [Instr.add, .sub, .mul] → s.operandOut = some x → exec i s = .fault (.outOfRange x)) ∧
    (s.twoOperands →
      let a := s.popWord Config.DP 1#32
      let b := s.popWord Config.DP 2#32
      exec .add s = .next (s.afterBinary (wrap32 (b.toInt + a.toInt))) ∧
      exec .sub s = .next (s.afterBinary (wrap32 (b.toInt - a.toInt))) ∧
      exec .mul s = .next (s.afterBinary (wrap32 (b.toInt * a.toInt))))

/-- R174: the quotient is rounded toward zero (the spec's decision D12): what remains is smaller than the divisor and has
the dividend's sign. The quotient 2^31 of -2^31 by -1 wraps. -/
def Obligations.DivRoundsTowardZero : Prop :=
  ∀ s : State, s.Inv → s.twoOperands →
    let a := s.popWord Config.DP 1#32
    let b := s.popWord Config.DP 2#32
    a ≠ 0#32 → ∃ q r : Int, b.toInt = q * a.toInt + r ∧ r.natAbs < a.toInt.natAbs ∧
      (0 < r → 0 < b.toInt) ∧ (r < 0 → b.toInt < 0) ∧ exec .div s = .next (s.afterBinary (wrap32 q))

/-- R175: for a positive divisor the result is the one number from 0 up to the divisor that is congruent to the
dividend. -/
def Obligations.ModIsFlooredForPositiveDivisor : Prop :=
  ∀ s : State, s.Inv → s.twoOperands →
    let a := s.popWord Config.DP 1#32
    let b := s.popWord Config.DP 2#32
    0 < a.toInt → ∃ q r : Int, b.toInt = q * a.toInt + r ∧ 0 ≤ r ∧ r < a.toInt ∧
      exec .mod s = .next (s.afterBinary (wrap32 r))

/-- R175, decision D14: for a negative divisor MOD completes too, with the open function `ModNeg` of dividend and divisor,
of which nothing is assumed (the model's free value, log entry 6). -/
def Obligations.ModByNegativeIsOpen : Prop :=
  ∀ s : State, s.Inv → s.twoOperands → (s.popWord Config.DP 1#32).toInt < 0 →
    exec .mod s =
      .next (s.afterBinary (Config.modNeg (s.popWord Config.DP 2#32) (s.popWord Config.DP 1#32)))

/-- R174, R175, R316, decision D13 of the spec: a zero divisor faults with the dividend, after both pops and before any
push; an operand outside `M` faults both before the divisor is looked at. -/
def Obligations.DivideByZeroFaults : Prop :=
  ∀ s : State, s.Inv →
    (∀ x, s.operandOut = some x → exec .div s = .fault (.outOfRange x) ∧ exec .mod s = .fault (.outOfRange x)) ∧
    (s.twoOperands → s.popWord Config.DP 1#32 = 0#32 →
      let f := Fault.divideByZero (s.popWord Config.DP 2#32)
      let u := { s.setCell Config.DP (s.dp - 2#32) with phase := .fault f }
      exec .div s = .fault f ∧ exec .mod s = .fault f ∧ stateLeft opDiv s = u ∧ stateLeft opMod s = u)

/-- R176, R177, R178, R179, R182: AND, OR, XOR and NOT work bit by bit on all 32 bits; the operands must lie in `M`. The
faults outside `M` (R66), and what the pops find in the pointer's own cell (R8), are the spec's decisions D11 and D9. -/
def Obligations.LogicIsBitwise : Prop :=
  ∀ s : State, s.Inv →
    let a := s.popWord Config.DP 1#32
    let b := s.popWord Config.DP 2#32
    (∀ x i, i ∈ [Instr.and, .or, .xor] → s.operandOut = some x → exec i s = .fault (.outOfRange x)) ∧
    (¬ s.inMemory (s.dp - 1#32).toInt → exec .not s = .fault (.outOfRange (s.dp - 1#32).toInt)) ∧
    (s.twoOperands → ∃ x y z : Word,
      (∀ i, i < 32 → x.getLsbD i = (b.getLsbD i && a.getLsbD i) ∧ y.getLsbD i = (b.getLsbD i || a.getLsbD i) ∧
        z.getLsbD i = (b.getLsbD i != a.getLsbD i)) ∧
      exec .and s = .next (s.afterBinary x) ∧ exec .or s = .next (s.afterBinary y) ∧
      exec .xor s = .next (s.afterBinary z)) ∧
    (s.inMemory (s.dp - 1#32).toInt → ∃ x : Word, (∀ i, i < 32 → x.getLsbD i = !a.getLsbD i) ∧
      exec .not s = .next (s.setCell (s.dp - 1#32).toInt x))

/-- R180, R181, R182: SGT and SLT compare the second with the top as signed integers and give exactly all-ones or zero;
the operands must lie in `M`. The faults outside `M` (R66), and what the pops find in the pointer's own cell (R8), are the
spec's decisions D11 and D9. -/
def Obligations.ComparisonsGiveTruthWords : Prop :=
  ∀ s : State, s.Inv →
    (∀ x i, i ∈ [Instr.sgt, .slt] → s.operandOut = some x → exec i s = .fault (.outOfRange x)) ∧
    (s.twoOperands →
      let a := s.popWord Config.DP 1#32
      let b := s.popWord Config.DP 2#32
      exec .sgt s = .next (s.afterBinary (if b.toInt > a.toInt then 0xFFFFFFFF#32 else 0#32)) ∧
      exec .slt s = .next (s.afterBinary (if b.toInt < a.toInt then 0xFFFFFFFF#32 else 0#32)))

/-! ## LOAD and STOR -/

/-- R201, R202, R203: a LOAD of an address that is no intercepted port gives the cell (for `DP` the lowered pointer); one
outside `M` faults, and so does a LOAD whose address is itself popped from outside `M`. That the other addresses below
20 are ordinary cells is the spec's decision D22. -/
def Obligations.LoadOfPlainAddress : Prop :=
  ∀ s : State, s.Inv →
    let a := s.topAddress
    (¬ s.inMemory (s.dp - 1#32).toInt → exec .load s = .fault (.outOfRange (s.dp - 1#32).toInt)) ∧
    (s.inMemory (s.dp - 1#32).toInt →
      a ∉ [Config.RN, Config.KY, Config.CO, Config.KB, Config.XO, Config.XS] →
      (s.inMemory a → exec .load s = .next (s.afterLoad (if a = Config.DP then s.dp - 1#32 else s.cell a))) ∧
      (¬ s.inMemory a → exec .load s = .fault (.outOfRange a)))

/-- R206, R214: a LOAD of `RN` gives a fresh draw, with no memory side effect (the value is the host's, free: decision D28,
log entry 8); a LOAD of `XS` gives the capability word 3 of decision D5, whatever the cell under the port holds. -/
def Obligations.LoadOfRandomAndStatus : Prop :=
  ∀ s : State, s.Inv → s.inMemory (s.dp - 1#32).toInt →
    (s.topAddress = Config.RN →
      let r := tapeNext Config.randomWord s.env.randoms
      let u := s.told .random
      exec .load s = .next ({ u with env := { u.env with randoms := r.2 } }.afterLoad r.1)) ∧
    (s.topAddress = Config.XS → exec .load s = .next (s.afterLoad 3#32))

/-- R207, R208: a LOAD of `KY` gives the bitmask; a LOAD of `KB` removes and gives the oldest press code, or gives -1 when
there is none. -/
def Obligations.LoadOfKeyState : Prop :=
  ∀ s : State, s.Inv → s.inMemory (s.dp - 1#32).toInt →
    (s.topAddress = Config.KY → exec .load s = .next (s.afterLoad s.keys)) ∧
    (s.topAddress = Config.KB →
      (s.keyq = [] → exec .load s = .next (s.afterLoad 0xFFFFFFFF#32)) ∧
      (∀ c rest, s.keyq = c :: rest → exec .load s = .next ({ s with keyq := rest }.afterLoad c)))

/-- R209: a LOAD of `CO` gives the byte zero-extended, -1 at the end of input, and after a failure a free word (the spec's
decision D23; log entry 8). -/
def Obligations.LoadOfConsole : Prop :=
  ∀ s : State, s.Inv → s.inMemory (s.dp - 1#32).toInt → s.topAddress = Config.CO →
    let r := tapeNext Config.stdinAnswer s.env.stdin
    let u := s.told .stdinRead
    let v := { u with env := { u.env with stdin := r.2 } }
    (∀ b, r.1 = .byte b → exec .load s = .next (v.afterLoad (b.setWidth 32))) ∧
    (r.1 = .eof → exec .load s = .next (v.afterLoad 0xFFFFFFFF#32)) ∧
    (∀ w, r.1 = .failure w → exec .load s = .next (v.afterLoad w))

/-- R212, R246: a LOAD of `XO` gives -1 when the handle in `XA` has no read stream; a byte pushed back that is no carriage
return is given without asking the host. That a negative word in `XA` names no handle is the model's reading (log entry 26). -/
def Obligations.LoadOfExtDataWithoutHost : Prop :=
  ∀ s : State, s.Inv → s.inMemory (s.dp - 1#32).toInt → s.topAddress = Config.XO →
    (s.xaReader = none → exec .load s = .next (s.afterLoad 0xFFFFFFFF#32)) ∧
    (∀ h e b, s.xaHandle = some h → s.xaReader = some e → e.pushback = some b → b ≠ 13#8 →
      exec .load s = .next
        ({ s with rd := tableInsert s.rd h { e with pushback := none } }.afterLoad (b.setWidth 32)))

/-- R246: with nothing pushed back, a LOAD of `XO` asks the host for a byte: one that is no carriage return is given
zero-extended, the end of the stream (decision D24 of the spec) and a failure give -1. -/
def Obligations.LoadOfExtDataFromHost : Prop :=
  ∀ s : State, s.Inv → s.inMemory (s.dp - 1#32).toInt → s.topAddress = Config.XO →
    ∀ e, s.xaReader = some e → e.pushback = none →
    let r := tapeNext (Config.readAnswer e.stream) s.env.reads
    let u := s.told (.read e.stream)
    let v := { u with env := { u.env with reads := r.2 } }
    (∀ b, r.1 = .byte b → b ≠ 13#8 → exec .load s = .next (v.afterLoad (b.setWidth 32))) ∧
    (r.1 = .eof ∨ r.1 = .failure → exec .load s = .next (v.afterLoad 0xFFFFFFFF#32))

/-- R246: newline normalization. A carriage return, whether the host gives it or it had been pushed back (`u` is the state
once it has been taken), reads as a line feed; one more byte is asked of the host, taken if it is a line feed and pushed
back if not; at the end of the stream nothing is pushed back; a failure while looking ahead gives -1 (both the
spec's decision D24). -/
def Obligations.CarriageReturnReadsAsLineFeed : Prop :=
  ∀ s : State, s.Inv → s.inMemory (s.dp - 1#32).toInt → s.topAddress = Config.XO →
    ∀ h e, s.xaHandle = some h → s.xaReader = some e →
    (e.pushback = some 13#8 ∨
      e.pushback = none ∧ (tapeNext (Config.readAnswer e.stream) s.env.reads).1 = .byte 13#8) →
    let u := if e.pushback = none then s.askedRead e.stream
      else { s with rd := tableInsert s.rd h { e with pushback := none } }
    let r := (tapeNext (Config.readAnswer e.stream) u.env.reads).1
    let v := u.askedRead e.stream
    (∀ b, r = .byte b → b ≠ 10#8 →
      exec .load s = .next
        ({ v with rd := tableInsert s.rd h { e with pushback := some b } }.afterLoad 10#32)) ∧
    (r = .byte 10#8 ∨ r = .eof → exec .load s = .next (v.afterLoad 10#32)) ∧
    (r = .failure → exec .load s = .next (v.afterLoad 0xFFFFFFFF#32))

/-- R205, R202, R204: a STOR to an address that is no intercepted port writes the second operand there, the registers `PC`
and `DP` among the addresses; outside `M` it faults, and so does a STOR one of whose operands is popped from outside `M`. The
order of the pops and that the other addresses below 20 are ordinary cells are the spec's decisions D10 and D22. -/
def Obligations.StorToPlainAddress : Prop :=
  ∀ s : State, s.Inv →
    let a := s.topAddress
    (∀ x, s.operandOut = some x → exec .stor s = .fault (.outOfRange x)) ∧
    (s.twoOperands → a ∉ [Config.CO, Config.AU, Config.XO, Config.XS] →
      (s.inMemory a → exec .stor s = .next (s.afterStorePops.setCell a (s.popWord Config.DP 2#32))) ∧
      (¬ s.inMemory a → exec .stor s = .fault (.outOfRange a)))

/-- R210: a STOR to `CO` hands the low byte of the word to standard output and, but for the pops, writes no cell (R204).
That an intercepted store leaves the cell under the port, and the order of the two operands, are the spec's decisions D22
and D10. -/
def Obligations.StorToConsole : Prop :=
  ∀ s : State, s.Inv → s.twoOperands → s.topAddress = Config.CO →
    exec .stor s =
      .next (s.afterStorePops.told (.stdoutWrite ((s.popWord Config.DP 2#32).extractLsb' 0 8)))

/-- R301, through a STOR to `AU` (R211): the byte is stored at the cursor, which moves on, so the bytes accumulated grow by
one; with 8000 accumulated it is dropped without a trace. That the byte is the low byte of the word is decision D24 of the
spec. -/
def Obligations.StorToAudio : Prop :=
  ∀ s : State, s.Inv → s.twoOperands → s.topAddress = Config.AU →
    let b := (s.popWord Config.DP 2#32).extractLsb' 0 8
    (s.acur < 8000 →
      let t := { s.afterStorePops with abuf := s.abuf.setIfInBounds s.acur b, acur := s.acur + 1 }
      exec .stor s = .next t ∧ t.audioBytes = s.audioBytes ++ [b]) ∧
    (s.acur = 8000 → exec .stor s = .next s.afterStorePops)

/-- R213, R247: a STOR to `XO` hands the low byte to the write stream of the handle in `XA`; without one it is a
no-op. The low byte and the no-op are the spec's decision D24. -/
def Obligations.StorToExtData : Prop :=
  ∀ s : State, s.Inv → s.twoOperands → s.topAddress = Config.XO →
    (s.xaWriter = none → exec .stor s = .next s.afterStorePops) ∧
    (∀ w, s.xaWriter = some w →
      exec .stor s = .next (s.afterStorePops.told (.write w ((s.popWord Config.DP 2#32).extractLsb' 0 8))))

/-- R215, the spec's decision D4: a STOR to `XS` of a word that is no command does nothing but pop its operands. -/
def Obligations.StorOfUnknownCommand : Prop :=
  ∀ s : State, s.Inv → s.twoOperands → s.topAddress = Config.XS →
    s.popWord Config.DP 2#32 ∉ [0#32, 1#32, 2#32] → exec .stor s = .next s.afterStorePops

/-- R245: the close command. A handle in neither table: nothing. Else its streams are closed and taken out of both
tables, and `XA` becomes -1 exactly when the host reports a failure (details of the close: the spec's decision D25). -/
def Obligations.CloseDiscardsBothStreams : Prop :=
  ∀ s : State, s.Inv → s.twoOperands → s.topAddress = Config.XS → s.popWord Config.DP 2#32 = 0#32 →
    let p := s.afterStorePops
    (s.xaReader = none → s.xaWriter = none → exec .stor s = .next p) ∧
    (∀ h e, s.xaHandle = some h → s.xaReader = some e → s.xaWriter = none →
      let r := tapeNext (Config.closeAnswer e.stream) s.env.closes
      let u := p.told (.close e.stream)
      let v := { u with rd := tableErase s.rd h, env := { u.env with closes := r.2 } }
      exec .stor s = .next (if r.1 = .failure then v.setCell Config.XA 0xFFFFFFFF#32 else v)) ∧
    (∀ h w, s.xaHandle = some h → s.xaReader = none → s.xaWriter = some w →
      let r := tapeNext (Config.closeAnswer w) s.env.closes
      let u := p.told (.close w)
      let v := { u with wr := tableErase s.wr h, env := { u.env with closes := r.2 } }
      exec .stor s = .next (if r.1 = .failure then v.setCell Config.XA 0xFFFFFFFF#32 else v)) ∧
    (∀ h e w, s.xaHandle = some h → s.xaReader = some e → s.xaWriter = some w →
      let r := tapeNext (Config.closeAnswer e.stream) s.env.closes
      let r' := tapeNext (Config.closeAnswer w) r.2
      let u := (p.told (.close e.stream)).told (.close w)
      let v := { u with rd := tableErase s.rd h, wr := tableErase s.wr h, env := { u.env with closes := r'.2 } }
      exec .stor s =
        .next (if r.1 = .failure ∨ r'.1 = .failure then v.setCell Config.XA 0xFFFFFFFF#32 else v))

/-- R242, R243: open for reading. The path is the string at `XA`; success enters the stream under the next handle, with
nothing pushed back, and leaves the handle in `XA`; failure leaves -1 there and uses up no handle (the spec's decision
D25). A counter past 32 bits enters `XA` wrapped (log entry 19). -/
def Obligations.OpenReadAllocatesHandle : Prop :=
  ∀ s : State, s.Inv → s.twoOperands → s.topAddress = Config.XS → s.popWord Config.DP 2#32 = 1#32 →
    let p := s.afterStorePops
    let xa := (s.cell Config.XA).toInt
    ∀ path, 0 ≤ xa → p.pathAt xa path →
      let r := tapeNext (Config.openAnswer path) s.env.opens
      let u := p.told (.openRead path)
      let v := { u with env := { u.env with opens := r.2 } }
      (∀ n, r.1 = .opened n →
        exec .stor s = .next ({ v with rd := tableInsert s.rd s.nexth { stream := n, pushback := none },
                                       nexth := s.nexth + 1 }.setCell Config.XA (BitVec.ofNat 32 s.nexth))) ∧
      (r.1 = .failure → exec .stor s = .next (v.setCell Config.XA 0xFFFFFFFF#32))

/-- R244, R243: open for writing, with the same counter; the spec's decision D25 and log entry 19 as for reading. -/
def Obligations.OpenWriteAllocatesHandle : Prop :=
  ∀ s : State, s.Inv → s.twoOperands → s.topAddress = Config.XS → s.popWord Config.DP 2#32 = 2#32 →
    let p := s.afterStorePops
    let xa := (s.cell Config.XA).toInt
    ∀ path, 0 ≤ xa → p.pathAt xa path →
      let r := tapeNext (Config.openAnswer path) s.env.opens
      let u := p.told (.openWrite path)
      let v := { u with env := { u.env with opens := r.2 } }
      (∀ n, r.1 = .opened n →
        exec .stor s = .next ({ v with wr := tableInsert s.wr s.nexth n,
                                       nexth := s.nexth + 1 }.setCell Config.XA (BitVec.ofNat 32 s.nexth))) ∧
      (r.1 = .failure → exec .stor s = .next (v.setCell Config.XA 0xFFFFFFFF#32))

/-- R243, the spec's decision D25: a path address in `XA` that is negative faults both opens; from any other start there
is a path string. -/
def Obligations.PathStringExistsOrFaults : Prop :=
  (∀ s : State, s.Inv → s.twoOperands → s.topAddress = Config.XS →
    s.popWord Config.DP 2#32 ∈ [1#32, 2#32] → (s.cell Config.XA).toInt < 0 →
    exec .stor s = .fault (.outOfRange (s.cell Config.XA).toInt)) ∧
  (∀ (s : State) (a : Int), 0 ≤ a → ∃ path, s.pathAt a path)

/-! ## SYNC -/

/-- R262, R270 to R278, R280, R302: a frame-level SYNC with the raster vector zero draws every pixel as R278 says, flushes
the audio and returns to the host, which may then read this frame, and changes nothing else. The formulas of the pixels are the spec's decisions D19 to D21
and its derivation R278. -/
def Obligations.SyncDrawsStaticFrame : Prop :=
  ∀ s : State, s.Inv → s.phase = .run → s.cell Config.RV = 0#32 → (∀ y, y < 240 → s.scanlineReadable y) →
    ∃ t, exec .sync s = .next t ∧
      (∀ px y, px < 320 → y < 240 → t.pixel px y = s.finishedPixel px y) ∧
      t = { s.frameEnded with pixels := t.pixels } ∧ t.presented = some t.pixels

/-- R263, R317: a frame-level SYNC with the raster vector not zero pushes the program counter on the return stack, goes to
the raster vector, and the next SYNC draws scanline 0; nothing else changes. The pushed cell must lie in `M`. That fault
(R66), and the pointer updated before the cell (R8), are the spec's decisions D11 and D9. -/
def Obligations.SyncEntersRasterRoutine : Prop :=
  ∀ s : State, s.Inv → s.phase = .run → s.cell Config.RV ≠ 0#32 →
    (s.inMemory s.rp.toInt →
      exec .sync s =
        .next { (s.pushed Config.RP s.pc).setCell Config.PC (s.cell Config.RV) with phase := .scan 0 }) ∧
    (¬ s.inMemory s.rp.toInt → exec .sync s = .fault (.outOfRange s.rp.toInt))

/-- R264, R265, R278: a SYNC in phase SCAN(y) draws scanline `y` and no other; before the last scanline the phase goes on
to the next one and the host may read no pixel (R280); after scanline 239 the audio is flushed (decision D18) and the
invocation returns, and the host may read the frame. The formulas are the spec's decisions D19 to D21. -/
def Obligations.SyncDrawsOneScanline : Prop :=
  ∀ (s : State) (y : Fin 240), s.Inv → s.phase = .scan y → s.scanlineReadable y.val →
    ∃ t, exec .sync s = .next t ∧
      (∀ px, px < 320 → t.pixel px y.val = s.finishedPixel px y.val) ∧
      (∀ px y', y' ≠ y.val → t.pixel px y' = s.pixel px y') ∧
      (∀ h : y.val + 1 < 240,
        t = { s with pixels := t.pixels, phase := .scan ⟨y.val + 1, h⟩ } ∧ t.presented = none) ∧
      (y.val = 239 → t = { s.frameEnded with pixels := t.pixels } ∧ t.presented = some t.pixels)

/-- R262, R274, R66: a scanline that must read a cell outside `M` faults, even where the pixel would have been clipped (the
spec's decisions D11, D20 and D21): the scanline of a phase SCAN(y), and any of the 240 of a static frame. -/
def Obligations.SyncFaultsOnUnreadableScanline : Prop :=
  ∀ s : State, s.Inv →
    (∀ y : Fin 240, s.phase = .scan y → ¬ s.scanlineReadable y.val →
      ∃ a, ¬ s.inMemory a ∧ exec .sync s = .fault (.outOfRange a)) ∧
    (s.phase = .run → s.cell Config.RV = 0#32 → (∃ y, y < 240 ∧ ¬ s.scanlineReadable y) →
      ∃ a, ¬ s.inMemory a ∧ exec .sync s = .fault (.outOfRange a))

/-- R342: with the recommended launch premise (31 rows of the grid and every tile referred to in memory) a SYNC that draws
does not fault: the static frame is drawn whole and returns to the host, and a scanline SYNC draws its scanline, whatever
the scroll. The premise is the spec's own derivation, and the formulas its decisions D19 to D21. -/
def Obligations.LaunchPremiseMakesFrameReadable : Prop :=
  ∀ s : State, s.Inv → s.gridLaunchPremise →
    (s.phase = .run → s.cell Config.RV = 0#32 →
      ∃ t, exec .sync s = .next t ∧ t.phase = .idle ∧
        ∀ px y, px < 320 → y < 240 → t.pixel px y = s.finishedPixel px y) ∧
    (∀ y : Fin 240, s.phase = .scan y →
      ∃ t, exec .sync s = .next t ∧ ∀ px, px < 320 → t.pixel px y.val = s.finishedPixel px y.val)

/-! ## Steps -/

/-- R111 to R114, R264: inside an invocation, a program counter at an instruction makes the step the execution of that
instruction with the program counter moved past its opcode word. A program counter at its own cell is advanced before the
opcode is read (the spec's decision D9), so there the word fetched is 1, a CALL. -/
def Obligations.StepExecutesDecodedInstruction : Prop :=
  ∀ s : State, s.Inv → s.executing → s.inMemory s.pc.toInt →
    (s.pc ≠ 0#32 → ∀ i : Instr, decodeWord (s.cell s.pc.toInt) = some i →
      step s = exec i (s.boundaryPassed.setCell Config.PC (s.pc + 1#32))) ∧
    (s.pc = 0#32 → step s = exec .call (s.boundaryPassed.setCell Config.PC 1#32))

/-- R114, R116, R66: the halt test comes first and halts with nothing else done; any other program counter outside `M`
faults (the spec's decisions D3, D11, D16, D17). -/
def Obligations.StepTestsHaltThenRange : Prop :=
  ∀ s : State, s.Inv → s.executing →
    (s.pc = 0xFFFFFFFF#32 → step s = .next { s.boundaryPassed with phase := .halted }) ∧
    (s.pc ≠ 0xFFFFFFFF#32 → ¬ s.inMemory s.pc.toInt → step s = .fault (.outOfRange s.pc.toInt))

/-- R95, R113: a word that is no opcode faults with the word and its address, or is a one-word no-op, by the policy (the spec's decision D15). -/
def Obligations.StepOnIllegalWord : Prop :=
  ∀ s : State, s.Inv → s.executing → s.inMemory s.pc.toInt → decodeWord (s.cell s.pc.toInt) = none →
    (s.params.illegalOpcode = .fault → step s = .fault (.illegalOpcode (s.cell s.pc.toInt) s.pc)) ∧
    (s.params.illegalOpcode = .nop → step s = .next (s.boundaryPassed.setCell Config.PC (s.pc + 1#32)))

/-- R36, R116, R117, R118: between invocations the next step is the call of the frame-level entry point; in HALTED and
FAULT nobody steps, whatever the host would do (the spec's decisions D16, D32; log entries 10 and 13). -/
def Obligations.IdleInvokesAndTerminalPhasesStay : Prop :=
  (∀ s : State, s.phase = .idle → (s.env.moves = [] ∨ ∃ ms, s.env.moves = .goOn :: ms) →
    step s = .next { s.boundaryPassed with phase := .run }) ∧
  (∀ s : State, s.phase = .halted → step s = .refused .halted) ∧
  (∀ (s : State) (f : Fault), s.phase = .fault f → step s = .fault f)

/-- R33, R351: a key mutation of the host happens between steps, sets `keys` or appends to `keyq` and changes nothing
else; under `any_step_boundary` in every phase that is not terminal, under `idle_only` in IDLE alone (elsewhere it is no
move). The window is the spec's decision D27; that the host's moves stand in a list is log entry 10. -/
def Obligations.HostMutatesKeysInItsWindow : Prop :=
  ∀ (s : State) (ms : List HostMove), s.phase = .idle ∨ s.phase = .run ∨ (∃ y, s.phase = .scan y) →
    ((s.params.keyWindow = .anyStepBoundary ∨ s.phase = .idle) →
      (∀ w, s.env.moves = .setKeys w :: ms → step s = .next { s.withMoves ms with keys := w }) ∧
      (∀ c, s.env.moves = .press c :: ms → step s = .next { s.withMoves ms with keyq := s.keyq ++ [c] })) ∧
    (s.params.keyWindow = .idleOnly → s.phase ≠ .idle →
      (∀ w, s.env.moves = .setKeys w :: ms → step s = .refused .keyMoveOutsideWindow) ∧
      (∀ c, s.env.moves = .press c :: ms → step s = .refused .keyMoveOutsideWindow))

/-! ## Frames -/

/-- R170, R182, R30: what the arithmetic, logic and comparison instructions leave unchanged: everything but memory, and in
memory every cell but `DP` and the cell of the result. -/
def Obligations.ArithmeticFrame : Prop :=
  ∀ (i : Instr) (s t : State), i ∈ [.add, .sub, .mul, .div, .mod, .and, .or, .xor, .sgt, .slt, .not] → s.Inv →
    exec i s = .next t →
    t = { s with mem := t.mem } ∧
    ∀ a : Int, 0 ≤ a → a ≠ Config.DP → a ≠ (if i = .not then (s.dp - 1#32).toInt else (s.dp - 2#32).toInt) →
      t.cell a = s.cell a

/-- R130: what the stack instructions leave unchanged: everything but memory, and in memory every cell but the pointers
they move (and `PC` for CONST) and the cells they push to. SWAP's two cells are those of its operands, or the cell its
overwritten pointer names. -/
def Obligations.StackFrame : Prop :=
  ∀ (i : Instr) (s t : State), i ∈ [.const, .drop, .swap, .dup, .ovr, .str, .rts] → s.Inv → exec i s = .next t →
    t = { s with mem := t.mem } ∧
    ∀ a : Int, 0 ≤ a → a ≠ Config.DP →
      (i = .const → a ≠ Config.PC ∧ a ≠ s.dp.toInt) → (i = .dup ∨ i = .ovr ∨ i = .rts → a ≠ s.dp.toInt) →
      (i = .str ∨ i = .rts → a ≠ Config.RP) → (i = .str → a ≠ s.rp.toInt) →
      (i = .swap → a ≠ (s.dp - 2#32).toInt ∧ a ≠ (s.afterBinary (s.popWord Config.DP 1#32)).dp.toInt) →
      t.cell a = s.cell a

/-- R150: what the control transfers leave unchanged: everything but memory, and in memory every cell but `PC`, the
pointer they move, CALL's pushed cell and NEXT's counter. -/
def Obligations.ControlFrame : Prop :=
  ∀ (i : Instr) (s t : State), i ∈ [.call, .jump, .jumpz, .jumpif, .ret, .next] → s.Inv → exec i s = .next t →
    t = { s with mem := t.mem } ∧
    ∀ a : Int, 0 ≤ a → a ≠ Config.PC → (i = .jumpz ∨ i = .jumpif → a ≠ Config.DP) →
      (i = .call ∨ i = .ret → a ≠ Config.RP) → (i = .call → a ≠ s.rp.toInt) →
      (i = .next → a ≠ (s.rp - 1#32).toInt) → t.cell a = s.cell a

/-- R203, R204, R65: what LOAD and STOR leave unchanged. No port writes a cell: a LOAD writes only the cell of its result,
a STOR only `DP` and, when its address is no intercepted port, that address; a command to `XS` may also write `XA`. A
LOAD changes no table but the pushback of the handle in `XA`, a STOR no key state. -/
def Obligations.LoadAndStorFrame : Prop :=
  (∀ s t : State, s.Inv → exec .load s = .next t →
    t = { s with mem := t.mem, keyq := t.keyq, rd := t.rd, env := t.env } ∧
    (∀ a : Int, 0 ≤ a → a ≠ (s.dp - 1#32).toInt → t.cell a = s.cell a) ∧
    (s.topAddress ≠ Config.KB → t.keyq = s.keyq) ∧ (s.topAddress ≠ Config.XO → t.rd = s.rd) ∧
    (∀ h, some h ≠ s.xaHandle → tableFind t.rd h = tableFind s.rd h)) ∧
  (∀ s t : State, s.Inv → exec .stor s = .next t →
    t = { s with mem := t.mem, abuf := t.abuf, acur := t.acur, rd := t.rd, wr := t.wr, nexth := t.nexth,
                 env := t.env } ∧
    (∀ a : Int, 0 ≤ a → a ≠ Config.DP →
      (s.topAddress ∉ [Config.CO, Config.AU, Config.XO, Config.XS] → a ≠ s.topAddress) →
      (s.topAddress = Config.XS → a ≠ Config.XA) → t.cell a = s.cell a) ∧
    (s.topAddress ≠ Config.AU → t.abuf = s.abuf ∧ t.acur = s.acur) ∧
    (s.topAddress ≠ Config.XS → t.rd = s.rd ∧ t.wr = s.wr ∧ t.nexth = s.nexth))

/-- R31, R270, R276: what SYNC leaves unchanged: devices' key state and streams always; memory too, unless it enters the
per-scanline routine, which writes `PC`, `RP` and the pushed cell. -/
def Obligations.SyncFrame : Prop :=
  ∀ s t : State, s.Inv → exec .sync s = .next t →
    t = { s with mem := t.mem, pixels := t.pixels, acur := t.acur, phase := t.phase, env := t.env } ∧
    (s.phase ≠ .run ∨ s.cell Config.RV = 0#32 → t.mem = s.mem) ∧
    (s.phase = .run → s.cell Config.RV ≠ 0#32 → t.pixels = s.pixels ∧ t.acur = s.acur ∧ t.env = s.env ∧
      ∀ a : Int, 0 ≤ a → a ≠ Config.PC → a ≠ Config.RP → a ≠ s.rp.toInt → t.cell a = s.cell a)

/-! ## The whole machine -/

/-- R38, R280: a machine right after construction, with any image of a size the spec allows (R5, decision D33), has the
phase IDLE, an empty audio buffer, no keys, no streams, the first handle to give, no frame to present, and satisfies the
invariant: the spec's decision D26, but for the counter and the frame. `State.reset` is such a machine. (Which image it has
is the model's choice, log entries 2 to 4, and no part of this.) -/
def Obligations.ResetState : Prop :=
  (∀ policy window image, 20 ≤ image.length → image.length ≤ 2147483648 →
    let s := State.construct policy window image
    s.phase = .idle ∧ s.acur = 0 ∧ s.keys = 0#32 ∧ s.keyq = [] ∧ s.rd = [] ∧ s.wr = [] ∧ s.nexth = 1 ∧
    s.presented = none ∧ s.Inv ∧ s.handlesApart) ∧
  (∃ policy window image, 20 ≤ image.length ∧ image.length ≤ 2147483648 ∧
    State.reset = State.construct policy window image) ∧
  State.reset.Inv ∧ State.reset.handlesApart

/-- R341: construction takes one argument, main memory with its image, copies nothing and checks nothing: whatever list of
words it is, `MEM_WORDS` is its length, every cell holds the image's word, the registers in cells 0 to 19 included, and no
word stands anywhere else. -/
def Obligations.ConstructionTakesTheImage : Prop :=
  ∀ policy window (image : List Word),
    let s := State.construct policy window image
    s.params.memWords = image.length ∧
    (∀ a : Nat, a < image.length → s.inMemory a ∧ image[a]? = some (s.cell a)) ∧
    ∀ c ∈ s.mem, c.1 < image.length

/-- R21, R32, R34, R37: every step keeps the invariant: memory stays canonical and inside its bounds, the audio cursor
inside the buffer, every handle below the counter; and the configuration never changes. -/
def Obligations.StepKeepsInvariant : Prop :=
  ∀ s t : State, s.Inv → step s = .next t → t.Inv ∧ t.params = s.params

/-- R248, the resolution of conflict C4: no handle ever owns both a read and a write stream. -/
def Obligations.StepKeepsHandlesApart : Prop :=
  ∀ s t : State, s.Inv → s.handlesApart → step s = .next t → t.handlesApart

/-- R248: the handle counter starts at 1; a step leaves it, or moves it on by one, and then the handle it stood at has an
entry in exactly one of the two tables; every other handle in a table after a step was there before, so none is reused. -/
def Obligations.HandlesAreNeverReused : Prop :=
  (∀ policy window image, (State.construct policy window image).nexth = 1) ∧
  ∀ s t : State, s.Inv → step s = .next t →
    (t.nexth = s.nexth ∨ t.nexth = s.nexth + 1 ∧
      ((tableFind t.rd s.nexth ≠ none ∧ tableFind t.wr s.nexth = none) ∨
        (tableFind t.rd s.nexth = none ∧ tableFind t.wr s.nexth ≠ none))) ∧
    ∀ h : Nat, (tableFind t.rd h ≠ none → tableFind s.rd h ≠ none ∨ (h = s.nexth ∧ t.nexth = s.nexth + 1)) ∧
      (tableFind t.wr h ≠ none → tableFind s.wr h ≠ none ∨ (h = s.nexth ∧ t.nexth = s.nexth + 1))

/-- R31, R36, R115, R119: only SYNC writes the pixel buffer or moves the phase: every other instruction leaves both as
they are. -/
def Obligations.OnlySyncDrawsOrMovesThePhase : Prop :=
  ∀ (i : Instr) (s t : State), i ≠ .sync → s.Inv → exec i s = .next t → t.pixels = s.pixels ∧ t.phase = s.phase

/-- R33, R351: the core never writes `keys` and never appends to `keyq`; under `idle_only` the bitmask is constant through
an invocation and the queue only shrinks. -/
def Obligations.KeyStateBelongsToHost : Prop :=
  (∀ (i : Instr) (s t : State), s.Inv → exec i s = .next t →
    t.keys = s.keys ∧ (t.keyq = s.keyq ∨ ∃ c, s.keyq = c :: t.keyq)) ∧
  (∀ s t : State, s.Inv → s.params.keyWindow = .idleOnly → s.phase ≠ .idle → step s = .next t →
    t.keys = s.keys ∧ t.keyq <:+ s.keyq)

/-- R70, R210: what was handed to the host stays handed over: a step only adds transactions after those before it. -/
def Obligations.TransactionsOnlyGrow : Prop :=
  ∀ s t : State, s.Inv → step s = .next t → s.env.sent <+: t.env.sent
end

