-- ==== Sys2Proof/Laws/Table.lean ====
section
/-! SUPPORT. Laws of the finite maps: what a lookup gives after an insertion or a removal, that both keep the keys
sorted, and that two sorted maps with the same lookups are the same list. -/

namespace Sys2Proof.Machine

variable {α : Type}

@[simp] theorem tableFind_nil (a : Nat) : tableFind ([] : Table α) a = none := rfl

theorem tableFind_cons (k : Nat) (v : α) (t : Table α) (a : Nat) :
    tableFind ((k, v) :: t) a = if a = k then some v else tableFind t a := rfl

theorem tableFind_insert (t : Table α) (a b : Nat) (v : α) :
    tableFind (tableInsert t a v) b = if b = a then some v else tableFind t b := by
  induction t with
  | nil => simp [tableInsert, tableFind_cons]
  | cons c t ih =>
    obtain ⟨k, w⟩ := c
    simp only [tableInsert]
    split
    · simp [tableFind_cons]
    · split
      · subst_vars
        simp only [tableFind_cons]
        split <;> rfl
      · rename_i h1 h2
        simp only [tableFind_cons, ih]
        by_cases hbk : b = k
        · have : b ≠ a := by omega
          simp [hbk]; omega
        · simp [hbk]

theorem tableFind_erase (t : Table α) (a b : Nat) :
    tableFind (tableErase t a) b = if b = a then none else tableFind t b := by
  induction t with
  | nil => simp [tableErase]
  | cons c t ih =>
    obtain ⟨k, w⟩ := c
    simp only [tableErase, List.filter_cons] at ih ⊢
    by_cases hk : k = a
    · simp only [hk, bne_self_eq_false, Bool.false_eq_true, if_false, ih, tableFind_cons]
      split <;> rfl
    · simp only [bne_iff_ne, ne_eq, hk, not_false_eq_true, if_true, tableFind_cons, ih]
      by_cases hb : b = k
      · have : b ≠ a := by omega
        simp [hb, hk]
      · simp [hb]

theorem mem_tableInsert {t : Table α} {a : Nat} {v : α} {c : Nat × α} (h : c ∈ tableInsert t a v) :
    c = (a, v) ∨ c ∈ t := by
  induction t with
  | nil => simp only [tableInsert, List.mem_singleton] at h; exact .inl h
  | cons d t ih =>
    obtain ⟨k, w⟩ := d
    simp only [tableInsert] at h
    split at h
    · exact List.mem_cons.mp h
    · split at h
      · rcases List.mem_cons.mp h with h | h
        · exact .inl h
        · exact .inr (List.mem_cons_of_mem _ h)
      · rcases List.mem_cons.mp h with h | h
        · exact .inr (h ▸ List.mem_cons_self)
        · exact (ih h).imp id (List.mem_cons_of_mem _)

theorem mem_tableErase {t : Table α} {a : Nat} {c : Nat × α} (h : c ∈ tableErase t a) : c ∈ t :=
  (List.mem_filter.mp h).1

theorem tableInsert_wf {t : Table α} {a : Nat} {v : α} (h : tableWf t) : tableWf (tableInsert t a v) := by
  induction t with
  | nil => simp [tableInsert]
  | cons d t ih =>
    obtain ⟨k, w⟩ := d
    obtain ⟨hk, ht⟩ := List.pairwise_cons.mp h
    simp only [tableInsert]
    split
    · refine List.pairwise_cons.mpr ⟨fun c hc => ?_, h⟩
      rcases List.mem_cons.mp hc with rfl | hc
      · assumption
      · have := hk c hc; simp only at this ⊢; omega
    · split
      · subst_vars
        exact List.pairwise_cons.mpr ⟨hk, ht⟩
      · refine List.pairwise_cons.mpr ⟨fun c hc => ?_, ih ht⟩
        rcases mem_tableInsert hc with rfl | hc
        · simp only; omega
        · exact hk c hc

theorem tableErase_wf {t : Table α} {a : Nat} (h : tableWf t) : tableWf (tableErase t a) :=
  h.sublist List.filter_sublist

/-- A key that is looked up with success is an entry. -/
theorem mem_of_tableFind {t : Table α} {a : Nat} {v : α} (h : tableFind t a = some v) : (a, v) ∈ t := by
  induction t with
  | nil => simp at h
  | cons c t ih =>
    obtain ⟨k, w⟩ := c
    rw [tableFind_cons] at h
    split at h
    · simp_all
    · exact List.mem_cons_of_mem _ (ih h)

/-- In a sorted map every entry is what the lookup of its key gives. -/
theorem tableFind_of_mem {t : Table α} (hw : tableWf t) {c : Nat × α} (h : c ∈ t) : tableFind t c.1 = some c.2 := by
  induction t with
  | nil => simp at h
  | cons d t ih =>
    obtain ⟨k, w⟩ := d
    obtain ⟨hk, ht⟩ := List.pairwise_cons.mp hw
    rw [tableFind_cons]
    rcases List.mem_cons.mp h with rfl | h
    · simp
    · have := hk c h
      simp only at this
      rw [if_neg (by omega)]
      exact ih ht h

/-- Below the first key nothing is found. -/
theorem tableFind_below {k : Nat} {w : α} {t : Table α} (hw : tableWf ((k, w) :: t)) {a : Nat} (h : a < k) :
    tableFind ((k, w) :: t) a = none := by
  cases hf : tableFind ((k, w) :: t) a with
  | none => rfl
  | some v =>
    rcases List.mem_cons.mp (mem_of_tableFind hf) with he | he
    · simp_all
    · have := (List.pairwise_cons.mp hw).1 _ he
      simp only at this
      omega

/-! ## A list laid out as a map -/

theorem mem_tableOfList [DecidableEq α] {blank : α} {a : Nat} {vs : List α} {c : Nat × α}
    (h : c ∈ tableOfList blank a vs) : a ≤ c.1 ∧ c.1 < a + vs.length ∧ c.2 ≠ blank := by
  induction vs generalizing a with
  | nil => simp [tableOfList] at h
  | cons v vs ih =>
    have step : c ∈ tableOfList blank (a + 1) vs → a ≤ c.1 ∧ c.1 < a + (v :: vs).length ∧ c.2 ≠ blank := fun hd => by
      obtain ⟨h1, h2, h3⟩ := ih hd
      rw [List.length_cons]
      exact ⟨by omega, by omega, h3⟩
    rw [tableOfList] at h
    split at h
    · exact step h
    · rename_i hv
      rcases List.mem_cons.mp h with rfl | h
      · exact ⟨Nat.le_refl _, by rw [List.length_cons]; omega, hv⟩
      · exact step h

theorem tableOfList_wf [DecidableEq α] (blank : α) (a : Nat) (vs : List α) : tableWf (tableOfList blank a vs) := by
  induction vs generalizing a with
  | nil => exact List.Pairwise.nil
  | cons v vs ih =>
    rw [tableOfList]
    split
    · exact ih (a + 1)
    · exact List.pairwise_cons.mpr ⟨fun c hc => (mem_tableOfList hc).1, ih (a + 1)⟩

/-- What stands at a key is the list's value there, if it is not the blank one. -/
theorem tableFind_ofList [DecidableEq α] (blank : α) (a : Nat) (vs : List α) (i : Nat) :
    (tableFind (tableOfList blank a vs) (a + i)).getD blank = (vs[i]?).getD blank := by
  induction vs generalizing a i with
  | nil => rfl
  | cons v vs ih =>
    have below : tableFind (tableOfList blank (a + 1) vs) a = none := by
      cases hf : tableFind (tableOfList blank (a + 1) vs) a with
      | none => rfl
      | some w => exact absurd (mem_tableOfList (mem_of_tableFind hf)).1 (Nat.not_succ_le_self a)
    rw [tableOfList]
    cases i with
    | zero =>
      split
      · rename_i hv
        change (tableFind (tableOfList blank (a + 1) vs) a).getD blank = v
        rw [below, hv]
        rfl
      · simp [tableFind_cons]
    | succ i =>
      have := ih (a + 1) i
      rw [show a + 1 + i = a + (i + 1) by omega] at this
      split
      · simpa using this
      · rw [tableFind_cons, if_neg (by omega)]
        simpa using this

/-- Two sorted maps with the same lookups are the same list. -/
theorem table_ext {t u : Table α} (ht : tableWf t) (hu : tableWf u)
    (h : ∀ a, tableFind t a = tableFind u a) : t = u := by
  induction t generalizing u with
  | nil =>
    cases u with
    | nil => rfl
    | cons d u => obtain ⟨k, w⟩ := d; have := h k; simp [tableFind_cons] at this
  | cons c t ih =>
    obtain ⟨k, v⟩ := c
    cases u with
    | nil => have := h k; simp [tableFind_cons] at this
    | cons d u =>
      obtain ⟨l, w⟩ := d
      have hkl : k = l := by
        rcases Nat.lt_trichotomy k l with hlt | heq | hgt
        · have h1 := h k
          rw [tableFind_below hu hlt] at h1
          simp [tableFind_cons] at h1
        · exact heq
        · have h1 := h l
          rw [tableFind_below ht hgt] at h1
          simp [tableFind_cons] at h1
      subst hkl
      have hv : v = w := by have := h k; simpa [tableFind_cons] using this
      subst hv
      refine congrArg _ (ih (List.pairwise_cons.mp ht).2 (List.pairwise_cons.mp hu).2 fun a => ?_)
      by_cases hak : a = k
      · have h1 : ∀ {x : Table α}, tableWf ((k, v) :: x) → tableFind x k = none := by
          intro x hx
          cases hf : tableFind x k with
          | none => rfl
          | some y =>
            have := (List.pairwise_cons.mp hx).1 _ (mem_of_tableFind hf)
            simp at this
        subst hak
        rw [h1 ht, h1 hu]
      · have := h a
        simpa [tableFind_cons, hak] using this

end Sys2Proof.Machine
end

