-- ==== Sys2Proof/Laws/Memory.lean ====
section
/-! SUPPORT. Laws of main memory: read after write, the canonical form is kept, equal reads are equal data. -/

namespace Sys2Proof.Machine

@[simp] theorem Memory.read_write (m : Memory) (a b : Nat) (v : Word) :
    (m.write a v).read b = if b = a then v else m.read b := by
  unfold Memory.write Memory.read
  split
  · rw [tableFind_erase]; split <;> simp_all
  · rw [tableFind_insert]; split <;> simp_all

theorem Memory.write_wf {m : Memory} {a : Nat} {v : Word} (h : m.wf) : (m.write a v).wf := by
  unfold Memory.write
  split
  · exact ⟨tableErase_wf h.1, fun c hc => h.2 c (mem_tableErase hc)⟩
  · refine ⟨tableInsert_wf h.1, fun c hc => ?_⟩
    rcases mem_tableInsert hc with rfl | hc
    · assumption
    · exact h.2 c hc

/-- Every listed cell stays within a bound that the written address respects. -/
theorem Memory.write_bounded {m : Memory} {n a : Nat} {v : Word} (h : ∀ c ∈ m, c.1 < n) (ha : a < n) :
    ∀ c ∈ m.write a v, c.1 < n := by
  intro c hc
  unfold Memory.write at hc
  split at hc
  · exact h c (mem_tableErase hc)
  · rcases mem_tableInsert hc with rfl | hc
    · exact ha
    · exact h c hc

/-- Canonical memories that read alike everywhere are the same data. -/
theorem Memory.ext {m k : Memory} (hm : m.wf) (hk : k.wf) (h : ∀ a, m.read a = k.read a) : m = k := by
  refine table_ext hm.1 hk.1 fun a => ?_
  have ha := h a
  unfold Memory.read at ha
  cases h1 : tableFind m a with
  | none =>
    cases h2 : tableFind k a with
    | none => rfl
    | some w =>
      have := hk.2 _ (mem_of_tableFind h2)
      simp_all
  | some v =>
    cases h2 : tableFind k a with
    | none =>
      have := hm.2 _ (mem_of_tableFind h1)
      simp_all
    | some w => simp_all

theorem Memory.write_write {m : Memory} (h : m.wf) (a : Nat) (v w : Word) : (m.write a v).write a w = m.write a w := by
  refine Memory.ext (write_wf (write_wf h)) (write_wf h) fun b => ?_
  simp only [read_write]
  split <;> rfl

theorem Memory.write_read {m : Memory} (h : m.wf) (a : Nat) : m.write a (m.read a) = m := by
  refine Memory.ext (write_wf h) h fun b => ?_
  simp only [read_write]
  split <;> simp_all

theorem Memory.write_comm {m : Memory} (h : m.wf) {a b : Nat} (hab : a ≠ b) (v w : Word) :
    (m.write a v).write b w = (m.write b w).write a v := by
  refine Memory.ext (write_wf (write_wf h)) (write_wf (write_wf h)) fun c => ?_
  simp only [read_write]
  split <;> split <;> first | rfl | omega

/-! ## An image as main memory (R341) -/

theorem Memory.ofImage_wf (image : List Word) : Memory.wf (tableOfList Config.unlistedCell 0 image) :=
  ⟨tableOfList_wf _ _ _, fun _ hc => (mem_tableOfList hc).2.2⟩

theorem Memory.ofImage_bounded {image : List Word} {c : Nat × Word} (hc : c ∈ tableOfList Config.unlistedCell 0 image) :
    c.1 < image.length := by
  simpa using (mem_tableOfList hc).2.1

theorem Memory.read_ofImage (image : List Word) (a : Nat) :
    Memory.read (tableOfList Config.unlistedCell 0 image) a = (image[a]?).getD Config.unlistedCell := by
  simpa [Memory.read] using tableFind_ofList Config.unlistedCell 0 image a

/-- The reset state is the construction with the image its docstring names, and with the spec's default policies. -/
theorem State.reset_eq_construct :
    State.reset =
      State.construct .fault .anyStepBoundary ([20#32, 100#32, 110#32] ++ List.replicate 125 0#32) := by
  have hm : tableOfList Config.unlistedCell 0 ([20#32, 100#32, 110#32] ++ List.replicate 125 0#32) =
      [(0, 20#32), (1, 100#32), (2, 110#32)] := by decide +kernel
  have hl : ([20#32, 100#32, 110#32] ++ List.replicate 125 (0#32 : Word)).length = Config.resetMemWords := by
    simp only [List.length_append, List.length_replicate, List.length_cons, List.length_nil]
  rw [State.construct, hm, hl]
  rfl

/-- The memory of the reset state is in canonical form. -/
theorem State.reset_mem_wf : State.reset.mem.wf := by decide

/-- A raw write keeps the canonical form, and a faulting one leaves the memory as it was (R66). -/
theorem memWrite_mem_wf {s : State} {a : Int} {v : Word} (h : s.mem.wf) : (stateLeft (memWrite a v) s).mem.wf := by
  unfold stateLeft memWrite
  by_cases ha : s.inMemory a
  · rw [if_pos ha]
    exact Memory.write_wf h
  · rw [if_neg ha]
    exact h

end Sys2Proof.Machine
end

