-- ==== Sys2Proof/Laws/State.lean ====
section
/-! SUPPORT. What each update of the state does to each field, and to a cell; all but the last group are true by rfl. -/

namespace Sys2Proof.Machine

variable (s : State) (a b : Int) (v w : Word)

/-! ## setCell -/

@[simp] theorem State.setCell_params : (s.setCell a v).params = s.params := rfl
@[simp] theorem State.setCell_mem : (s.setCell a v).mem = s.mem.write a.toNat v := rfl
@[simp] theorem State.setCell_pixels : (s.setCell a v).pixels = s.pixels := rfl
@[simp] theorem State.setCell_abuf : (s.setCell a v).abuf = s.abuf := rfl
@[simp] theorem State.setCell_acur : (s.setCell a v).acur = s.acur := rfl
@[simp] theorem State.setCell_keys : (s.setCell a v).keys = s.keys := rfl
@[simp] theorem State.setCell_keyq : (s.setCell a v).keyq = s.keyq := rfl
@[simp] theorem State.setCell_rd : (s.setCell a v).rd = s.rd := rfl
@[simp] theorem State.setCell_wr : (s.setCell a v).wr = s.wr := rfl
@[simp] theorem State.setCell_nexth : (s.setCell a v).nexth = s.nexth := rfl
@[simp] theorem State.setCell_phase : (s.setCell a v).phase = s.phase := rfl
@[simp] theorem State.setCell_env : (s.setCell a v).env = s.env := rfl

/-! ## setRow -/

variable (y : Nat) (row : Row)

@[simp] theorem State.setRow_params : (s.setRow y row).params = s.params := rfl
@[simp] theorem State.setRow_mem : (s.setRow y row).mem = s.mem := rfl
@[simp] theorem State.setRow_pixels : (s.setRow y row).pixels = s.pixels.setIfInBounds y row := rfl
@[simp] theorem State.setRow_abuf : (s.setRow y row).abuf = s.abuf := rfl
@[simp] theorem State.setRow_acur : (s.setRow y row).acur = s.acur := rfl
@[simp] theorem State.setRow_keys : (s.setRow y row).keys = s.keys := rfl
@[simp] theorem State.setRow_keyq : (s.setRow y row).keyq = s.keyq := rfl
@[simp] theorem State.setRow_rd : (s.setRow y row).rd = s.rd := rfl
@[simp] theorem State.setRow_wr : (s.setRow y row).wr = s.wr := rfl
@[simp] theorem State.setRow_nexth : (s.setRow y row).nexth = s.nexth := rfl
@[simp] theorem State.setRow_phase : (s.setRow y row).phase = s.phase := rfl
@[simp] theorem State.setRow_env : (s.setRow y row).env = s.env := rfl

/-! ## withMoves and told -/

variable (ms : List HostMove) (c : HostCall)

@[simp] theorem State.withMoves_params : (s.withMoves ms).params = s.params := rfl
@[simp] theorem State.withMoves_mem : (s.withMoves ms).mem = s.mem := rfl
@[simp] theorem State.withMoves_pixels : (s.withMoves ms).pixels = s.pixels := rfl
@[simp] theorem State.withMoves_abuf : (s.withMoves ms).abuf = s.abuf := rfl
@[simp] theorem State.withMoves_acur : (s.withMoves ms).acur = s.acur := rfl
@[simp] theorem State.withMoves_keys : (s.withMoves ms).keys = s.keys := rfl
@[simp] theorem State.withMoves_keyq : (s.withMoves ms).keyq = s.keyq := rfl
@[simp] theorem State.withMoves_rd : (s.withMoves ms).rd = s.rd := rfl
@[simp] theorem State.withMoves_wr : (s.withMoves ms).wr = s.wr := rfl
@[simp] theorem State.withMoves_nexth : (s.withMoves ms).nexth = s.nexth := rfl
@[simp] theorem State.withMoves_phase : (s.withMoves ms).phase = s.phase := rfl
@[simp] theorem State.withMoves_moves : (s.withMoves ms).env.moves = ms := rfl
@[simp] theorem State.withMoves_sent : (s.withMoves ms).env.sent = s.env.sent := rfl

@[simp] theorem State.told_params : (s.told c).params = s.params := rfl
@[simp] theorem State.told_mem : (s.told c).mem = s.mem := rfl
@[simp] theorem State.told_pixels : (s.told c).pixels = s.pixels := rfl
@[simp] theorem State.told_abuf : (s.told c).abuf = s.abuf := rfl
@[simp] theorem State.told_acur : (s.told c).acur = s.acur := rfl
@[simp] theorem State.told_keys : (s.told c).keys = s.keys := rfl
@[simp] theorem State.told_keyq : (s.told c).keyq = s.keyq := rfl
@[simp] theorem State.told_rd : (s.told c).rd = s.rd := rfl
@[simp] theorem State.told_wr : (s.told c).wr = s.wr := rfl
@[simp] theorem State.told_nexth : (s.told c).nexth = s.nexth := rfl
@[simp] theorem State.told_phase : (s.told c).phase = s.phase := rfl
@[simp] theorem State.told_moves : (s.told c).env.moves = s.env.moves := rfl
@[simp] theorem State.told_sent : (s.told c).env.sent = s.env.sent ++ [c] := rfl

/-! ## askedRead, and the end of a frame -/

variable (n : Nat)

@[simp] theorem State.askedRead_params : (s.askedRead n).params = s.params := rfl
@[simp] theorem State.askedRead_mem : (s.askedRead n).mem = s.mem := rfl
@[simp] theorem State.askedRead_rd : (s.askedRead n).rd = s.rd := rfl
@[simp] theorem State.askedRead_frames : (s.askedRead n).env.frames = s.env.frames := rfl

@[simp] theorem State.frameEnded_phase : s.frameEnded.phase = .idle := rfl
@[simp] theorem State.frameEnded_frames : s.frameEnded.env.frames = s.env.frames + 1 := rfl
@[simp] theorem State.frameEnded_presented : s.frameEnded.presented = some s.frameEnded.pixels :=
  if_pos ⟨rfl, Nat.succ_pos _⟩

/-- Inside an invocation and after the end of the run the host reads no pixel (R280). -/
theorem State.presented_none {s : State} (h : s.phase ≠ .idle) : s.presented = none := if_neg fun hp => h hp.1

/-! ## Cells and the range check through an update -/

@[simp] theorem State.setCell_inMemory : (s.setCell a v).inMemory b ↔ s.inMemory b := Iff.rfl
@[simp] theorem State.setRow_inMemory : (s.setRow y row).inMemory b ↔ s.inMemory b := Iff.rfl
@[simp] theorem State.withMoves_inMemory : (s.withMoves ms).inMemory b ↔ s.inMemory b := Iff.rfl
@[simp] theorem State.told_inMemory : (s.told c).inMemory b ↔ s.inMemory b := Iff.rfl
@[simp] theorem State.setRow_cell : (s.setRow y row).cell b = s.cell b := rfl
@[simp] theorem State.withMoves_cell : (s.withMoves ms).cell b = s.cell b := rfl
@[simp] theorem State.told_cell : (s.told c).cell b = s.cell b := rfl

/-- A cell after a write, for addresses that are not negative. -/
theorem State.cell_setCell {s : State} {a b : Int} (ha : 0 ≤ a) (hb : 0 ≤ b) (v : Word) :
    (s.setCell a v).cell b = if b = a then v else s.cell b := by
  unfold State.cell
  rw [State.setCell_mem, Memory.read_write]
  by_cases h : b = a
  · simp [h]
  · rw [if_neg (by omega), if_neg h]

theorem State.cell_setCell_same {s : State} (a : Int) (v : Word) : (s.setCell a v).cell a = v := by
  simp [State.cell]

theorem State.cell_setCell_other {s : State} {a b : Int} (ha : 0 ≤ a) (hb : 0 ≤ b) (h : b ≠ a) (v : Word) :
    (s.setCell a v).cell b = s.cell b := by
  rw [State.cell_setCell ha hb, if_neg h]

/-- The second of two writes to one cell is the one that stays. -/
theorem State.setCell_setCell {s : State} (h : s.mem.wf) (a : Int) (v w : Word) :
    (s.setCell a v).setCell a w = s.setCell a w := by
  simp [State.setCell, Memory.write_write h]

/-- Writing what a cell holds changes nothing. -/
theorem State.setCell_cell {s : State} (h : s.mem.wf) (a : Int) : s.setCell a (s.cell a) = s := by
  simp [State.setCell, State.cell, Memory.write_read h]

theorem State.setCell_comm {s : State} (h : s.mem.wf) {a b : Int} (ha : 0 ≤ a) (hb : 0 ≤ b) (hab : a ≠ b) (v w : Word) :
    (s.setCell a v).setCell b w = (s.setCell b w).setCell a v := by
  simp [State.setCell, Memory.write_comm h (show a.toNat ≠ b.toNat by omega)]

/-- Writing a cell in range keeps the invariant. -/
theorem State.setCell_inv {s : State} (h : s.Inv) {a : Int} (ha : s.inMemory a) (v : Word) : (s.setCell a v).Inv := by
  obtain ⟨hp, ⟨hw, hb⟩, hr⟩ := h
  obtain ⟨h0, h1⟩ := ha
  exact ⟨hp, ⟨Memory.write_wf hw, Memory.write_bounded hb (n := s.params.memWords) (by omega)⟩, hr⟩

/-- The registers and port cells are in memory (R5: `RESERVED_HEADER <= MEM_WORDS`). -/
theorem State.Inv.reg_inMemory {s : State} (h : s.Inv) {i : Int} (h0 : 0 ≤ i) (h1 : i < 20) : s.inMemory i := by
  have := h.1.1
  exact ⟨h0, by omega⟩

/-! ## Only memory differs -/

/-- Everything but main memory is the same. -/
def State.MemOnly (s t : State) : Prop := t = { s with mem := t.mem }

theorem State.MemOnly.refl (s : State) : s.MemOnly s := rfl

theorem State.MemOnly.trans {s t u : State} (h : s.MemOnly t) (k : t.MemOnly u) : s.MemOnly u := by
  unfold State.MemOnly at *
  rw [k, h]

theorem State.memOnly_setCell (s : State) (a : Int) (v : Word) : s.MemOnly (s.setCell a v) := rfl

theorem State.memOnly_pushed (s : State) (ptr : Int) (v : Word) : s.MemOnly (s.pushed ptr v) :=
  (s.memOnly_setCell _ _).trans (State.memOnly_setCell _ _ _)

theorem State.memOnly_afterBinary (s : State) (v : Word) : s.MemOnly (s.afterBinary v) :=
  (s.memOnly_setCell _ _).trans (State.memOnly_setCell _ _ _)

/-- A cell after a push: only the pointer and the pushed cell change (R8). -/
theorem State.cell_pushed {s : State} {ptr a : Int} (hp : 0 ≤ ptr) (ht : 0 ≤ (s.cell ptr).toInt) (ha : 0 ≤ a)
    (h1 : a ≠ ptr) (h2 : a ≠ (s.cell ptr).toInt) (v : Word) : (s.pushed ptr v).cell a = s.cell a := by
  rw [State.pushed, State.cell_setCell_other ht ha h2, State.cell_setCell_other hp ha h1]

end Sys2Proof.Machine
end

