-- ==== Sys2Proof/Laws/Ops.lean ====
section
/-! SUPPORT. One lemma per shared operation over memory, registers and stacks, saying everything it can do; callers cite
it and never unfold the operation. -/

namespace Sys2Proof.Machine

variable {α β : Type} {s t : State}

/-! ## Sequencing -/

theorem op_pure (a : α) (s : State) : (pure a : Op α) s = .ok a s := rfl

theorem op_bind (x : Op α) (f : α → Op β) (s : State) :
    (x >>= f) s = match x s with
      | .ok a t => f a t
      | .error e t => .error e t := by
  change EStateM.bind x f s = _
  unfold EStateM.bind
  cases x s <;> rfl

theorem op_bind_ok {x : Op α} {f : α → Op β} {a : α} (h : x s = .ok a t) : (x >>= f) s = f a t := by
  rw [op_bind, h]

theorem op_bind_error {x : Op α} {f : α → Op β} {e : Fault} (h : x s = .error e t) : (x >>= f) s = .error e t := by
  rw [op_bind, h]

/-- A block that ends in a value went through its first statement. -/
theorem op_bind_inv {x : Op α} {f : α → Op β} {b : β} {u : State} (h : (x >>= f) s = .ok b u) :
    ∃ a t, x s = .ok a t ∧ f a t = .ok b u := by
  rw [op_bind] at h
  cases hx : x s with
  | ok a t => rw [hx] at h; exact ⟨a, t, rfl, h⟩
  | error e t => rw [hx] at h; cases h

@[simp] theorem op_get (s : State) : (get : Op State) s = .ok s s := rfl
@[simp] theorem op_modify (f : State → State) (s : State) : (modify f : Op Unit) s = .ok () (f s) := rfl
@[simp] theorem op_raise (f : Fault) (s : State) : (raise f : Op α) s = .error f { s with phase := .fault f } := rfl
@[simp] theorem op_setPhase (p : Phase) (s : State) : setPhase p s = .ok () { s with phase := p } := rfl
@[simp] theorem op_memWords (s : State) : memWords s = .ok s.params.memWords s := rfl

theorem run_ok {op : Op Unit} {u : Unit} (h : op s = .ok u t) : run op s = .next t := by
  simp [run, h]

theorem run_error {op : Op Unit} {f : Fault} (h : op s = .error f t) : run op s = .fault f := by
  simp [run, h]

theorem run_next_iff {op : Op Unit} : run op s = .next t ↔ op s = .ok () t := by
  unfold run
  cases op s with
  | ok a u => simp
  | error f u => simp

theorem run_not_refused {op : Op Unit} {r : Refusal} : run op s ≠ .refused r := by
  unfold run
  cases op s <;> simp

/-! ## Memory and registers -/

theorem memRead_ok {a : Int} (h : s.inMemory a) : memRead a s = .ok (s.cell a) s := by
  simp [memRead, h]

theorem memRead_out {a : Int} (h : ¬ s.inMemory a) :
    memRead a s = .error (.outOfRange a) { s with phase := .fault (.outOfRange a) } := by
  simp only [memRead, if_neg h, op_raise]

theorem memWrite_ok {a : Int} {v : Word} (h : s.inMemory a) : memWrite a v s = .ok () (s.setCell a v) := by
  simp [memWrite, h]

theorem memWrite_out {a : Int} {v : Word} (h : ¬ s.inMemory a) :
    memWrite a v s = .error (.outOfRange a) { s with phase := .fault (.outOfRange a) } := by
  simp only [memWrite, if_neg h, op_raise]

/-- A raw read that gives a value gave the cell, and changed nothing. -/
theorem memRead_inv {a : Int} {v : Word} (h : memRead a s = .ok v t) : s.inMemory a ∧ v = s.cell a ∧ t = s := by
  by_cases ha : s.inMemory a
  · rw [memRead_ok ha] at h
    cases h
    exact ⟨ha, rfl, rfl⟩
  · rw [memRead_out ha] at h
    cases h

/-- A raw write that succeeds wrote one cell. -/
theorem memWrite_inv {a : Int} {v : Word} {u : Unit} (h : memWrite a v s = .ok u t) :
    s.inMemory a ∧ t = s.setCell a v := by
  by_cases ha : s.inMemory a
  · rw [memWrite_ok ha] at h
    cases h
    exact ⟨ha, rfl⟩
  · rw [memWrite_out ha] at h
    cases h

theorem reg_ok {i : Int} (h : s.inMemory i) : reg i s = .ok (s.cell i) s := memRead_ok h
theorem setReg_ok {i : Int} {v : Word} (h : s.inMemory i) : setReg i v s = .ok () (s.setCell i v) := memWrite_ok h
theorem reg_inv {i : Int} {v : Word} (h : reg i s = .ok v t) : s.inMemory i ∧ v = s.cell i ∧ t = s := memRead_inv h
theorem setReg_inv {i : Int} {v : Word} {u : Unit} (h : setReg i v s = .ok u t) : s.inMemory i ∧ t = s.setCell i v :=
  memWrite_inv h

/-! ## The stacks -/

theorem pushAt_ok {ptr : Int} {v : Word} (hp : s.inMemory ptr) (ht : s.inMemory (s.cell ptr).toInt) :
    pushAt ptr v s = .ok () (s.pushed ptr v) := by
  have ht' : (s.setCell ptr (s.cell ptr + 1#32)).inMemory (s.cell ptr).toInt := ht
  simp only [pushAt, reg, setReg, op_bind, memRead_ok hp, memWrite_ok hp, memWrite_ok ht']
  rfl

theorem pushAt_inv {ptr : Int} {v : Word} {u : Unit} (h : pushAt ptr v s = .ok u t) :
    s.inMemory ptr ∧ s.inMemory (s.cell ptr).toInt ∧ t = s.pushed ptr v := by
  obtain ⟨p, s1, h1, h⟩ := op_bind_inv h
  obtain ⟨hp, rfl, rfl⟩ := memRead_inv h1
  obtain ⟨u, s2, h2, h⟩ := op_bind_inv h
  obtain ⟨-, rfl⟩ := memWrite_inv h2
  obtain ⟨ht, rfl⟩ := memWrite_inv h
  exact ⟨hp, ht, rfl⟩

/-- What the pop through `ptr` leaves: the pointer one lower. -/
def State.popped (s : State) (ptr : Int) : State := s.setCell ptr (s.cell ptr - 1#32)

theorem State.popped_cell {ptr : Int} (hp : 0 ≤ ptr) (ht : 0 ≤ (s.cell ptr - 1#32).toInt) :
    (s.popped ptr).cell (s.cell ptr - 1#32).toInt = s.popWord ptr 1#32 := by
  rw [State.popped, State.cell_setCell hp ht, State.popWord]

theorem popAt_ok {ptr : Int} (hp : s.inMemory ptr) (ht : s.inMemory (s.cell ptr - 1#32).toInt) :
    popAt ptr s = .ok (s.popWord ptr 1#32) (s.popped ptr) := by
  have ht' : (s.popped ptr).inMemory (s.cell ptr - 1#32).toInt := ht
  rw [← State.popped_cell hp.1 ht.1]
  simp only [popAt, reg, setReg, op_bind, memRead_ok hp, memWrite_ok hp]
  exact memRead_ok ht'

/-- A pop whose cell is out of range faults, the pointer having been lowered. -/
theorem popAt_out {ptr : Int} (hp : s.inMemory ptr) (ht : ¬ s.inMemory (s.cell ptr - 1#32).toInt) :
    popAt ptr s = .error (.outOfRange (s.cell ptr - 1#32).toInt)
      { s.popped ptr with phase := .fault (.outOfRange (s.cell ptr - 1#32).toInt) } := by
  have ht' : ¬ (s.popped ptr).inMemory (s.cell ptr - 1#32).toInt := ht
  simp only [popAt, reg, setReg, op_bind, memRead_ok hp, memWrite_ok hp]
  exact memRead_out ht'

theorem popAt_inv {ptr : Int} {v : Word} (h : popAt ptr s = .ok v t) :
    s.inMemory ptr ∧ s.inMemory (s.cell ptr - 1#32).toInt ∧ v = s.popWord ptr 1#32 ∧ t = s.popped ptr := by
  by_cases hp : s.inMemory ptr
  · by_cases ht : s.inMemory (s.cell ptr - 1#32).toInt
    · rw [popAt_ok hp ht] at h
      cases h
      exact ⟨hp, ht, rfl, rfl⟩
    · rw [popAt_out hp ht] at h
      cases h
  · simp only [popAt, reg, op_bind, memRead_out hp] at h
    cases h

/-- The register just written reads as the word written. -/
theorem State.popped_ptr (ptr : Int) : (s.popped ptr).cell ptr = s.cell ptr - 1#32 := State.cell_setCell_same ..

/-- Two pops in a row, as one change of the pointer. -/
theorem State.popped_popped (h : s.mem.wf) (ptr : Int) :
    (s.popped ptr).popped ptr = s.setCell ptr (s.cell ptr - 2#32) := by
  unfold State.popped
  rw [State.cell_setCell_same, State.setCell_setCell h, BitVec.sub_sub]
  rfl

/-- The second word popped. -/
theorem State.popped_popWord {ptr : Int} (hp : 0 ≤ ptr) (ht : 0 ≤ (s.cell ptr - 2#32).toInt) :
    (s.popped ptr).popWord ptr 1#32 = s.popWord ptr 2#32 := by
  have e : s.cell ptr - 1#32 - 1#32 = s.cell ptr - 2#32 := by rw [BitVec.sub_sub]; rfl
  unfold State.popWord
  rw [State.popped_ptr, e]
  split
  · rfl
  · rename_i hne
    exact State.cell_setCell_other hp ht hne _

/-- Two pops, then a push through the same pointer: the shape of every binary instruction (R170). -/
theorem State.pops_pushed (h : s.mem.wf) (ptr : Int) (v : Word) :
    ((s.popped ptr).popped ptr).pushed ptr v =
      (s.setCell ptr (s.cell ptr - 1#32)).setCell (s.cell ptr - 2#32).toInt v := by
  have e : s.cell ptr - 2#32 + 1#32 = s.cell ptr - 1#32 := by bv_omega
  rw [State.popped_popped h, State.pushed, State.cell_setCell_same, State.setCell_setCell h, e]

/-- Two pops in a row with both cells in memory (R170). -/
theorem pop_pop_ok {f : Word → Word → Op α} (hi : s.Inv) (h : s.twoOperands) :
    (do let a ← pop
        let b ← pop
        f a b : Op α) s =
      f (s.popWord Config.DP 1#32) (s.popWord Config.DP 2#32) (s.setCell Config.DP (s.dp - 2#32)) := by
  have hd : s.inMemory Config.DP := hi.reg_inMemory (by decide) (by decide)
  have e : (s.popped Config.DP).cell Config.DP - 1#32 = s.dp - 2#32 := by
    rw [State.popped_ptr, BitVec.sub_sub]; rfl
  have h2 : (s.popped Config.DP).inMemory ((s.popped Config.DP).cell Config.DP - 1#32).toInt := by
    rw [e]; exact h.2
  unfold pop
  rw [op_bind_ok (popAt_ok hd h.1), op_bind_ok (popAt_ok (s := s.popped Config.DP) hd h2),
    State.popped_popWord (by decide) h.2.1, State.popped_popped hi.2.1.1]

/-- A push after two pops puts the result in the second operand's cell (R170). -/
theorem push_after_pops (hi : s.Inv) (h : s.twoOperands) (v : Word) :
    push v (s.setCell Config.DP (s.dp - 2#32)) = .ok () (s.afterBinary v) := by
  have hd : s.inMemory Config.DP := hi.reg_inMemory (by decide) (by decide)
  rw [push, pushAt_ok (s := s.setCell Config.DP (s.dp - 2#32)) hd (by rw [State.cell_setCell_same]; exact h.2)]
  exact congrArg _ ((State.popped_popped hi.2.1.1 Config.DP ▸ State.pops_pushed hi.2.1.1 Config.DP v :))

/-- A push after one pop puts the word in the popped word's cell: the shape of LOAD and NOT (R201, R179). -/
theorem push_after_pop (hw : s.mem.wf) (hd : s.inMemory Config.DP) (h : s.inMemory (s.dp - 1#32).toInt) (v : Word) :
    push v (s.popped Config.DP) = .ok () (s.afterLoad v) := by
  have e : s.cell Config.DP - 1#32 + 1#32 = s.cell Config.DP := by bv_omega
  rw [push, pushAt_ok (s := s.popped Config.DP) hd (by rw [State.popped_ptr]; exact h), State.pushed, State.popped_ptr, e,
    State.popped, State.setCell_setCell hw, State.setCell_cell hw]
  rfl

/-! ## Where the stacks leave memory -/

/-- A push to a cell out of range faults, the pointer having been raised (R8). -/
theorem pushAt_out {ptr : Int} {v : Word} (hp : s.inMemory ptr) (ht : ¬ s.inMemory (s.cell ptr).toInt) :
    ∃ t, pushAt ptr v s = .error (.outOfRange (s.cell ptr).toInt) t := by
  have ht' : ¬ (s.setCell ptr (s.cell ptr + 1#32)).inMemory (s.cell ptr).toInt := ht
  rw [pushAt, op_bind_ok (reg_ok hp), op_bind_ok (setReg_ok hp)]
  exact ⟨_, memWrite_out ht'⟩

/-- Two pops of which one leaves memory (R170). -/
theorem pop_pop_out {f : Word → Word → Op α} (hi : s.Inv) {x : Int} (h : s.operandOut = some x) :
    ∃ t, (do let a ← pop
             let b ← pop
             f a b : Op α) s = .error (.outOfRange x) t := by
  have hd : s.inMemory Config.DP := hi.reg_inMemory (by decide) (by decide)
  have e : (s.popped Config.DP).cell Config.DP - 1#32 = s.dp - 2#32 := by
    rw [State.popped_ptr, BitVec.sub_sub]
    rfl
  unfold State.operandOut at h
  by_cases h1 : s.inMemory (s.dp - 1#32).toInt
  · by_cases h2 : s.inMemory (s.dp - 2#32).toInt
    · rw [if_pos h1, if_pos h2] at h
      cases h
    · rw [if_pos h1, if_neg h2] at h
      cases h
      have h2' : ¬ (s.popped Config.DP).inMemory ((s.popped Config.DP).cell Config.DP - 1#32).toInt := by
        rw [e]
        exact h2
      have hp := popAt_out (s := s.popped Config.DP) hd h2'
      rw [e] at hp
      unfold pop
      rw [op_bind_ok (popAt_ok hd h1)]
      exact ⟨_, op_bind_error hp⟩
  · rw [if_neg h1] at h
    cases h
    unfold pop
    exact ⟨_, op_bind_error (popAt_out hd h1)⟩

end Sys2Proof.Machine
end

