-- ==== Sys2Proof/Laws/Engine.lean ====
section
/-! SUPPORT. What the operand forms do: one lemma per form. -/

namespace Sys2Proof.Machine

variable {s t : State}

theorem binary_ok (hi : s.Inv) (h : s.twoOperands) (f : Word → Word → Word) :
    binary f s = .ok () (s.afterBinary (f (s.popWord Config.DP 2#32) (s.popWord Config.DP 1#32))) := by
  rw [binary, pop_pop_ok hi h, push_after_pops hi h]

theorem dividing_ok (hi : s.Inv) (h : s.twoOperands) (ha : s.popWord Config.DP 1#32 ≠ 0#32) (f : Word → Word → Word) :
    dividing f s = .ok () (s.afterBinary (f (s.popWord Config.DP 2#32) (s.popWord Config.DP 1#32))) := by
  rw [dividing, pop_pop_ok hi h, if_neg ha, push_after_pops hi h]

theorem dividing_zero (hi : s.Inv) (h : s.twoOperands) (ha : s.popWord Config.DP 1#32 = 0#32) (f : Word → Word → Word) :
    dividing f s = .error (.divideByZero (s.popWord Config.DP 2#32))
      { s.setCell Config.DP (s.dp - 2#32) with phase := .fault (.divideByZero (s.popWord Config.DP 2#32)) } := by
  rw [dividing, pop_pop_ok hi h, if_pos ha, op_raise]

theorem binary_out (hi : s.Inv) {x : Int} (h : s.operandOut = some x) (f : Word → Word → Word) :
    ∃ t, binary f s = .error (.outOfRange x) t := pop_pop_out hi h

theorem dividing_out (hi : s.Inv) {x : Int} (h : s.operandOut = some x) (f : Word → Word → Word) :
    ∃ t, dividing f s = .error (.outOfRange x) t := pop_pop_out hi h

theorem operand_ok (h0 : s.inMemory Config.PC) (h : s.inMemory s.pc.toInt) : operand s = .ok (s.cell s.pc.toInt) s := by
  rw [operand, op_bind_ok (reg_ok h0)]
  exact memRead_ok h

theorem operand_out (h0 : s.inMemory Config.PC) (h : ¬ s.inMemory s.pc.toInt) :
    ∃ t, operand s = .error (.outOfRange s.pc.toInt) t := by
  rw [operand, op_bind_ok (reg_ok h0)]
  exact ⟨_, memRead_out h⟩

theorem afterOperand_ok (h0 : s.inMemory Config.PC) : afterOperand s = .ok (s.pc + 1#32) s := by
  rw [afterOperand, op_bind_ok (reg_ok h0)]
  rfl

theorem branchTarget_taken (h0 : s.inMemory Config.PC) (h : s.inMemory s.pc.toInt) {c : Bool} (hc : c = true) :
    branchTarget c s = .ok (s.cell s.pc.toInt) s := by
  rw [branchTarget, if_pos hc, operand_ok h0 h]

theorem branchTarget_not_taken (h0 : s.inMemory Config.PC) {c : Bool} (hc : c = false) :
    branchTarget c s = .ok (s.pc + 1#32) s := by
  rw [branchTarget, if_neg (by simp [hc]), afterOperand_ok h0]

theorem decrementCell_ok {a : Int} (h : s.inMemory a) :
    decrementCell a s = .ok (s.cell a - 1#32) (s.setCell a (s.cell a - 1#32)) := by
  rw [decrementCell, op_bind_ok (memRead_ok h), op_bind_ok (memWrite_ok h), op_pure]

theorem toInt_eq_zero_iff (w : Word) : w.toInt = 0 ↔ w = 0#32 :=
  ⟨fun h => BitVec.eq_of_toInt_eq h, fun h => h ▸ rfl⟩

/-- The operand of CONST; at address 0 it is the program counter just advanced (R131). -/
theorem constOperand_ok (h0 : s.inMemory Config.PC) (h : s.inMemory s.pc.toInt) :
    constOperand s = .ok (if s.pc = 0#32 then 1#32 else s.cell s.pc.toInt) (s.setCell Config.PC (s.pc + 1#32)) := by
  have e : (s.setCell Config.PC (s.pc + 1#32)).cell s.pc.toInt = if s.pc = 0#32 then 1#32 else s.cell s.pc.toInt := by
    rw [State.cell_setCell (by decide) h.1]
    by_cases hp : s.pc = 0#32
    · simp [hp]
    · rw [if_neg hp, if_neg (by rwa [toInt_eq_zero_iff])]
  rw [constOperand, op_bind_ok (reg_ok h0), op_bind_ok (setReg_ok h0), ← e]
  exact memRead_ok (s := s.setCell Config.PC (s.pc + 1#32)) h

end Sys2Proof.Machine
end

