-- ==== Sys2Proof/Laws/Ports.lean ====
section
/-! SUPPORT. LOAD and STOR around the port table: which arm of the table an address takes, and the shape of the two
instructions whatever the port does. -/

namespace Sys2Proof.Machine

variable {s u : State}

/-- A LOAD whose port gives `v` and leaves `u`, the pop being done on both sides (R201). -/
theorem execLoad_next (hi : s.Inv) (h : s.inMemory (s.dp - 1#32).toInt) {v : Word} (hw : u.mem = s.mem)
    (hp : u.params = s.params)
    (hl : portLoad (s.popWord Config.DP 1#32) (s.popped Config.DP) = .ok v (u.popped Config.DP)) :
    exec .load s = .next (u.afterLoad v) := by
  have hd : s.inMemory Config.DP := hi.reg_inMemory (by decide) (by decide)
  have hc : ∀ a, u.cell a = s.cell a := fun a => by simp [State.cell, hw]
  have hm : ∀ a, u.inMemory a ↔ s.inMemory a := fun a => by simp [State.inMemory, hp]
  refine run_ok (u := ()) ?_
  rw [opLoad, pop, op_bind_ok (popAt_ok hd h), op_bind_ok hl]
  refine push_after_pop (s := u) (hw ▸ hi.2.1.1) ((hm _).2 hd) ?_ v
  rw [hm, State.dp, hc]
  exact h

/-- A LOAD whose port faults (R201). -/
theorem execLoad_fault (hi : s.Inv) (h : s.inMemory (s.dp - 1#32).toInt) {f : Fault}
    (hl : portLoad (s.popWord Config.DP 1#32) (s.popped Config.DP) = .error f u) : exec .load s = .fault f := by
  have hd : s.inMemory Config.DP := hi.reg_inMemory (by decide) (by decide)
  refine run_error (t := u) ?_
  rw [opLoad, pop, op_bind_ok (popAt_ok hd h), op_bind_error hl]

/-- A STOR is two pops and the store (R205). -/
theorem execStor_eq (hi : s.Inv) (h : s.twoOperands) :
    exec .stor s = run (portStore (s.popWord Config.DP 1#32) (s.popWord Config.DP 2#32)) s.afterStorePops := by
  change run opStor s = _
  unfold run
  rw [opStor, pop_pop_ok hi h]
  rfl

/-! ## The arms of the two tables (R203, R204) -/

variable {addr v : Word}

theorem portLoad_random (h : addr.toInt = Config.RN) : portLoad addr = loadRandom := by simp [portLoad, h]
theorem portLoad_keyMask (h : addr.toInt = Config.KY) : portLoad addr = loadKeyMask := by simp [portLoad, h]
theorem portLoad_keyQueue (h : addr.toInt = Config.KB) : portLoad addr = loadKeyQueue := by simp [portLoad, h]
theorem portLoad_console (h : addr.toInt = Config.CO) : portLoad addr = loadConsole := by simp [portLoad, h]
theorem portLoad_extData (h : addr.toInt = Config.XO) : portLoad addr = loadExtData := by simp [portLoad, h]
theorem portLoad_extStatus (h : addr.toInt = Config.XS) : portLoad addr = loadExtStatus := by simp [portLoad, h]

theorem portLoad_plain
    (h : addr.toInt ∉ [Config.RN, Config.KY, Config.CO, Config.KB, Config.XO, Config.XS]) :
    portLoad addr = memRead addr.toInt := by
  simp only [List.mem_cons, List.not_mem_nil, or_false, not_or] at h
  simp [portLoad, h]

theorem portStore_console (h : addr.toInt = Config.CO) : portStore addr v = storeConsole v := by simp [portStore, h]
theorem portStore_audio (h : addr.toInt = Config.AU) : portStore addr v = storeAudio v := by simp [portStore, h]
theorem portStore_extData (h : addr.toInt = Config.XO) : portStore addr v = storeExtData v := by simp [portStore, h]
theorem portStore_extStatus (h : addr.toInt = Config.XS) : portStore addr v = storeExtStatus v := by simp [portStore, h]

theorem portStore_plain (h : addr.toInt ∉ [Config.CO, Config.AU, Config.XO, Config.XS]) :
    portStore addr v = memWrite addr.toInt v := by
  simp only [List.mem_cons, List.not_mem_nil, or_false, not_or] at h
  simp [portStore, h]

end Sys2Proof.Machine
end

