-- ==== Sys2Proof/Laws/FilePort.lean ====
section
/-! SUPPORT. The file port: what each piece of a command or of a byte access does in a state `t` that has the streams
and the register `XA` of `s` (which the pops before it do not change). -/

namespace Sys2Proof.Machine

variable {t : State}

/-! ## `XA` and the handle in it -/

theorem State.popped_xa (s : State) : (s.popped Config.DP).cell Config.XA = s.cell Config.XA :=
  State.cell_setCell_other (by decide) (by decide) (by decide) _

theorem State.afterStorePops_xa (s : State) : s.afterStorePops.cell Config.XA = s.cell Config.XA :=
  State.cell_setCell_other (by decide) (by decide) (by decide) _

theorem handle_of_xaHandle {s : State} {h : Nat} (e : s.xaHandle = some h) : (s.cell Config.XA).toInt.toNat = h := by
  unfold State.xaHandle at e
  split at e <;> simp_all

theorem readStream_ok (s : State) (hrd : t.rd = s.rd) : readStream (s.cell Config.XA) t = .ok s.xaReader t := by
  unfold readStream State.xaReader State.xaHandle handleOf
  rw [hrd]

theorem writeStream_ok (s : State) (hwr : t.wr = s.wr) : writeStream (s.cell Config.XA) t = .ok s.xaWriter t := by
  unfold writeStream State.xaWriter State.xaHandle handleOf
  rw [hwr]

/-- A statement first, then the rest of a block. -/
theorem run_bind {α : Type} {x : Op α} {f : α → Op Unit} {s : State} {a : α} (h : x s = .ok a t) :
    run (x >>= f) s = run (f a) t := by
  simp only [run, op_bind_ok h]

/-! ## Byte access -/

/-- A LOAD of `XO` reads a byte for the handle in `XA` (R212). -/
theorem loadExtData_eq (s : State) (hi : s.Inv) (hp : t.params = s.params) (hm : t.cell Config.XA = s.cell Config.XA) :
    loadExtData t = fileReadByte (s.cell Config.XA) t := by
  have h17 : t.inMemory Config.XA := by
    have := hi.reg_inMemory (i := Config.XA) (by decide) (by decide)
    simpa [State.inMemory, hp] using this
  rw [loadExtData, op_bind_ok (reg_ok h17), hm]

theorem portLoad_fileReadByte {s : State} (hi : s.Inv) {addr : Word} (ha : addr.toInt = Config.XO) :
    portLoad addr (s.popped Config.DP) = fileReadByte (s.cell Config.XA) (s.popped Config.DP) := by
  rw [portLoad_extData ha, loadExtData_eq (t := s.popped Config.DP) s hi rfl s.popped_xa]

theorem fileReadByte_none (s : State) (hrd : t.rd = s.rd) (hn : s.xaReader = none) :
    fileReadByte (s.cell Config.XA) t = .ok Config.minusOne t := by
  rw [fileReadByte, op_bind_ok (readStream_ok s hrd), hn]
  rfl

/-- What a byte access gives once the next byte of the stream is known (R246). -/
def afterNextByte (w : Word) (e : ReadStream) : ReadAnswer → Op Word
  | .failure => pure Config.minusOne
  | .eof => pure Config.minusOne
  | .byte b => if b = Config.carriageReturn then afterCarriageReturn w e else pure (byteWord b)

/-- A byte access through a stream: the next byte, then what depends on it (R246). -/
theorem fileReadByte_some (s : State) (hrd : t.rd = s.rd) {e : ReadStream} (he : s.xaReader = some e) {r : ReadAnswer}
    {u : State} (hr : nextByte (s.cell Config.XA) e t = .ok r u) :
    fileReadByte (s.cell Config.XA) t = afterNextByte (s.cell Config.XA) e r u := by
  rw [fileReadByte, op_bind_ok (readStream_ok s hrd), he]
  dsimp only
  rw [op_bind_ok hr]
  cases r <;> rfl

theorem nextByte_pushback {s : State} {h : Nat} (hh : s.xaHandle = some h) {e : ReadStream} {b : Byte}
    (hb : e.pushback = some b) :
    nextByte (s.cell Config.XA) e t =
      .ok (.byte b) { t with rd := tableInsert t.rd h { e with pushback := none } } := by
  rw [nextByte, hb, ← handle_of_xaHandle hh]
  rfl

theorem nextByte_host (w : Word) {e : ReadStream} (hb : e.pushback = none) :
    nextByte w e t = .ok (tapeNext (Config.readAnswer e.stream) t.env.reads).1 (t.askedRead e.stream) := by
  rw [nextByte, hb]
  rfl

/-! ## Close -/

theorem closeRead_none (s : State) (hrd : t.rd = s.rd) (hn : s.xaReader = none) :
    closeRead (s.cell Config.XA) t = .ok false t := by
  rw [closeRead, op_bind_ok (readStream_ok s hrd), hn]
  rfl

theorem closeWrite_none (s : State) (hwr : t.wr = s.wr) (hn : s.xaWriter = none) :
    closeWrite (s.cell Config.XA) t = .ok false t := by
  rw [closeWrite, op_bind_ok (writeStream_ok s hwr), hn]
  rfl

theorem closeRead_some (s : State) (hrd : t.rd = s.rd) {h : Nat} {e : ReadStream} (hh : s.xaHandle = some h)
    (he : s.xaReader = some e) :
    closeRead (s.cell Config.XA) t =
      let r := tapeNext (Config.closeAnswer e.stream) t.env.closes
      .ok (r.1 == .failure)
        { t with rd := tableErase s.rd h,
                 env := { t.env with sent := t.env.sent ++ [.close e.stream], closes := r.2 } } := by
  rw [closeRead, op_bind_ok (readStream_ok s hrd), he, ← handle_of_xaHandle hh, ← hrd]
  rfl

theorem closeWrite_some (s : State) (hwr : t.wr = s.wr) {h w : Nat} (hh : s.xaHandle = some h)
    (he : s.xaWriter = some w) :
    closeWrite (s.cell Config.XA) t =
      let r := tapeNext (Config.closeAnswer w) t.env.closes
      .ok (r.1 == .failure)
        { t with wr := tableErase s.wr h,
                 env := { t.env with sent := t.env.sent ++ [.close w], closes := r.2 } } := by
  rw [closeWrite, op_bind_ok (writeStream_ok s hwr), he, ← handle_of_xaHandle hh, ← hwr]
  rfl

/-! ## Path strings -/

theorem stringFrom_length_le (m : Memory) (n a : Nat) : (stringFrom m n a).length ≤ n := by
  induction n generalizing a with
  | zero => simp [stringFrom]
  | succ n ih =>
    unfold stringFrom
    split
    · simp
    · have := ih (a + 1); simp; omega

/-- Every cell of a path string is the one at its place, and is not zero. -/
theorem stringFrom_get (m : Memory) (n a i : Nat) (h : i < (stringFrom m n a).length) :
    (stringFrom m n a)[i]? = some (m.read (a + i)) ∧ m.read (a + i) ≠ 0#32 := by
  induction n generalizing a i with
  | zero => simp [stringFrom] at h
  | succ n ih =>
    unfold stringFrom at h ⊢
    split at h
    · simp at h
    · rename_i hz
      rw [if_neg hz]
      cases i with
      | zero => simp [hz]
      | succ i =>
        have := ih (a + 1) i (by simpa using h)
        rw [show a + 1 + i = a + (i + 1) by omega] at this
        simpa using this

/-- A path string shorter than the room to the end of memory stops at a zero cell. -/
theorem stringFrom_stop (m : Memory) (n a : Nat) (h : (stringFrom m n a).length < n) :
    m.read (a + (stringFrom m n a).length) = 0#32 := by
  induction n generalizing a with
  | zero => omega
  | succ n ih =>
    unfold stringFrom at h ⊢
    split
    · simpa
    · rename_i hz
      rw [if_neg hz] at h
      have := ih (a + 1) (by simpa using h)
      simpa [Nat.add_assoc, Nat.add_comm 1] using this

/-- A list of nonzero cells that stops where the path string must stop is the path string. -/
theorem stringFrom_unique (m : Memory) (n a : Nat) (p : List Word) (hl : p.length ≤ n)
    (hc : ∀ i, i < p.length → p[i]? = some (m.read (a + i)) ∧ m.read (a + i) ≠ 0#32)
    (hs : p.length < n → m.read (a + p.length) = 0#32) : stringFrom m n a = p := by
  induction n generalizing a p with
  | zero => simpa [stringFrom] using hl
  | succ n ih =>
    unfold stringFrom
    cases p with
    | nil => simp at hs; simp [hs]
    | cons w p =>
      have h0 := hc 0 (by simp)
      simp at h0
      rw [if_neg h0.2, ← h0.1, ih (a + 1) p (by simpa using hl)]
      · intro i hi
        have := hc (i + 1) (by simpa using hi)
        rw [show a + (i + 1) = a + 1 + i by omega] at this
        simpa using this
      · intro hn
        have := hs (by simpa using hn)
        rw [show a + (w :: p).length = a + 1 + p.length by simp; omega] at this
        exact this

/-- `ReadString` at an address that is not negative gives the path string there (R243). -/
theorem readString_ok {a : Int} (ha : 0 ≤ a) {path : List Word} (h : t.pathAt a path) :
    readString a t = .ok path t := by
  rw [readString, if_neg (by omega)]
  congr 1
  obtain ⟨h1, h2⟩ := h
  have key : ∀ i : Nat, (a + i).toNat = a.toNat + i := by omega
  have hlen : path.length ≤ t.params.memWords - a.toNat := by
    by_contra hc
    have := (h1 (t.params.memWords - a.toNat) (by omega)).1.2
    omega
  refine stringFrom_unique _ _ _ _ hlen (fun i hi => ?_) (fun hlt => ?_)
  · have := h1 i hi
    simp only [State.cell, key] at this
    exact this.2
  · have := h2 ⟨by omega, by omega⟩
    simpa only [State.cell, key] using this

/-- From every address that is not negative there is a path string. -/
theorem pathAt_stringFrom {a : Int} (ha : 0 ≤ a) :
    t.pathAt a (stringFrom t.mem (t.params.memWords - a.toNat) a.toNat) := by
  have key : ∀ i : Nat, (a + i).toNat = a.toNat + i := by omega
  have hl := stringFrom_length_le t.mem (t.params.memWords - a.toNat) a.toNat
  refine ⟨fun i hi => ⟨⟨by omega, by omega⟩, ?_⟩, fun hin => ?_⟩
  · simp only [State.cell, key]
    exact stringFrom_get _ _ _ _ hi
  · simp only [State.cell, key]
    refine stringFrom_stop _ _ _ ?_
    have := hin.2
    omega

end Sys2Proof.Machine
end

