-- ==== Sys2Proof/Laws/Raster.lean ====
section
/-! SUPPORT. The draw of one scanline, pixel by pixel: what each piece needs to be readable, what it paints where, and
that it faults out of range exactly when something it needs is not readable. -/

namespace Sys2Proof.Machine

variable {α : Type} {s : State}

/-- Pixel `px` of a row. -/
abbrev Row.px (row : Row) (px : Nat) : Word := row[px]?.getD 0#32

/-- A piece of the draw that needs `A`: with `A` it ends in a value and paints `p px` where that is a word, leaving the
other pixels; without `A` it faults at an address outside `M`. -/
def Paints (s : State) (f : RowOp Unit) (A : Prop) (p : Nat → Option Word) : Prop :=
  ∀ row : Row,
    (A → ∃ row', f row = .ok () row' ∧ ∀ px, px < 320 → row'.px px = (p px).getD (row.px px)) ∧
    (¬ A → ∃ a row', f row = .error (.outOfRange a) row' ∧ ¬ s.inMemory a)

theorem rowOp_bind (x : RowOp α) (f : α → RowOp Unit) (row : Row) :
    (x >>= f) row = match x row with
      | .ok a r => f a r
      | .error e r => .error e r := by
  change EStateM.bind x f row = _
  unfold EStateM.bind
  cases x row <;> rfl

theorem rowOp_bind_ok {x : RowOp α} {f : α → RowOp Unit} {row r : Row} {a : α} (h : x row = .ok a r) :
    (x >>= f) row = f a r := by
  rw [rowOp_bind, h]

theorem rowOp_bind_error {x : RowOp α} {f : α → RowOp Unit} {row r : Row} {e : Fault} (h : x row = .error e r) :
    (x >>= f) row = .error e r := by
  rw [rowOp_bind, h]

theorem Paints.congr {f : RowOp Unit} {A B : Prop} {p q : Nat → Option Word} (h : Paints s f A p) (hA : A ↔ B)
    (hp : A → ∀ px, px < 320 → p px = q px) : Paints s f B q := by
  intro row
  refine ⟨fun hb => ?_, fun hb => (h row).2 (mt hA.1 hb)⟩
  obtain ⟨r, h1, h2⟩ := (h row).1 (hA.2 hb)
  exact ⟨r, h1, fun px hx => by rw [h2 px hx, hp (hA.2 hb) px hx]⟩

theorem paints_pure : Paints s (pure ()) True (fun _ => none) :=
  fun row => ⟨fun _ => ⟨row, rfl, fun _ _ => rfl⟩, fun h => absurd trivial h⟩

/-- A raw read, then a piece that uses the cell. -/
theorem Paints.read {a : Int} {f : Word → RowOp Unit} {A : Prop} {p : Nat → Option Word}
    (h : Paints s (f (s.cell a)) A p) : Paints s (rowRead s a >>= f) (s.inMemory a ∧ A) p := by
  intro row
  by_cases ha : s.inMemory a
  · have hr : rowRead s a row = .ok (s.cell a) row := by simp [rowRead, ha]
    rw [rowOp_bind_ok hr]
    exact ⟨fun hA => (h row).1 hA.2, fun hA => (h row).2 fun hx => hA ⟨ha, hx⟩⟩
  · have hr : rowRead s a row = .error (.outOfRange a) row := by simp only [rowRead, if_neg ha]
    rw [rowOp_bind_error hr]
    exact ⟨fun hA => absurd hA.1 ha, fun _ => ⟨a, row, rfl, ha⟩⟩

/-- One piece after another: the later paints over the earlier. -/
theorem Paints.seq {f g : RowOp Unit} {A B : Prop} {p q : Nat → Option Word} (hf : Paints s f A p)
    (hg : Paints s g B q) : Paints s (f >>= fun _ => g) (A ∧ B) (fun px => (q px).or (p px)) := by
  intro row
  by_cases hA : A
  · obtain ⟨r1, h1, h2⟩ := (hf row).1 hA
    rw [rowOp_bind_ok h1]
    refine ⟨fun hAB => ?_, fun hAB => (hg r1).2 fun hB => hAB ⟨hA, hB⟩⟩
    obtain ⟨r2, h3, h4⟩ := (hg r1).1 hAB.2
    refine ⟨r2, h3, fun px hx => ?_⟩
    rw [h4 px hx, h2 px hx]
    dsimp only
    cases q px <;> simp
  · obtain ⟨a, r1, h1, h2⟩ := (hf row).2 hA
    rw [rowOp_bind_error h1]
    exact ⟨fun hAB => absurd hAB.1 hA, fun _ => ⟨a, r1, rfl, h2⟩⟩

/-- What `n` pieces in a row paint: the last one that paints a pixel decides. -/
def painted (p : Nat → Nat → Option Word) : Nat → Nat → Option Word
  | 0, _ => none
  | n + 1, px => (p n px).or (painted p n px)

/-- If only piece `k` can paint a pixel, it decides. -/
theorem painted_owner {p : Nat → Nat → Option Word} {px k : Nat} (n : Nat) (h : ∀ j, j < n → p j px ≠ none → j = k) :
    painted p n px = if k < n then p k px else none := by
  induction n with
  | zero => rfl
  | succ n ih =>
    rw [painted, ih fun j hj => h j (by omega)]
    by_cases hn : p n px = none
    · rw [hn, Option.none_or]
      by_cases hk : k = n
      · subst hk; simp [hn]
      · simp only [show k < n + 1 ↔ k < n by omega]
    · have := h n (by omega) hn
      subst this
      cases hp : p n px with
      | none => exact absurd hp hn
      | some v => simp

theorem painted_none {p : Nat → Nat → Option Word} {px : Nat} (n : Nat) (h : ∀ j, j < n → p j px = none) :
    painted p n px = none := by
  induction n with
  | zero => rfl
  | succ n ih => rw [painted, h n (by omega), ih fun j hj => h j (by omega)]; rfl

theorem Paints.range {f : Nat → RowOp Unit} {A : Nat → Prop} {p : Nat → Nat → Option Word} (n : Nat)
    (h : ∀ k, k < n → Paints s (f k) (A k) (p k)) :
    Paints s ((List.range n).forM f) (∀ k, k < n → A k) (painted p n) := by
  induction n with
  | zero => exact paints_pure.congr (by simp) fun _ _ _ => rfl
  | succ n ih =>
    have e : (List.range (n + 1)).forM f = ((List.range n).forM f >>= fun _ => f n) := by
      rw [List.range_succ]
      change forM (List.range n ++ [n]) f = (forM (List.range n) f >>= fun _ => f n)
      rw [List.forM_append]
      simp
    rw [e]
    refine ((ih fun k hk => h k (by omega)).seq (h n (by omega))).congr ?_ fun _ _ _ => rfl
    refine ⟨fun hh k hk => ?_, fun hh => ⟨fun k hk => hh k (by omega), hh n (by omega)⟩⟩
    by_cases hkn : k = n
    · exact hkn ▸ hh.2
    · exact hh.1 k (by omega)

/-! ## The pieces -/

/-- A pixel the alpha test lets through (R277). -/
abbrev opaqueWord (v : Word) : Prop := topByte v = Config.alphaOpaque

theorem paints_drawPixel (x : Int) (v : Word) :
    Paints s (drawPixel x v) True (fun px => if (px : Int) = x ∧ opaqueWord v then some v else none) := by
  intro row
  refine ⟨fun _ => ?_, fun h => absurd trivial h⟩
  dsimp only
  unfold drawPixel
  split
  · rename_i h1
    have h1 : x < 0 ∨ (320 : Int) ≤ x := h1
    refine ⟨row, rfl, fun px hx => ?_⟩
    rw [if_neg (by rintro ⟨h, -⟩; omega)]
    rfl
  · split
    · rename_i h
      refine ⟨row, rfl, fun px hx => ?_⟩
      rw [if_neg fun hh => h hh.2]
      rfl
    · rename_i h1 h2
      have h2 : opaqueWord v := not_not.mp h2
      refine ⟨row.setIfInBounds x.toNat v, rfl, fun px hx => ?_⟩
      by_cases hp : (px : Int) = x
      · subst hp
        rw [if_pos ⟨rfl, h2⟩]
        simp [Row.px, hx]
      · rw [if_neg fun hh => hp hh.1]
        simp only [Row.px]
        rw [Vector.getElem?_setIfInBounds_ne (by omega)]
        rfl

/-- The eight pixels of a tile row need eight readable cells and paint where their screen columns are (R274). -/
theorem paints_drawTileRow (base x0 : Int) :
    Paints s (drawTileRow s base x0) (∀ k : Nat, k < 8 → s.inMemory (base + k))
      (fun px => if (0 ≤ (px : Int) - x0 ∧ (px : Int) - x0 < 8) ∧ opaqueWord (s.cell (base + (px - x0))) then
        some (s.cell (base + (px - x0))) else none) := by
  have h := Paints.range (s := s) 8 fun k _ =>
    (paints_drawPixel (s := s) (x0 + (k : Int)) (s.cell (base + (k : Int)))).read
      (f := fun v => drawPixel (x0 + (k : Int)) v)
  refine h.congr ⟨fun hh k hk => (hh k hk).1, fun hh k hk => ⟨hh k hk, trivial⟩⟩ fun _ px hx => ?_
  by_cases hr : 0 ≤ (px : Int) - x0 ∧ (px : Int) - x0 < 8
  · obtain ⟨k, hk⟩ := Int.eq_ofNat_of_zero_le hr.1
    have hpx : (px : Int) = x0 + k := by omega
    rw [painted_owner (k := k) 8 fun j _ hj => ?_]
    · rw [if_pos (by omega), hk]
      by_cases ho : opaqueWord (s.cell (base + (k : Int)))
      · rw [if_pos ⟨hpx, ho⟩, if_pos ⟨by omega, ho⟩]
      · rw [if_neg fun hh => ho hh.2, if_neg fun hh => ho hh.2]
    · by_contra hne
      refine hj (if_neg ?_)
      rintro ⟨h1, -⟩
      omega
  · rw [if_neg fun hh => hr hh.1]
    refine painted_none 8 fun j hj => if_neg ?_
    rintro ⟨h1, -⟩
    omega

theorem Paints.ite {f : RowOp Unit} {A : Prop} {p : Nat → Option Word} {c : Prop} [Decidable c]
    (h : c → Paints s f A p) : Paints s (if c then f else pure ()) (c → A) (fun px => if c then p px else none) := by
  by_cases hc : c
  · simp only [if_pos hc]
    exact (h hc).congr (by simp [hc]) fun _ _ _ => rfl
  · simp only [if_neg hc]
    exact paints_pure.congr (by simp [hc]) fun _ _ _ => rfl

/-- What one grid column needs to be readable: its cell, and, if the cell is drawn in this pass, its tile row (R274). -/
abbrev columnNeeds (s : State) (layer : GridLayer) (r tr : Int) (c : Nat) : Prop :=
  s.inMemory (s.gridAddr r c) ∧ (cellInPass layer (s.cell (s.gridAddr r c)) →
    ∀ k : Nat, k < 8 → s.inMemory (s.tileAddr (s.cell (s.gridAddr r c)) tr k))

/-- What a grid column paints: its tile row, where the alpha test lets it through (R274, R277). -/
abbrev columnPaint (s : State) (layer : GridLayer) (r tr : Int) (c px : Nat) : Option Word :=
  let cell := s.cell (s.gridAddr r c)
  let k := s.gridX px - 8 * c
  if cellInPass layer cell ∧ (0 ≤ k ∧ k < 8) ∧ opaqueWord (s.cell (s.tileAddr cell tr k)) then
    some (s.cell (s.tileAddr cell tr k)) else none

/-- What a cell paints in its column once it has been read. -/
theorem paints_cell (hi : s.Inv) (layer : GridLayer) (cell : Word) (tr : Int) (c : Nat) :
    Paints s
      (if cellInPass layer cell then do
        let gt ← rowRead s Config.GT
        let sx ← rowRead s Config.SX
        drawTileRow s (gt.toInt + cellTile cell * Config.tileWords + tr * Config.tileW) (c * Config.tileW - sx.toInt)
      else pure ())
      (cellInPass layer cell → ∀ k : Nat, k < 8 → s.inMemory (s.tileAddr cell tr k))
      (fun px => if cellInPass layer cell ∧ (0 ≤ s.gridX px - 8 * c ∧ s.gridX px - 8 * c < 8) ∧
        opaqueWord (s.cell (s.tileAddr cell tr (s.gridX px - 8 * c))) then
          some (s.cell (s.tileAddr cell tr (s.gridX px - 8 * c))) else none) := by
  have hr : ∀ i : Int, 0 ≤ i → i < 20 → s.inMemory i := fun i h0 h1 => hi.reg_inMemory h0 h1
  refine (Paints.ite fun _ => ((paints_drawTileRow _ _).read (f := fun sx => drawTileRow s _
    (c * Config.tileW - sx.toInt))).read (f := fun gt => do
      let sx ← rowRead s Config.SX
      drawTileRow s (gt.toInt + cellTile cell * Config.tileWords + tr * Config.tileW)
        (c * Config.tileW - sx.toInt))).congr ?_ fun _ px _ => ?_
  · exact ⟨fun h hc => (h hc).2.2, fun h hc => ⟨hr Config.GT (by decide) (by decide), hr Config.SX (by decide) (by decide), h hc⟩⟩
  · have hk : (px : Int) - (c * Config.tileW - (s.cell Config.SX).toInt) = s.gridX px - 8 * c := by
      simp only [State.gridX, Config.tileW]
      omega
    simp only [hk]
    by_cases hc : cellInPass layer cell
    · simp only [hc, true_and, if_true]
      rfl
    · simp [hc]

theorem paints_gridColumn (hi : s.Inv) (layer : GridLayer) (r tr : Int) (c : Nat) :
    Paints s (gridColumn s layer r tr (Config.gridCols + (s.cell Config.GS).toInt) c)
      (columnNeeds s layer r tr c) (columnPaint s layer r tr c) := by
  have h0 : s.inMemory Config.GP := hi.reg_inMemory (by decide) (by decide)
  refine (((paints_cell hi layer (s.cell (s.gridAddr r c)) tr c).read).read (a := Config.GP) (f := fun gp => do
      let cell ← rowRead s (gp.toInt + r * (Config.gridCols + (s.cell Config.GS).toInt) + c)
      if cellInPass layer cell then
        let gt ← rowRead s Config.GT
        let sx ← rowRead s Config.SX
        drawTileRow s (gt.toInt + cellTile cell * Config.tileWords + tr * Config.tileW)
          (c * Config.tileW - sx.toInt) else pure ())).congr ?_ fun _ px _ => rfl
  exact ⟨fun h => h.2, fun h => ⟨h0, h⟩⟩

/-- The grid row a scanline shows lies in the grid (R272). -/
abbrev rowInGrid (s : State) (y : Nat) : Prop := 0 ≤ (s.gridLine y).fdiv 8 ∧ (s.gridLine y).fdiv 8 < 31

/-- The column of the grid that can paint screen column `px`. -/
abbrev ownColumn (s : State) (px : Nat) : Int := (s.gridX px).fdiv 8

theorem own_column_iff (g c : Int) : (0 ≤ g - 8 * c ∧ g - 8 * c < 8) ↔ c = g.fdiv 8 := by
  rw [Int.fdiv_eq_ediv_of_nonneg _ (by decide)]
  omega

/-- One grid pass (R274): outside the grid nothing is read or drawn. -/
theorem paints_gridPass (hi : s.Inv) (y : Nat) (layer : GridLayer) :
    let r := (s.gridLine y).fdiv 8
    let tr := s.gridLine y - 8 * r
    Paints s (gridPass s y layer) (rowInGrid s y → ∀ c, c < 41 → columnNeeds s layer r tr c)
      (fun px => if rowInGrid s y ∧ 0 ≤ ownColumn s px ∧ ownColumn s px < 41 then
        columnPaint s layer r tr (ownColumn s px).toNat px else none) := by
  intro r tr
  have hr : ∀ i : Int, 0 ≤ i → i < 20 → s.inMemory i := fun i h0 h1 => hi.reg_inMemory h0 h1
  have hcols := ((Paints.range 41 fun c _ => paints_gridColumn hi layer r tr c).read (a := Config.GS)
    (f := fun gs => (List.range 41).forM (gridColumn s layer r tr (Config.gridCols + gs.toInt))))
  have hite := (Paints.ite (c := rowInGrid s y) fun _ => hcols).read (a := Config.SY) (f := fun sy =>
    let gy : Int := y + sy.toInt
    if 0 ≤ gy.fdiv 8 ∧ gy.fdiv 8 < 31 then
      rowRead s Config.GS >>= fun gs => (List.range 41).forM
        (gridColumn s layer (gy.fdiv 8) (gy - 8 * gy.fdiv 8) (Config.gridCols + gs.toInt))
    else pure ())
  have e : gridPass s y layer = (rowRead s Config.SY >>= fun sy =>
      let gy : Int := y + sy.toInt
      if 0 ≤ gy.fdiv 8 ∧ gy.fdiv 8 < 31 then
        rowRead s Config.GS >>= fun gs => (List.range 41).forM
          (gridColumn s layer (gy.fdiv 8) (gy - 8 * gy.fdiv 8) (Config.gridCols + gs.toInt))
      else pure ()) := by
    unfold gridPass
    refine congrArg _ (funext fun sy => ?_)
    dsimp only
    change (if ((y : Int) + sy.toInt).fdiv 8 < 0 ∨ 31 ≤ ((y : Int) + sy.toInt).fdiv 8 then _ else _) = _
    by_cases h : 0 ≤ ((y : Int) + sy.toInt).fdiv 8 ∧ ((y : Int) + sy.toInt).fdiv 8 < 31
    · rw [if_pos h, if_neg (by omega)]
      rfl
    · rw [if_neg h, if_pos (by omega)]
  rw [e]
  refine hite.congr ?_ fun hA px hx => ?_
  · exact ⟨fun h hg => (h.2 hg).2, fun h => ⟨hr Config.SY (by decide) (by decide), fun hg =>
      ⟨hr Config.GS (by decide) (by decide), h hg⟩⟩⟩
  · by_cases hg : rowInGrid s y
    · simp only [if_pos hg]
      by_cases hc : 0 ≤ ownColumn s px ∧ ownColumn s px < 41
      · rw [if_pos ⟨hg, hc⟩, painted_owner (k := (ownColumn s px).toNat) 41 fun j _ hj => ?_, if_pos (by omega)]
        by_contra hne
        refine hj (if_neg ?_)
        rintro ⟨-, h1, -⟩
        have := (own_column_iff _ _).1 h1
        exact hne (by rw [ownColumn, ← this]; rfl)
      · rw [if_neg fun hh => hc hh.2]
        refine painted_none 41 fun j hj => if_neg ?_
        rintro ⟨-, h1, -⟩
        have := (own_column_iff _ _).1 h1
        rw [ownColumn, ← this] at hc
        omega
    · rw [if_neg hg, if_neg fun hh => hg hh.1]

theorem cellEmpty_iff (cell : Word) : cellEmpty cell = false ↔ 0 ≤ cell.toInt := by
  rw [cellEmpty, BitVec.msb_eq_toInt]
  simp

/-- A cell is drawn in exactly one pass unless it is empty (R273, R274). -/
theorem cellInPass_low (cell : Word) : cellInPass .low cell = true ↔ 0 ≤ cell.toInt ∧ cellZ cell = false := by
  simp [cellInPass, cellEmpty_iff]

theorem cellInPass_high (cell : Word) : cellInPass .high cell = true ↔ 0 ≤ cell.toInt ∧ cellZ cell = true := by
  simp [cellInPass, cellEmpty_iff]

theorem opaqueWord_iff (v : Word) : opaqueWord v ↔ v.extractLsb' 24 8 = 0xFF#8 := by
  have : topByte v = v.extractLsb' 24 8 := by
    apply BitVec.eq_of_getLsbD_eq
    intro i hi
    simp [topByte, hi]
  rw [opaqueWord, this]

/-- The whole row is set to the background colour (R271). -/
theorem fillRow_ok (hi : s.Inv) (row : Row) : fillRow s row = .ok () (Vector.replicate 320 (s.cell Config.CL)) := by
  have h : s.inMemory Config.CL := hi.reg_inMemory (by decide) (by decide)
  have hr : rowRead s Config.CL row = .ok (s.cell Config.CL) row := by simp [rowRead, h]
  rw [fillRow, rowOp_bind_ok hr]
  rfl

/-- Of the two passes over a cell at most one draws it, so the later never paints over the earlier (R274). -/
theorem two_passes {c r n k o : Prop} [Decidable c] [Decidable r] [Decidable n] [Decidable k] [Decidable o] {z : Bool}
    (v b : Word) (hk : k) (hc : c) (hr : r) :
    ((((if (n ∧ z = true) ∧ k ∧ o then some v else none).or none).or
      (if (n ∧ z = false) ∧ k ∧ o then some v else none)).getD b) = if c ∧ r ∧ n ∧ o then v else b := by
  by_cases n <;> by_cases o <;> cases z <;> simp [*]

/-- The draw of scanline `y` (R270, R278): it needs what `scanlineReadable` says, and every pixel of the row ends as
`finishedPixel` says. -/
theorem scanline_draws (hi : s.Inv) (y : Nat) (row : Row) :
    (s.scanlineReadable y → ∃ row', scanline y s row = .ok () row' ∧
      ∀ px, px < 320 → row'.px px = s.finishedPixel px y) ∧
    (¬ s.scanlineReadable y → ∃ a row', scanline y s row = .error (.outOfRange a) row' ∧ ¬ s.inMemory a) := by
  have h := ((paints_gridPass hi y .low).seq ((paints_pure (s := s)).seq (paints_gridPass hi y .high)))
    (Vector.replicate 320 (s.cell Config.CL))
  have e : scanline y s row =
      (gridPass s y .low >>= fun _ => spritePass >>= fun _ => gridPass s y .high)
        (Vector.replicate 320 (s.cell Config.CL)) := by
    rw [scanline, rowOp_bind_ok (fillRow_ok hi row)]
  have hA : ((rowInGrid s y → ∀ c, c < 41 → columnNeeds s .low ((s.gridLine y).fdiv 8)
        (s.gridLine y - 8 * (s.gridLine y).fdiv 8) c) ∧ (True ∧
      (rowInGrid s y → ∀ c, c < 41 → columnNeeds s .high ((s.gridLine y).fdiv 8)
        (s.gridLine y - 8 * (s.gridLine y).fdiv 8) c))) ↔ s.scanlineReadable y := by
    simp only [columnNeeds, cellInPass_low, cellInPass_high, State.scanlineReadable]
    constructor
    · rintro ⟨h1, -, h2⟩ h0 h31 c hc
      refine ⟨(h1 ⟨h0, h31⟩ c hc).1, fun hn => ?_⟩
      cases hz : cellZ (s.cell (s.gridAddr ((s.gridLine y).fdiv 8) c)) with
      | false => exact (h1 ⟨h0, h31⟩ c hc).2 ⟨hn, hz⟩
      | true => exact (h2 ⟨h0, h31⟩ c hc).2 ⟨hn, hz⟩
    · intro hh
      exact ⟨fun hg c hc => ⟨(hh hg.1 hg.2 c hc).1, fun hp => (hh hg.1 hg.2 c hc).2 hp.1⟩, trivial,
        fun hg c hc => ⟨(hh hg.1 hg.2 c hc).1, fun hp => (hh hg.1 hg.2 c hc).2 hp.1⟩⟩
  rw [e]
  refine ⟨fun hrd => ?_, fun hrd => h.2 (mt hA.1 hrd)⟩
  obtain ⟨row', h1, h2⟩ := h.1 (hA.2 hrd)
  refine ⟨row', h1, fun px hx => ?_⟩
  rw [h2 px hx]
  dsimp only
  have hbg : Row.px (Vector.replicate 320 (s.cell Config.CL)) px = s.cell Config.CL := by simp [Row.px, hx]
  rw [hbg]
  have hown : 0 ≤ s.gridX px - 8 * ownColumn s px ∧ s.gridX px - 8 * ownColumn s px < 8 := (own_column_iff _ _).2 rfl
  unfold State.finishedPixel
  dsimp only
  by_cases hg : rowInGrid s y ∧ 0 ≤ ownColumn s px ∧ ownColumn s px < 41
  · have hc : ((ownColumn s px).toNat : Int) = (s.gridX px).fdiv 8 := Int.toNat_of_nonneg hg.2.1
    rw [if_pos hg, if_pos hg]
    simp only [columnPaint, hc, cellInPass_low, cellInPass_high, opaqueWord_iff]
    exact two_passes _ _ hown hg.2 hg.1
  · rw [if_neg hg, if_neg hg, if_neg (by rintro ⟨h1, h2, -⟩; exact hg ⟨h2, h1⟩)]
    rfl

/-! ## The draw on the machine -/

theorem State.setRow_pixel (s : State) {y y' : Nat} (row : Row) (px : Nat) :
    (s.setRow y row).pixel px y' = if y = y' ∧ y' < 240 then row.px px else s.pixel px y' := by
  unfold State.pixel State.row
  rw [State.setRow_pixels]
  by_cases h : y = y'
  · subst h
    by_cases hy : y < 240
    · simp [hy]
    · simp [hy]
  · rw [Vector.getElem?_setIfInBounds_ne h, if_neg fun hh => h hh.1]

/-- `DrawScanline(y)` on the machine (R270). -/
theorem drawScanline_draws (hi : s.Inv) (y : Nat) :
    (s.scanlineReadable y → ∃ row, drawScanline y s = .ok () (s.setRow y row) ∧
      ∀ px, px < 320 → row.px px = s.finishedPixel px y) ∧
    (¬ s.scanlineReadable y → ∃ a t, drawScanline y s = .error (.outOfRange a) t ∧ ¬ s.inMemory a) := by
  obtain ⟨h1, h2⟩ := scanline_draws hi y (s.row y)
  constructor
  · intro hr
    obtain ⟨row, he, hp⟩ := h1 hr
    exact ⟨row, by simp only [drawScanline, onRow, he], hp⟩
  · intro hr
    obtain ⟨a, row, he, ha⟩ := h2 hr
    exact ⟨a, _, by simp only [drawScanline, onRow, he]; rfl, ha⟩

theorem op_forM_snoc {α : Type} (l : List α) (a : α) (f : α → Op Unit) :
    (l ++ [a]).forM f = (l.forM f >>= fun _ => f a) := by
  change forM (l ++ [a]) f = (forM l f >>= fun _ => f a)
  rw [List.forM_append]
  simp

/-- The first `n` scanlines drawn one after another; only the pixel buffer changes. -/
theorem drawScanlines_draw (hi : s.Inv) (n : Nat) (hn : n ≤ 240) (hr : ∀ y, y < n → s.scanlineReadable y) :
    ∃ px, (List.range n).forM drawScanline s = .ok () { s with pixels := px } ∧
      ∀ x y, x < 320 → y < 240 →
        ({ s with pixels := px } : State).pixel x y = if y < n then s.finishedPixel x y else s.pixel x y := by
  induction n with
  | zero => exact ⟨s.pixels, rfl, fun x y _ _ => rfl⟩
  | succ n ih =>
    obtain ⟨px, he, hp⟩ := ih (by omega) fun y hy => hr y (by omega)
    obtain ⟨row, he2, hp2⟩ := (drawScanline_draws (s := { s with pixels := px }) hi n).1 (hr n (by omega))
    refine ⟨({ s with pixels := px } : State).setRow n row |>.pixels, ?_, fun x y hx hy => ?_⟩
    · rw [List.range_succ, op_forM_snoc, op_bind_ok he, he2]
      rfl
    · refine (State.setRow_pixel (y := n) { s with pixels := px } row x).trans ?_
      by_cases h : n = y
      · subst h
        rw [if_pos ⟨rfl, hy⟩, if_pos (by omega), hp2 x hx]
        rfl
      · rw [if_neg fun hh => h hh.1, hp x y hx hy]
        simp only [show y < n + 1 ↔ y < n by omega]

/-- If one of the first `n` scanlines cannot be read, drawing them faults out of range. -/
theorem drawScanlines_fault (hi : s.Inv) (n : Nat) (hn : n ≤ 240) (hr : ∃ y, y < n ∧ ¬ s.scanlineReadable y) :
    ∃ a t, (List.range n).forM drawScanline s = .error (.outOfRange a) t ∧ ¬ s.inMemory a := by
  induction n with
  | zero => obtain ⟨y, hy, -⟩ := hr; omega
  | succ n ih =>
    rw [List.range_succ, op_forM_snoc]
    by_cases hb : ∃ y, y < n ∧ ¬ s.scanlineReadable y
    · obtain ⟨a, t, he, ha⟩ := ih (by omega) hb
      exact ⟨a, t, op_bind_error he, ha⟩
    · have hall : ∀ y, y < n → s.scanlineReadable y := fun y hy => Classical.byContradiction fun h => hb ⟨y, hy, h⟩
      have hlast : ¬ s.scanlineReadable n := by
        obtain ⟨y, hy, hy2⟩ := hr
        rcases Nat.lt_succ_iff_lt_or_eq.mp hy with h | rfl
        · exact absurd (hall y h) hy2
        · exact hy2
      obtain ⟨px, he, -⟩ := drawScanlines_draw hi n (by omega) hall
      obtain ⟨a, t, he2, ha⟩ := (drawScanline_draws (s := { s with pixels := px }) hi n).2 hlast
      exact ⟨a, t, by rw [op_bind_ok he, he2], ha⟩

/-- Under the launch premise of R342 every scanline can be read, whatever the scroll. -/
theorem scanlineReadable_of_gridLaunchPremise (h : s.gridLaunchPremise) (y : Nat) : s.scanlineReadable y := by
  unfold State.scanlineReadable
  dsimp only
  generalize hr : (s.gridLine y).fdiv 8 = r
  intro h0 h31 c hc
  obtain ⟨n, rfl⟩ := Int.eq_ofNat_of_zero_le h0
  obtain ⟨h1, h2⟩ := h n c (by omega) hc
  refine ⟨h1, fun hp k hk => ?_⟩
  have h3 := (own_column_iff (s.gridLine y) n).2 hr.symm
  have := h2 hp ((s.gridLine y - 8 * n).toNat * 8 + k) (by omega)
  have e : s.tileAddr (s.cell (s.gridAddr n c)) 0 (((s.gridLine y - 8 * n).toNat * 8 + k : Nat) : Int) =
      s.tileAddr (s.cell (s.gridAddr n c)) (s.gridLine y - 8 * n) k := by
    unfold State.tileAddr
    omega
  rw [e] at this
  exact this

/-! ## The end of the frame -/

theorem audioFlush_ok (s : State) : audioFlush s = .ok () s.flushed := by
  unfold audioFlush State.flushed
  rw [op_bind_ok (op_get s)]
  split <;> rfl

theorem State.flushed_frames (s : State) : s.flushed.env.frames = s.env.frames := by
  unfold State.flushed
  split <;> rfl

theorem endFrame_ok (s : State) : endFrame s = .ok () s.frameEnded := by
  rw [endFrame, op_bind_ok (audioFlush_ok s)]
  unfold returnToHost State.frameEnded
  rw [State.flushed_frames]

/-- The end of the frame and the draw do not meet. -/
theorem State.frameEnded_pixels (s : State) (px : Vector (Vector Word 320) 240) :
    ({ s with pixels := px } : State).frameEnded = { s.frameEnded with pixels := px } := by
  simp only [State.frameEnded, State.flushed]
  split <;> rfl

end Sys2Proof.Machine
end

