-- ==== Sys2Proof/Laws/Evolves.lean ====
section
/-! SUPPORT. What any block of the machine can do to the state besides its own effect: the invariant, the configuration,
the handles, the host's key state and the record of transactions. Proved for each shared operation once; `op_within_bind`
carries it through a block. -/

namespace Sys2Proof.Machine

variable {α β : Type}

/-- Whenever the block ends in a value, the states before and after are related. -/
def Op.Within (R : State → State → Prop) (op : Op α) : Prop := ∀ s a t, op s = .ok a t → R s t

theorem op_within_bind {R : State → State → Prop} (htrans : ∀ s t u, R s t → R t u → R s u) {x : Op α}
    {f : α → Op β} (hx : Op.Within R x) (hf : ∀ a, Op.Within R (f a)) : Op.Within R (x >>= f) := by
  intro s b u h
  obtain ⟨a, t, h1, h2⟩ := op_bind_inv h
  exact htrans s t u (hx s a t h1) (hf a t b u h2)

theorem op_within_pure {R : State → State → Prop} (hrefl : ∀ s, R s s) (a : α) : Op.Within R (pure a : Op α) := by
  intro s b t h
  cases h
  exact hrefl s

theorem op_within_raise {R : State → State → Prop} (f : Fault) : Op.Within R (raise f : Op α) := by
  intro s a t h
  cases h

theorem op_within_ite {R : State → State → Prop} {c : Prop} [Decidable c] {x y : Op α} (hx : c → Op.Within R x)
    (hy : ¬ c → Op.Within R y) : Op.Within R (if c then x else y) := by
  by_cases h : c
  · rw [if_pos h]; exact hx h
  · rw [if_neg h]; exact hy h

/-! ## What never changes but by SYNC -/

/-- The pixel buffer and the phase stay (R31, R36). -/
def Still (s t : State) : Prop := t.pixels = s.pixels ∧ t.phase = s.phase

theorem Still.refl (s : State) : Still s s := ⟨rfl, rfl⟩

theorem Still.trans (s t u : State) (h : Still s t) (k : Still t u) : Still s u :=
  ⟨k.1.trans h.1, k.2.trans h.2⟩

/-! ## How the machine evolves -/

/-- From a state with the invariant: the invariant holds again, the configuration stays (R37), handles are only
allocated from the counter and never own two streams (R248), the core does not write the key state (R33), transactions
are only added (R70). -/
structure Evolves (s t : State) : Prop where
  inv : t.Inv
  params : t.params = s.params
  apart : s.handlesApart → t.handlesApart
  nexth : s.nexth ≤ t.nexth
  rd : ∀ h, tableFind t.rd h ≠ none → tableFind s.rd h ≠ none ∨ s.nexth ≤ h
  wr : ∀ h, tableFind t.wr h ≠ none → tableFind s.wr h ≠ none ∨ s.nexth ≤ h
  keys : t.keys = s.keys
  keyq : t.keyq <:+ s.keyq
  sent : s.env.sent <+: t.env.sent

/-- The relation the shared operations are proved to be within. -/
def Step1 (s t : State) : Prop := s.Inv → Evolves s t

theorem Step1.refl (s : State) : Step1 s s := fun h =>
  ⟨h, rfl, id, Nat.le_refl _, fun _ => .inl, fun _ => .inl, rfl, List.suffix_rfl, List.prefix_rfl⟩

theorem Step1.trans (s t u : State) (h : Step1 s t) (k : Step1 t u) : Step1 s u := fun hi => by
  have h := h hi
  have k := k h.inv
  refine ⟨k.inv, k.params.trans h.params, fun ha => k.apart (h.apart ha), Nat.le_trans h.nexth k.nexth, ?_, ?_,
    k.keys.trans h.keys, k.keyq.trans h.keyq, h.sent.trans k.sent⟩
  · intro n hn
    rcases k.rd n hn with hn | hn
    · exact h.rd n hn
    · exact .inr (Nat.le_trans h.nexth hn)
  · intro n hn
    rcases k.wr n hn with hn | hn
    · exact h.wr n hn
    · exact .inr (Nat.le_trans h.nexth hn)

/-- An update of the fields that none of this speaks about, or that only adds a transaction. -/
theorem Step1.of_eq {s t : State} (hp : t.params = s.params) (hm : t.mem = s.mem) (ha : t.acur = s.acur)
    (hk : t.keys = s.keys) (hq : t.keyq = s.keyq) (hr : t.rd = s.rd) (hw : t.wr = s.wr) (hn : t.nexth = s.nexth)
    (hs : s.env.sent <+: t.env.sent) : Step1 s t := by
  intro hi
  refine ⟨?_, hp, ?_, by rw [hn], by rw [hr]; exact fun _ => .inl, by rw [hw]; exact fun _ => .inl, hk,
    by rw [hq], hs⟩
  · unfold State.Inv
    rw [hp, hm, ha, hr, hw, hn]
    exact hi
  · unfold State.handlesApart
    rw [hr, hw]
    exact id

theorem memRead_within {R : State → State → Prop} (hrefl : ∀ s, R s s) (a : Int) : Op.Within R (memRead a) := by
  intro s v t h
  obtain ⟨-, -, rfl⟩ := memRead_inv h
  exact hrefl t

theorem memWrite_evolves (a : Int) (v : Word) : Op.Within Step1 (memWrite a v) := by
  intro s u t h hi
  obtain ⟨ha, rfl⟩ := memWrite_inv h
  exact ⟨State.setCell_inv hi ha v, rfl, id, Nat.le_refl _, fun _ => .inl, fun _ => .inl, rfl, List.suffix_rfl,
    List.prefix_rfl⟩

theorem memWrite_still (a : Int) (v : Word) : Op.Within Still (memWrite a v) := by
  intro s u t h
  obtain ⟨ha, rfl⟩ := memWrite_inv h
  exact ⟨rfl, rfl⟩

/-! ## The stacks -/

section
variable {R : State → State → Prop} (hrefl : ∀ s, R s s) (htrans : ∀ s t u, R s t → R t u → R s u)
include hrefl htrans

theorem operand_within : Op.Within R operand :=
  op_within_bind htrans (memRead_within hrefl _) fun _ => memRead_within hrefl _

theorem afterOperand_within : Op.Within R afterOperand :=
  op_within_bind htrans (memRead_within hrefl _) fun _ => op_within_pure hrefl _

theorem branchTarget_within (c : Bool) : Op.Within R (branchTarget c) :=
  op_within_ite (fun _ => operand_within hrefl htrans) fun _ => afterOperand_within hrefl htrans

variable (hwrite : ∀ a v, Op.Within R (memWrite a v))
include hwrite

theorem pushAt_within (ptr : Int) (v : Word) : Op.Within R (pushAt ptr v) :=
  op_within_bind htrans (memRead_within hrefl ptr) fun _ =>
    op_within_bind htrans (hwrite _ _) fun _ => hwrite _ _

theorem popAt_within (ptr : Int) : Op.Within R (popAt ptr) :=
  op_within_bind htrans (memRead_within hrefl ptr) fun _ =>
    op_within_bind htrans (hwrite _ _) fun _ => memRead_within hrefl _

theorem binary_within (f : Word → Word → Word) : Op.Within R (binary f) :=
  op_within_bind htrans (popAt_within hrefl htrans hwrite _) fun _ =>
    op_within_bind htrans (popAt_within hrefl htrans hwrite _) fun _ => pushAt_within hrefl htrans hwrite _ _

theorem dividing_within (f : Word → Word → Word) : Op.Within R (dividing f) :=
  op_within_bind htrans (popAt_within hrefl htrans hwrite _) fun _ =>
    op_within_bind htrans (popAt_within hrefl htrans hwrite _) fun _ =>
      op_within_ite (fun _ => op_within_raise _) fun _ => pushAt_within hrefl htrans hwrite _ _

end

/-! ## Transactions and devices -/

theorem tell_evolves (c : HostCall) : Op.Within Step1 (tell c) := by
  intro s u t h
  cases h
  exact Step1.of_eq rfl rfl rfl rfl rfl rfl rfl rfl (List.prefix_append _ _)

theorem drawRandom_evolves : Op.Within Step1 drawRandom := by
  intro s u t h
  cases h
  exact Step1.of_eq rfl rfl rfl rfl rfl rfl rfl rfl List.prefix_rfl

theorem drawStdin_evolves : Op.Within Step1 drawStdin := by
  intro s u t h
  cases h
  exact Step1.of_eq rfl rfl rfl rfl rfl rfl rfl rfl List.prefix_rfl

theorem drawOpen_evolves (p : List Word) : Op.Within Step1 (drawOpen p) := by
  intro s u t h
  cases h
  exact Step1.of_eq rfl rfl rfl rfl rfl rfl rfl rfl List.prefix_rfl

theorem drawRead_evolves (n : Nat) : Op.Within Step1 (drawRead n) := by
  intro s u t h
  cases h
  exact Step1.of_eq rfl rfl rfl rfl rfl rfl rfl rfl List.prefix_rfl

theorem drawClose_evolves (n : Nat) : Op.Within Step1 (drawClose n) := by
  intro s u t h
  cases h
  exact Step1.of_eq rfl rfl rfl rfl rfl rfl rfl rfl List.prefix_rfl

theorem loadKeyQueue_evolves : Op.Within Step1 loadKeyQueue := by
  intro s v t h hi
  unfold loadKeyQueue at h
  split at h
  · cases h
    exact Step1.refl s hi
  · rename_i c rest hq
    cases h
    exact ⟨hi, rfl, id, Nat.le_refl _, fun _ => .inl, fun _ => .inl, rfl, by rw [hq]; exact List.suffix_cons _ _,
      List.prefix_rfl⟩

theorem audioAppend_evolves (b : Byte) : Op.Within Step1 (audioAppend b) := by
  intro s v t h hi
  rw [audioAppend, op_modify] at h
  cases h
  by_cases hc : s.acur < Config.audioCap
  · rw [if_pos hc]
    exact ⟨⟨hi.1, hi.2.1, hc, hi.2.2.2⟩, rfl, id, Nat.le_refl _, fun _ => .inl, fun _ => .inl, rfl,
      List.suffix_rfl, List.prefix_rfl⟩
  · rw [if_neg hc]
    exact Step1.refl s hi

theorem flushed_evolves (s : State) : Step1 s s.flushed := by
  intro hi
  unfold State.flushed
  split
  · exact ⟨⟨hi.1, hi.2.1, Nat.zero_le _, hi.2.2.2⟩, rfl, id, Nat.le_refl _, fun _ => .inl, fun _ => .inl, rfl,
      List.suffix_rfl, List.prefix_append _ _⟩
  · exact Step1.refl s hi

theorem audioFlush_evolves : Op.Within Step1 audioFlush := by
  intro s u t h
  rw [audioFlush_ok] at h
  cases h
  exact flushed_evolves s

theorem setPhase_evolves (p : Phase) : Op.Within Step1 (setPhase p) := by
  intro s u t h
  cases h
  exact Step1.of_eq rfl rfl rfl rfl rfl rfl rfl rfl List.prefix_rfl

theorem returnToHost_evolves : Op.Within Step1 returnToHost := by
  intro s u t h
  cases h
  exact Step1.of_eq rfl rfl rfl rfl rfl rfl rfl rfl List.prefix_rfl

theorem endFrame_evolves : Op.Within Step1 endFrame :=
  op_within_bind Step1.trans audioFlush_evolves fun _ => returnToHost_evolves

theorem drawScanline_evolves (y : Nat) : Op.Within Step1 (drawScanline y) := by
  intro s u t h
  unfold drawScanline onRow at h
  cases hx : scanline y s (s.row y) with
  | ok a row =>
    rw [hx] at h
    cases h
    exact Step1.of_eq rfl rfl rfl rfl rfl rfl rfl rfl List.prefix_rfl
  | error f row =>
    rw [hx] at h
    cases h

/-! ## The stream tables -/

theorem tableFind_none_of_bound {t : Table α} {n h : Nat} (hb : ∀ c ∈ t, 1 ≤ c.1 ∧ c.1 < n) (hn : n ≤ h) :
    tableFind t h = none := by
  cases hf : tableFind t h with
  | none => rfl
  | some v =>
    have := (hb _ (mem_of_tableFind hf)).2
    simp only at this
    omega

theorem tableInv_insert_next {t : Table α} {n : Nat} (h : tableInv t n) (hn : 1 ≤ n) (v : α) :
    tableInv (tableInsert t n v) (n + 1) := by
  refine ⟨tableInsert_wf h.1, fun c hc => ?_⟩
  rcases mem_tableInsert hc with rfl | hc
  · exact ⟨hn, Nat.lt_succ_self n⟩
  · have := h.2 c hc
    omega

theorem tableInv_mono {t : Table α} {n m : Nat} (h : tableInv t n) (hn : n ≤ m) : tableInv t m :=
  ⟨h.1, fun c hc => by have := h.2 c hc; omega⟩

theorem tableInv_erase {t : Table α} {n : Nat} (h : tableInv t n) (k : Nat) : tableInv (tableErase t k) n :=
  ⟨tableErase_wf h.1, fun c hc => h.2 c (mem_tableErase hc)⟩

/-- A table entry is replaced where there is one. -/
theorem tableInv_insert_same {t : Table α} {n k : Nat} {w : α} (h : tableInv t n) (hk : tableFind t k = some w) (v : α) :
    tableInv (tableInsert t k v) n := by
  refine ⟨tableInsert_wf h.1, fun c hc => ?_⟩
  rcases mem_tableInsert hc with rfl | hc
  · have := h.2 _ (mem_of_tableFind hk)
    exact this
  · exact h.2 c hc

theorem dropReadStream_evolves (h : Word) : Op.Within Step1 (dropReadStream h) := by
  intro s u t he hi
  rw [dropReadStream, op_modify] at he
  cases he
  refine ⟨⟨hi.1, hi.2.1, hi.2.2.1, hi.2.2.2.1, tableInv_erase hi.2.2.2.2.1 _, hi.2.2.2.2.2⟩, rfl, ?_, Nat.le_refl _,
    fun k hk => ?_, fun _ => .inl, rfl, List.suffix_rfl, List.prefix_rfl⟩
  · exact fun ha c hc d hd => ha c (mem_tableErase hc) d hd
  · dsimp only at hk
    rw [tableFind_erase] at hk
    split at hk
    · exact absurd rfl hk
    · exact .inl hk

theorem dropWriteStream_evolves (h : Word) : Op.Within Step1 (dropWriteStream h) := by
  intro s u t he hi
  rw [dropWriteStream, op_modify] at he
  cases he
  refine ⟨⟨hi.1, hi.2.1, hi.2.2.1, hi.2.2.2.1, hi.2.2.2.2.1, tableInv_erase hi.2.2.2.2.2 _⟩, rfl, ?_, Nat.le_refl _,
    fun _ => .inl, fun k hk => ?_, rfl, List.suffix_rfl, List.prefix_rfl⟩
  · exact fun ha c hc d hd => ha c hc d (mem_tableErase hd)
  · dsimp only at hk
    rw [tableFind_erase] at hk
    split at hk
    · exact absurd rfl hk
    · exact .inl hk

/-- What an allocation does when it succeeds (R242, R248). -/
theorem allocRead_inv {s t : State} {n : Nat} {u : Unit} (h : allocRead n s = .ok u t) :
    s.inMemory Config.XA ∧
      t = { s.setCell Config.XA (wrap32 s.nexth) with
              rd := tableInsert s.rd s.nexth { stream := n, pushback := none }, nexth := s.nexth + 1 } := by
  rw [allocRead, op_bind_ok (op_get s), op_bind_ok (op_modify _ s)] at h
  obtain ⟨u1, t1, h1, h2⟩ := op_bind_inv h
  obtain ⟨hx, rfl⟩ := setReg_inv h1
  rw [op_modify] at h2
  cases h2
  exact ⟨hx, rfl⟩

theorem allocWrite_inv {s t : State} {n : Nat} {u : Unit} (h : allocWrite n s = .ok u t) :
    s.inMemory Config.XA ∧
      t = { s.setCell Config.XA (wrap32 s.nexth) with
              wr := tableInsert s.wr s.nexth n, nexth := s.nexth + 1 } := by
  rw [allocWrite, op_bind_ok (op_get s), op_bind_ok (op_modify _ s)] at h
  obtain ⟨u1, t1, h1, h2⟩ := op_bind_inv h
  obtain ⟨hx, rfl⟩ := setReg_inv h1
  rw [op_modify] at h2
  cases h2
  exact ⟨hx, rfl⟩

theorem allocRead_evolves (n : Nat) : Op.Within Step1 (allocRead n) := by
  intro s u t h hi
  obtain ⟨hx, rfl⟩ := allocRead_inv h
  have hc := State.setCell_inv hi hx (wrap32 s.nexth)
  obtain ⟨hn, hr, hw⟩ := hi.2.2.2
  refine ⟨⟨hc.1, hc.2.1, hc.2.2.1, Nat.le_succ_of_le hn, tableInv_insert_next hr hn _,
    tableInv_mono hw (Nat.le_succ _)⟩, rfl, ?_, Nat.le_succ _, fun k hk => ?_, fun _ => .inl, rfl, List.suffix_rfl,
    List.prefix_rfl⟩
  · intro ha c hc d hd
    rcases mem_tableInsert hc with rfl | hc
    · have := (hw.2 d hd).2
      simp only
      omega
    · exact ha c hc d hd
  · dsimp only at hk
    rw [tableFind_insert] at hk
    split at hk
    · exact .inr (by omega)
    · exact .inl hk

theorem allocWrite_evolves (n : Nat) : Op.Within Step1 (allocWrite n) := by
  intro s u t h hi
  obtain ⟨hx, rfl⟩ := allocWrite_inv h
  have hc := State.setCell_inv hi hx (wrap32 s.nexth)
  obtain ⟨hn, hr, hw⟩ := hi.2.2.2
  refine ⟨⟨hc.1, hc.2.1, hc.2.2.1, Nat.le_succ_of_le hn, tableInv_mono hr (Nat.le_succ _),
    tableInv_insert_next hw hn _⟩, rfl, ?_, Nat.le_succ _, fun _ => .inl, fun k hk => ?_, rfl, List.suffix_rfl,
    List.prefix_rfl⟩
  · intro ha c hc d hd
    rcases mem_tableInsert hd with rfl | hd
    · have := (hr.2 c hc).2
      simp only
      omega
    · exact ha c hc d hd
  · dsimp only at hk
    rw [tableFind_insert] at hk
    split at hk
    · exact .inr (by omega)
    · exact .inl hk

/-! ## Byte reads -/

/-- Only the entry of handle `h` in `rd` and the host's side changed. -/
structure Retouched (h : Nat) (s t : State) : Prop where
  eq : t = { s with rd := t.rd, env := t.env }
  moves : t.env.moves = s.env.moves
  sent : s.env.sent <+: t.env.sent
  wf : tableWf s.rd → tableWf t.rd
  other : ∀ k, k ≠ h → tableFind t.rd k = tableFind s.rd k
  mem : ∀ c ∈ t.rd, c.1 = h ∨ c ∈ s.rd

theorem Retouched.refl (h : Nat) (s : State) : Retouched h s s :=
  ⟨rfl, rfl, List.prefix_rfl, id, fun _ _ => rfl, fun _ => .inr⟩

theorem Retouched.trans {h : Nat} (s t u : State) (a : Retouched h s t) (b : Retouched h t u) : Retouched h s u := by
  refine ⟨?_, b.moves.trans a.moves, a.sent.trans b.sent, fun hw => b.wf (a.wf hw),
    fun k hk => (b.other k hk).trans (a.other k hk), fun c hc => ?_⟩
  · have ha := a.eq
    have hb := b.eq
    rw [hb, ha]
  · rcases b.mem c hc with hc | hc
    · exact .inl hc
    · exact a.mem c hc

theorem setReadStream_retouches (w : Word) (e : ReadStream) :
    Op.Within (Retouched w.toInt.toNat) (setReadStream w e) := by
  intro s u t h
  rw [setReadStream, op_modify] at h
  cases h
  refine ⟨rfl, rfl, List.prefix_rfl, tableInsert_wf, fun k hk => ?_, fun c hc => ?_⟩
  · dsimp only
    rw [tableFind_insert, if_neg hk]
  · rcases mem_tableInsert hc with rfl | hc
    · exact .inl rfl
    · exact .inr hc

theorem hostRead_retouches (h n : Nat) : Op.Within (Retouched h) (hostRead n) := by
  intro s u t he
  cases he
  exact ⟨rfl, rfl, List.prefix_append _ _, id, fun _ _ => rfl, fun _ => .inr⟩

theorem nextByte_retouches (w : Word) (e : ReadStream) : Op.Within (Retouched w.toInt.toNat) (nextByte w e) := by
  unfold nextByte
  split
  · exact op_within_bind (Retouched.trans (h := w.toInt.toNat)) (setReadStream_retouches w _) fun _ =>
      op_within_pure (Retouched.refl _) _
  · exact hostRead_retouches _ _

theorem pushBack_retouches (w : Word) (e : ReadStream) (n : Byte) :
    Op.Within (Retouched w.toInt.toNat) (pushBack w e n) :=
  op_within_ite (fun _ => op_within_pure (Retouched.refl _) _) fun _ => setReadStream_retouches w _

theorem afterCarriageReturn_retouches (w : Word) (e : ReadStream) :
    Op.Within (Retouched w.toInt.toNat) (afterCarriageReturn w e) := by
  refine op_within_bind (Retouched.trans (h := w.toInt.toNat)) (nextByte_retouches w _) fun r => ?_
  cases r with
  | failure => exact op_within_pure (Retouched.refl _) _
  | eof => exact op_within_pure (Retouched.refl _) _
  | byte n =>
    exact op_within_bind (Retouched.trans (h := w.toInt.toNat)) (pushBack_retouches w e n) fun _ =>
      op_within_pure (Retouched.refl _) _

/-- A byte read touches only the entry of its own handle, and only if there is one (R246). -/
theorem fileReadByte_inv {w v : Word} {s t : State} (h : fileReadByte w s = .ok v t) :
    t = s ∨ ∃ k e, handleOf w = some k ∧ tableFind s.rd k = some e ∧ Retouched k s t := by
  unfold fileReadByte at h
  obtain ⟨oe, s1, h1, h⟩ := op_bind_inv h
  cases h1
  cases hk : handleOf w with
  | none =>
    rw [hk] at h
    cases h
    exact .inl rfl
  | some k =>
    have hkw : w.toInt.toNat = k := by
      unfold handleOf at hk
      split at hk <;> simp_all
    rw [hk] at h
    cases he : tableFind s.rd k with
    | none =>
      simp only [Option.bind_some, he] at h
      cases h
      exact .inl rfl
    | some e =>
      simp only [Option.bind_some, he] at h
      refine .inr ⟨k, e, rfl, he, hkw ▸ ?_⟩
      refine op_within_bind (Retouched.trans (h := w.toInt.toNat)) (nextByte_retouches w e) (fun r => ?_) s v t h
      cases r with
      | failure => exact op_within_pure (Retouched.refl _) _
      | eof => exact op_within_pure (Retouched.refl _) _
      | byte b =>
        exact op_within_ite (fun _ => afterCarriageReturn_retouches w e) fun _ =>
          op_within_pure (Retouched.refl _) _

theorem Retouched.still {h : Nat} {s t : State} (k : Retouched h s t) : Still s t := by
  rw [k.eq]
  exact ⟨rfl, rfl⟩

theorem Retouched.evolves {h : Nat} {s t : State} {e : ReadStream} (k : Retouched h s t)
    (he : tableFind s.rd h = some e) : Step1 s t := by
  intro hi
  obtain ⟨hp, hm, ha, hn, ⟨hrw, hrb⟩, hw⟩ := hi
  have hbound : ∀ c ∈ t.rd, 1 ≤ c.1 ∧ c.1 < s.nexth := by
    intro c hc
    rcases k.mem c hc with hc | hc
    · rw [hc]
      exact hrb _ (mem_of_tableFind he)
    · exact hrb c hc
  have hfind : ∀ n, tableFind t.rd n ≠ none → tableFind s.rd n ≠ none ∨ s.nexth ≤ n := by
    intro n hne
    by_cases hnh : n = h
    · subst hnh
      exact .inl (by rw [he]; simp)
    · exact .inl (k.other n hnh ▸ hne)
  have hmem := k.mem
  have hwf := k.wf hrw
  have hsent := k.sent
  rw [k.eq] at hbound hfind hmem hwf hsent ⊢
  refine ⟨⟨hp, hm, ha, hn, ⟨hwf, hbound⟩, hw⟩, rfl, fun hap c hc d hd => ?_, Nat.le_refl _, hfind, fun _ => .inl, rfl,
    List.suffix_rfl, hsent⟩
  rcases hmem c hc with hc | hc
  · rw [hc]
    exact hap _ (mem_of_tableFind he) d hd
  · exact hap c hc d hd

theorem fileReadByte_evolves (w : Word) : Op.Within Step1 (fileReadByte w) := by
  intro s v t h
  rcases fileReadByte_inv h with rfl | ⟨k, e, -, he, hr⟩
  · exact Step1.refl t
  · exact hr.evolves he

theorem fileReadByte_still (w : Word) : Op.Within Still (fileReadByte w) := by
  intro s v t h
  rcases fileReadByte_inv h with rfl | ⟨k, e, -, -, hr⟩
  · exact Still.refl t
  · exact hr.still

end Sys2Proof.Machine
end

