-- ==== Sys2Proof/Laws/Exec.lean ====
section
/-! SUPPORT. What an instruction can do, through its blocks: a relation between states that every primitive operation
stays within is one that the ports and `exec` stay within. -/

namespace Sys2Proof.Machine

variable {R : State → State → Prop} (hrefl : ∀ s, R s s) (htrans : ∀ s t u, R s t → R t u → R s u)
include hrefl htrans

theorem forM_within {f : Nat → Op Unit} (h : ∀ k, Op.Within R (f k)) (n : Nat) :
    Op.Within R ((List.range n).forM f) := by
  induction n with
  | zero => exact op_within_pure hrefl _
  | succ n ih =>
    rw [List.range_succ, op_forM_snoc]
    exact op_within_bind htrans ih fun _ => h _

omit htrans in
theorem readString_within (a : Int) : Op.Within R (readString a) := by
  intro s p t h
  unfold readString at h
  split at h
  · cases h
  · cases h
    exact hrefl s

omit htrans in
theorem readStream_within (w : Word) : Op.Within R (readStream w) := by
  intro s o t h
  cases h
  exact hrefl s

omit htrans in
theorem writeStream_within (w : Word) : Op.Within R (writeStream w) := by
  intro s o t h
  cases h
  exact hrefl s

/-- The port table of the loads (R203). -/
theorem portLoad_within (htell : ∀ c, Op.Within R (tell c)) (hrandom : Op.Within R drawRandom)
    (hstdin : Op.Within R drawStdin) (hqueue : Op.Within R loadKeyQueue) (hbyte : ∀ w, Op.Within R (fileReadByte w))
    (a : Word) : Op.Within R (portLoad a) := by
  unfold portLoad
  refine op_within_ite (fun _ => op_within_bind htrans (htell _) fun _ => hrandom) fun _ => ?_
  refine op_within_ite (fun _ s v t h => by cases h; exact hrefl s) fun _ => ?_
  refine op_within_ite (fun _ => hqueue) fun _ => ?_
  refine op_within_ite (fun _ => op_within_bind htrans (op_within_bind htrans (htell _) fun _ => hstdin) fun r => ?_)
    fun _ => ?_
  · cases r <;> exact op_within_pure hrefl _
  refine op_within_ite (fun _ => op_within_bind htrans (memRead_within hrefl _) fun _ => hbyte _) fun _ => ?_
  exact op_within_ite (fun _ => op_within_pure hrefl _) fun _ => memRead_within hrefl _

section
variable (hwrite : ∀ a v, Op.Within R (memWrite a v)) (htell : ∀ c, Op.Within R (tell c))
include hwrite htell

/-- The close command (R245). -/
theorem fileClose_within (hclose : ∀ n, Op.Within R (drawClose n)) (hrd : ∀ w, Op.Within R (dropReadStream w))
    (hwr : ∀ w, Op.Within R (dropWriteStream w)) : Op.Within R fileClose := by
  have ask : ∀ n, Op.Within R (hostClose n) := fun n => op_within_bind htrans (htell _) fun _ => hclose n
  refine op_within_bind htrans (memRead_within hrefl _) fun h =>
    op_within_bind htrans (op_within_bind htrans (readStream_within hrefl h) fun o => ?_) fun _ =>
    op_within_bind htrans (op_within_bind htrans (writeStream_within hrefl h) fun o => ?_) fun _ =>
    op_within_ite (fun _ => hwrite _ _) fun _ => op_within_pure hrefl _
  · cases o with
    | none => exact op_within_pure hrefl _
    | some e =>
      exact op_within_bind htrans (ask _) fun _ => op_within_bind htrans (hrd h) fun _ => op_within_pure hrefl _
  · cases o with
    | none => exact op_within_pure hrefl _
    | some w =>
      exact op_within_bind htrans (ask _) fun _ => op_within_bind htrans (hwr h) fun _ => op_within_pure hrefl _

/-- The port table of the stores (R204), given that the command port stays within the relation. -/
theorem portStore_within (haudio : ∀ b, Op.Within R (audioAppend b)) (hcommand : ∀ v, Op.Within R (storeExtStatus v))
    (a v : Word) : Op.Within R (portStore a v) := by
  unfold portStore
  refine op_within_ite (fun _ => htell _) fun _ => op_within_ite (fun _ => haudio _) fun _ =>
    op_within_ite (fun _ => op_within_bind htrans (memRead_within hrefl _) fun h =>
      op_within_bind htrans (writeStream_within hrefl h) fun o => ?_) fun _ =>
    op_within_ite (fun _ => hcommand _) fun _ => hwrite _ _
  cases o with
  | none => exact op_within_pure hrefl _
  | some w => exact htell _

/-- The three commands (R215), given what the opens do with the stream they got. -/
theorem storeExtStatus_within (hclose : Op.Within R fileClose) (hopen : ∀ p, Op.Within R (drawOpen p))
    (hrd : ∀ n, Op.Within R (allocRead n)) (hwr : ∀ n, Op.Within R (allocWrite n)) (v : Word) :
    Op.Within R (storeExtStatus v) := by
  unfold storeExtStatus
  refine op_within_ite (fun _ => hclose) fun _ =>
    op_within_ite (fun _ => op_within_bind htrans (memRead_within hrefl _) fun _ =>
      op_within_bind htrans (readString_within hrefl _) fun p =>
      op_within_bind htrans (op_within_bind htrans (htell _) fun _ => hopen p) fun r => ?_) fun _ =>
    op_within_ite (fun _ => op_within_bind htrans (memRead_within hrefl _) fun _ =>
      op_within_bind htrans (readString_within hrefl _) fun p =>
      op_within_bind htrans (op_within_bind htrans (htell _) fun _ => hopen p) fun r => ?_) fun _ =>
    op_within_pure hrefl _
  · cases r with
    | opened n => exact hrd n
    | failure => exact hwrite _ _
  · cases r with
    | opened n => exact hwr n
    | failure => exact hwrite _ _

end

/-- Every instruction but SYNC, from what writing a cell and the two port tables do. The store's table is asked for only
at a STOR. -/
theorem exec_within (hwrite : ∀ a v, Op.Within R (memWrite a v)) (hload : ∀ a, Op.Within R (portLoad a)) (i : Instr)
    (hstore : i = .stor → ∀ a v, Op.Within R (portStore a v)) (hi : i ≠ .sync) (s t : State)
    (h : exec i s = .next t) : R s t := by
  have seq := fun {α β : Type} {x : Op α} {f : α → Op β} => op_within_bind (x := x) (f := f) htrans
  have rd := fun a => memRead_within hrefl a
  have psh := fun p v => pushAt_within hrefl htrans hwrite p v
  have pp := fun p => popAt_within hrefl htrans hwrite p
  have bin := fun f => binary_within hrefl htrans hwrite f
  have div := fun f => dividing_within hrefl htrans hwrite f
  have opd := operand_within hrefl htrans
  have br := fun c => branchTarget_within hrefl htrans c
  cases i with
  | sync => exact absurd rfl hi
  | const => exact seq (seq (rd _) fun _ => seq (hwrite _ _) fun _ => rd _) (fun _ => psh _ _) s () t (run_next_iff.1 h)
  | call =>
    exact seq (afterOperand_within hrefl htrans) (fun _ => seq (psh _ _) fun _ => seq opd fun _ => hwrite _ _) s () t
      (run_next_iff.1 h)
  | jump => exact seq opd (fun _ => hwrite _ _) s () t (run_next_iff.1 h)
  | jumpz => exact seq (pp _) (fun _ => seq (br _) fun _ => hwrite _ _) s () t (run_next_iff.1 h)
  | jumpif => exact seq (pp _) (fun _ => seq (br _) fun _ => hwrite _ _) s () t (run_next_iff.1 h)
  | load => exact seq (pp _) (fun _ => seq (hload _) fun _ => psh _ _) s () t (run_next_iff.1 h)
  | stor => exact seq (pp _) (fun _ => seq (pp _) fun _ => hstore rfl _ _) s () t (run_next_iff.1 h)
  | ret => exact seq (pp _) (fun _ => hwrite _ _) s () t (run_next_iff.1 h)
  | drop => exact seq (pp _) (fun _ => op_within_pure hrefl _) s () t (run_next_iff.1 h)
  | swap => exact seq (pp _) (fun _ => seq (pp _) fun _ => seq (psh _ _) fun _ => psh _ _) s () t (run_next_iff.1 h)
  | dup => exact seq (rd _) (fun _ => seq (rd _) fun _ => psh _ _) s () t (run_next_iff.1 h)
  | ovr => exact seq (rd _) (fun _ => seq (rd _) fun _ => psh _ _) s () t (run_next_iff.1 h)
  | str => exact seq (pp _) (fun _ => psh _ _) s () t (run_next_iff.1 h)
  | rts => exact seq (pp _) (fun _ => psh _ _) s () t (run_next_iff.1 h)
  | add => exact bin _ s () t (run_next_iff.1 h)
  | sub => exact bin _ s () t (run_next_iff.1 h)
  | mul => exact bin _ s () t (run_next_iff.1 h)
  | div => exact div _ s () t (run_next_iff.1 h)
  | mod => exact div _ s () t (run_next_iff.1 h)
  | and => exact bin _ s () t (run_next_iff.1 h)
  | or => exact bin _ s () t (run_next_iff.1 h)
  | xor => exact bin _ s () t (run_next_iff.1 h)
  | not => exact seq (pp _) (fun _ => psh _ _) s () t (run_next_iff.1 h)
  | sgt => exact bin _ s () t (run_next_iff.1 h)
  | slt => exact bin _ s () t (run_next_iff.1 h)
  | next =>
    exact seq (rd _) (fun _ => seq (seq (rd _) fun _ => seq (hwrite _ _) fun _ => op_within_pure hrefl _) fun _ =>
      seq (br _) fun _ => hwrite _ _) s () t (run_next_iff.1 h)

end Sys2Proof.Machine
end

