-- ==== Sys2Proof/Laws/PerInstr.lean ====
section
/-! SUPPORT. The family `Coding`: what holds of every instruction as syntax, one lemma per constructor. -/

namespace Sys2Proof.Laws

/-- Its opcode number decodes to it (R93, R96), and its written form is well formed exactly when the encoder writes as
many words for it as its format has (R90, R91). -/
def Coding.Statement (i : Instr) : Prop :=
  decodeWord (opcode i) = some i ∧
  ∀ imm : Option Word, Coded.wellFormed ⟨i, imm⟩ = true ↔ (encode ⟨i, imm⟩).length = i.length

/-- The second part, for an operation with an operand word. -/
theorem Coding.of_opi {i : Instr} (h : i.format = .opi) (hd : decodeWord (opcode i) = some i) : Coding.Statement i := by
  refine ⟨hd, fun imm => ?_⟩
  cases imm <;> simp [Coded.wellFormed, encode, Instr.length, h]

/-- The second part, for an operation without one. -/
theorem Coding.of_op {i : Instr} (h : i.format = .op) (hd : decodeWord (opcode i) = some i) : Coding.Statement i := by
  refine ⟨hd, fun imm => ?_⟩
  cases imm <;> simp [Coded.wellFormed, encode, Instr.length, h]

theorem Coding.const : Coding.Statement .const := Coding.of_opi rfl rfl
theorem Coding.call : Coding.Statement .call := Coding.of_opi rfl rfl
theorem Coding.jump : Coding.Statement .jump := Coding.of_opi rfl rfl
theorem Coding.jumpz : Coding.Statement .jumpz := Coding.of_opi rfl rfl
theorem Coding.jumpif : Coding.Statement .jumpif := Coding.of_opi rfl rfl
theorem Coding.load : Coding.Statement .load := Coding.of_op rfl rfl
theorem Coding.stor : Coding.Statement .stor := Coding.of_op rfl rfl
theorem Coding.ret : Coding.Statement .ret := Coding.of_op rfl rfl
theorem Coding.drop : Coding.Statement .drop := Coding.of_op rfl rfl
theorem Coding.swap : Coding.Statement .swap := Coding.of_op rfl rfl
theorem Coding.dup : Coding.Statement .dup := Coding.of_op rfl rfl
theorem Coding.ovr : Coding.Statement .ovr := Coding.of_op rfl rfl
theorem Coding.str : Coding.Statement .str := Coding.of_op rfl rfl
theorem Coding.rts : Coding.Statement .rts := Coding.of_op rfl rfl
theorem Coding.add : Coding.Statement .add := Coding.of_op rfl rfl
theorem Coding.sub : Coding.Statement .sub := Coding.of_op rfl rfl
theorem Coding.mul : Coding.Statement .mul := Coding.of_op rfl rfl
theorem Coding.div : Coding.Statement .div := Coding.of_op rfl rfl
theorem Coding.mod : Coding.Statement .mod := Coding.of_op rfl rfl
theorem Coding.and : Coding.Statement .and := Coding.of_op rfl rfl
theorem Coding.or : Coding.Statement .or := Coding.of_op rfl rfl
theorem Coding.xor : Coding.Statement .xor := Coding.of_op rfl rfl
theorem Coding.not : Coding.Statement .not := Coding.of_op rfl rfl
theorem Coding.sgt : Coding.Statement .sgt := Coding.of_op rfl rfl
theorem Coding.slt : Coding.Statement .slt := Coding.of_op rfl rfl
theorem Coding.sync : Coding.Statement .sync := Coding.of_op rfl rfl
theorem Coding.next : Coding.Statement .next := Coding.of_opi rfl rfl

end Sys2Proof.Laws
end

