-- ==== Sys2Proof/Laws/Step.lean ====
section
/-! SUPPORT. One step: what the fetch does, what the sequencer does at a program counter in memory, and that a step in
an invocation without a host mutation is the sequencer's. -/

namespace Sys2Proof.Machine

variable {α : Type} {s t : State}

theorem andThen_ok {op : Op α} {k : α → State → Host.Outcome State Fault Refusal} {a : α} (h : op s = .ok a t) :
    andThen op k s = k a t := by
  simp only [andThen, h]

theorem andThen_error {op : Op α} {k : α → State → Host.Outcome State Fault Refusal} {f : Fault}
    (h : op s = .error f t) : andThen op k s = .fault f := by
  simp only [andThen, h]

/-- A block that ends in a next state went through its first part. -/
theorem andThen_inv {op : Op α} {k : α → State → Host.Outcome State Fault Refusal} (h : andThen op k s = .next t) :
    ∃ a u, op s = .ok a u ∧ k a u = .next t := by
  unfold andThen at h
  cases hx : op s with
  | ok a u => rw [hx] at h; exact ⟨a, u, rfl, h⟩
  | error f u => rw [hx] at h; cases h

theorem State.withMoves_same (h : s.env.moves = []) : s.withMoves [] = s := by
  simp only [State.withMoves]
  rw [← h]

/-- Inside an invocation, with no host mutation first, the step is the sequencer's (R114, R264). -/
theorem step_executing (h : s.executing) : step s = sequencerStep s.boundaryPassed := by
  obtain ⟨hp, hm⟩ := h
  unfold step turn
  rcases hp with hp | ⟨y, hp⟩ <;> rcases hm with hm | ⟨ms, hm⟩ <;>
    simp only [hp, hm, machineTurn, State.boundaryPassed, List.tail_nil, List.tail_cons, State.withMoves_same,
      State.withMoves_phase]

/-- The fetch (R111): the program counter is advanced first, so at its own cell it fetches itself. -/
theorem fetch_ok (h0 : s.inMemory Config.PC) (h : s.inMemory s.pc.toInt) :
    fetch s = .ok (if s.pc = 0#32 then 1#32 else s.cell s.pc.toInt, s.pc) (s.setCell Config.PC (s.pc + 1#32)) := by
  have hc := constOperand_ok h0 h
  unfold constOperand at hc
  rw [fetch]
  rw [op_bind_ok (reg_ok h0)] at hc ⊢
  rw [op_bind_ok (setReg_ok h0)] at hc ⊢
  rw [op_bind_ok hc]
  rfl

theorem tick_eq (hi : s.Inv) (h : s.inMemory s.pc.toInt) :
    tick s = tickWord (if s.pc = 0#32 then 1#32 else s.cell s.pc.toInt) s.pc
      (s.setCell Config.PC (s.pc + 1#32)) := by
  have h0 : s.inMemory Config.PC := hi.reg_inMemory (i := Config.PC) (by decide) (by decide)
  rw [tick, andThen_ok (fetch_ok h0 h)]

/-- The sequencer at a program counter in memory (R114): a SYNC is consumed, any other word ticked. -/
theorem sequencerStep_eq (hi : s.Inv) (h : s.inMemory s.pc.toInt) :
    sequencerStep s =
      if s.cell s.pc.toInt = opcode .sync then exec .sync (s.setCell Config.PC (s.pc + 1#32)) else tick s := by
  have h0 : s.inMemory Config.PC := hi.reg_inMemory (i := Config.PC) (by decide) (by decide)
  have hn : s.pc ≠ 0xFFFFFFFF#32 := by
    intro hh
    rw [hh] at h
    exact absurd h.1 (by decide)
  rw [sequencerStep, andThen_ok (reg_ok h0), if_neg hn, andThen_ok (memRead_ok h)]
  split
  · rw [andThen_ok (setReg_ok h0)]
  · rfl

/-! ## Placing an instruction -/

theorem State.withWords_mem_wf (ws : List Word) (a : Int) {s : State} (h : s.mem.wf) : (s.withWords a ws).mem.wf := by
  induction ws generalizing s a with
  | nil => exact h
  | cons w ws ih => exact ih (a + 1) (s := s.setCell a w) (Memory.write_wf h)

/-- Placing an instruction keeps the canonical form of memory. -/
theorem State.withFetchWord_mem_wf {s : State} (h : s.mem.wf) (nbits w : Nat) : (s.withFetchWord nbits w).mem.wf := by
  unfold State.withFetchWord State.withInstruction
  have hw : ∀ q a ws, (((s.setCell Config.PC q).withWords a ws).withMoves []).mem.wf := fun q a ws =>
    State.withWords_mem_wf ws a (s := s.setCell Config.PC q) (Memory.write_wf h)
  dsimp only
  split
  · exact hw _ _ _
  · exact hw _ _ _

end Sys2Proof.Machine
end

