-- ==== Sys2Proof/Tests/Slice0.lean ====
section
/-! SUPPORT. The model's own tests: the well-formedness smoke test, the words of spec/30_encoding.md R93 written out,
vectors of spec/95_test_vectors.md (their identifiers stand in the comments), and for every statement with hypotheses
states that meet them, clause by clause. -/

namespace Sys2Proof.Machine

-- One test after another: the kernel evaluates them, and side by side they would hold too many threads.
set_option Elab.async false

/-! ## Well-formedness and decoding -/

/-- R90: an opcode of the format OPI without its operand is refused. -/
theorem test_operand_missing : Coded.wellFormed ⟨.const, none⟩ = false := by decide

/-- R90: an opcode of the format OP with an operand is refused. -/
theorem test_operand_superfluous : Coded.wellFormed ⟨.add, some 3#32⟩ = false := by decide

/-- R93: the stack instructions. -/
theorem test_decode_stack :
    decode [0x00000000#32, 42#32] = .ok (⟨.const, some 42#32⟩, []) ∧
    decode [0x0000000D#32] = .ok (⟨.drop, none⟩, []) ∧ decode [0x0000000E#32] = .ok (⟨.swap, none⟩, []) ∧
    decode [0x0000000F#32] = .ok (⟨.dup, none⟩, []) ∧ decode [0x00000010#32] = .ok (⟨.ovr, none⟩, []) ∧
    decode [0x00000011#32] = .ok (⟨.str, none⟩, []) ∧ decode [0x00000012#32] = .ok (⟨.rts, none⟩, []) :=
  ⟨rfl, rfl, rfl, rfl, rfl, rfl, rfl⟩

/-- R93: the control transfers; an operand is any word (R92). -/
theorem test_decode_control :
    decode [0x00000001#32, 40#32] = .ok (⟨.call, some 40#32⟩, []) ∧
    decode [0x00000002#32, 0xFFFFFFFF#32] = .ok (⟨.jump, some 0xFFFFFFFF#32⟩, []) ∧
    decode [0x00000003#32, 46#32] = .ok (⟨.jumpz, some 46#32⟩, []) ∧
    decode [0x00000004#32, 60#32] = .ok (⟨.jumpif, some 60#32⟩, []) ∧
    decode [0x0000000C#32, 60#32] = .ok (⟨.ret, none⟩, [60#32]) ∧
    decode [0x0000001F#32, 25#32] = .ok (⟨.next, some 25#32⟩, []) :=
  ⟨rfl, rfl, rfl, rfl, rfl, rfl⟩

/-- R93: arithmetic, logic and comparison. -/
theorem test_decode_arithmetic :
    decode [0x00000013#32] = .ok (⟨.add, none⟩, []) ∧ decode [0x00000014#32] = .ok (⟨.sub, none⟩, []) ∧
    decode [0x00000015#32] = .ok (⟨.mul, none⟩, []) ∧ decode [0x00000016#32] = .ok (⟨.div, none⟩, []) ∧
    decode [0x00000017#32] = .ok (⟨.mod, none⟩, []) ∧ decode [0x00000018#32] = .ok (⟨.and, none⟩, []) ∧
    decode [0x00000019#32] = .ok (⟨.or, none⟩, []) ∧ decode [0x0000001A#32] = .ok (⟨.xor, none⟩, []) ∧
    decode [0x0000001B#32] = .ok (⟨.not, none⟩, []) ∧ decode [0x0000001C#32] = .ok (⟨.sgt, none⟩, []) ∧
    decode [0x0000001D#32] = .ok (⟨.slt, none⟩, []) :=
  ⟨rfl, rfl, rfl, rfl, rfl, rfl, rfl, rfl, rfl, rfl, rfl⟩

/-- R93: memory access and the frame. -/
theorem test_decode_memory :
    decode [0x0000000A#32] = .ok (⟨.load, none⟩, []) ∧ decode [0x0000000B#32] = .ok (⟨.stor, none⟩, []) ∧
    decode [0x0000001E#32] = .ok (⟨.sync, none⟩, []) :=
  ⟨rfl, rfl, rfl⟩

/-- R95: the numbers around the gaps of the table, and a missing operand, are rejected by name. -/
theorem test_decode_rejects :
    decode [5#32] = .error (.illegalOpcode 5#32) ∧ decode [9#32] = .error (.illegalOpcode 9#32) ∧
    decode [32#32] = .error (.illegalOpcode 32#32) ∧
    decode [0xFFFFFFFF#32] = .error (.illegalOpcode 0xFFFFFFFF#32) ∧
    decode [0x80000000#32] = .error (.illegalOpcode 0x80000000#32) ∧
    decode [1#32] = .error (.operandMissing .call) ∧ decode [] = .error .noWord :=
  ⟨rfl, rfl, rfl, rfl, rfl, rfl, rfl⟩

/-! ## Small states -/

/-- Words laid out from an address up. -/
def laid (a : Nat) : List Word → List (Nat × Word)
  | [] => []
  | w :: ws => (a, w) :: laid (a + 1) ws

/-- A machine in phase RUN with the given number of cells and the given contents, 0 elsewhere. -/
def machine (n : Nat) (cells : List (Nat × Word)) : State :=
  { State.reset with
    params := { memWords := n, illegalOpcode := .fault, keyWindow := .anyStepBoundary }
    mem := cells.foldl (fun m c => m.write c.1 c.2) []
    phase := .run }

/-- The start state of spec/95_test_vectors.md: code at 20, the data stack from 100, the return stack from 110, and then
further cells. -/
def start (code ds rs : List Word) (cells : List (Nat × Word) := []) : State :=
  machine 128 ([(0, 20#32), (1, BitVec.ofNat 32 (100 + ds.length)), (2, BitVec.ofNat 32 (110 + rs.length))] ++
    laid 20 code ++ laid 100 ds ++ laid 110 rs ++ cells)

/-- A view of the next state. -/
def seen {α : Type} (f : State → α) : Host.Outcome State Fault Refusal → Option α
  | .next t => some (f t)
  | _ => none

/-- The fault, if the step ends in one. -/
def faulted : Host.Outcome State Fault Refusal → Option Fault
  | .fault f => some f
  | _ => none

/-- The three pointers and the cells at the bottom of the two stacks. -/
def view (t : State) : List Int :=
  [t.pc.toInt, t.dp.toInt, t.rp.toInt, (t.cell 100).toInt, (t.cell 101).toInt, (t.cell 110).toInt]

/-! ## Vectors, one step each -/

/-- S1. -/
theorem test_const : seen view (step (start [0, 42] [] [])) = some [22, 101, 110, 42, 0, 0] := by decide +kernel
/-- S12. -/
theorem test_const_at_the_end :
    faulted (step (start [] [] [] [(0, 127#32)])) = some (.outOfRange 128) := by decide +kernel
/-- S4. -/
theorem test_drop : seen view (step (start [13] [5, 9] [])) = some [21, 101, 110, 5, 9, 0] := by decide +kernel
/-- S10. -/
theorem test_drop_underflow :
    faulted (step (start [13] [] [] [(1, 0#32)])) = some (.outOfRange (-1)) ∧
    (stateLeft opDrop (start [13] [] [] [(1, 0#32)])).dp = -1#32 := by decide +kernel
/-- S5. -/
theorem test_swap : seen view (step (start [14] [5, 9] [])) = some [21, 102, 110, 9, 5, 0] := by decide +kernel
/-- S6. -/
theorem test_dup : seen view (step (start [15] [7] [])) = some [21, 102, 110, 7, 7, 0] := by decide +kernel
/-- S7. -/
theorem test_over :
    seen (fun t => (t.dp, t.cell 102)) (step (start [16] [5, 9] [])) = some (103#32, 5#32) := by decide +kernel
/-- S8. -/
theorem test_str : seen view (step (start [17] [3] [])) = some [21, 100, 111, 3, 0, 3] := by decide +kernel
/-- S9. -/
theorem test_rts : seen view (step (start [18] [] [-1])) = some [21, 101, 110, -1, 0, -1] := by decide +kernel
/-- T1. -/
theorem test_call : seen view (step (start [1, 40] [] [])) = some [40, 100, 111, 0, 0, 22] := by decide +kernel
/-- T2. -/
theorem test_jump : seen view (step (start [2, -1] [] [])) = some [-1, 100, 110, 0, 0, 0] := by decide +kernel
/-- T3. -/
theorem test_jumpz : seen view (step (start [3, 46] [0] [])) = some [46, 100, 110, 0, 0, 0] := by decide +kernel
/-- T14. -/
theorem test_jumpz_operand_unread :
    seen (fun t => t.pc) (step (start [] [5] [] [(0, 127#32), (127, 3#32)])) = some 129#32 := by decide +kernel
/-- T5. -/
theorem test_jumpif : seen view (step (start [4, 60] [7] [])) = some [60, 100, 110, 7, 0, 0] := by decide +kernel
/-- T7. -/
theorem test_return : seen view (step (start [12] [] [26])) = some [26, 100, 110, 0, 0, 26] := by decide +kernel
/-- T10. -/
theorem test_next_falls_through :
    seen view (step (start [31, 25] [] [0])) = some [22, 100, 111, 0, 0, -1] := by decide +kernel
/-- T12. -/
theorem test_next_wraps :
    seen view (step (start [31, 25] [] [0x80000000])) = some [25, 100, 111, 0, 0, 2147483647] := by decide +kernel
/-- A-2. -/
theorem test_add :
    seen view (step (start [19] [2147483647, 1] [])) = some [21, 101, 110, -2147483648, 1, 0] := by decide +kernel
/-- A-4. -/
theorem test_sub : seen view (step (start [20] [7, 10] [])) = some [21, 101, 110, -3, 10, 0] := by decide +kernel
/-- A-10. -/
theorem test_mul :
    seen view (step (start [21] [2147483647, 2] [])) = some [21, 101, 110, -2, 2, 0] := by decide +kernel
/-- A-12, A-16. -/
theorem test_div :
    seen view (step (start [22] [-7, 2] [])) = some [21, 101, 110, -3, 2, 0] ∧
    seen view (step (start [22] [0x80000000, -1] [])) = some [21, 101, 110, -2147483648, -1, 0] := by decide +kernel
/-- A-20. -/
theorem test_div_by_zero :
    faulted (step (start [22] [5, 0] [])) = some (.divideByZero 5#32) ∧
    (stateLeft opDiv (start [22] [5, 0] [])).dp = 100#32 := by decide +kernel
/-- A-22, A-29. -/
theorem test_mod :
    seen view (step (start [23] [-7, 3] [])) = some [21, 101, 110, 2, 3, 0] ∧
    seen view (step (start [23] [0x80000000, 0x7FFFFFFF] [])) =
      some [21, 101, 110, 2147483646, 2147483647, 0] := by decide +kernel
/-- A-30. -/
theorem test_mod_by_zero : faulted (step (start [23] [5, 0] [])) = some (.divideByZero 5#32) := by decide +kernel
/-- A-31. -/
theorem test_and :
    seen (fun t => t.cell 100) (step (start [24] [0xFF0F, 0xFF0] [])) = some 0xF00#32 := by decide +kernel
/-- A-34. -/
theorem test_or :
    seen (fun t => t.cell 100) (step (start [25] [0xFF0F, 0xFF0] [])) = some 0xFFFF#32 := by decide +kernel
/-- A-36. -/
theorem test_xor :
    seen (fun t => t.cell 100) (step (start [26] [0xFF0F, 0xFF0] [])) = some 0xF0FF#32 := by decide +kernel
/-- The last line of section 2.3. -/
theorem test_not :
    seen (fun t => (t.dp, t.cell 100)) (step (start [27] [0x0F0F0F0F] [])) = some (101#32, 0xF0F0F0F0#32) := by
  decide +kernel
/-- A-42, A-43. -/
theorem test_sgt :
    seen (fun t => t.cell 100) (step (start [28] [0x7FFFFFFF, 0x80000000] [])) = some (-1#32) ∧
    seen (fun t => t.cell 100) (step (start [28] [-1, 0] [])) = some 0#32 := by decide +kernel
/-- A-47, A-48. -/
theorem test_slt :
    seen (fun t => t.cell 100) (step (start [29] [0x80000000, 0x7FFFFFFF] [])) = some (-1#32) ∧
    seen (fun t => t.cell 100) (step (start [29] [0, -1] [])) = some 0#32 := by decide +kernel
/-- M4: the pointer after the pop. -/
theorem test_load_pointer : seen view (step (start [10] [1] [])) = some [21, 101, 110, 100, 0, 0] := by decide +kernel
/-- X2, stream 65 13 66: the fourth load gives the byte pushed back, and the second turned 13 into 10. -/
theorem test_load_newline :
    let s := { start [10] [16] [] [(17, 1#32)] with rd := [(1, { stream := 7, pushback := none })], nexth := 2 }
    let h := { s with env := { s.env with reads := { s.env.reads with known := [.byte 13#8, .byte 66#8] } } }
    seen (fun t => (t.cell 100, t.rd, t.env.sent)) (step h) =
      some (10#32, [(1, { stream := 7, pushback := some 66#8 })], [.read 7, .read 7]) := by decide +kernel
/-- M2. -/
theorem test_stor :
    seen (fun t => (t.dp, t.cell 64)) (step (start [11] [40, 64] [])) = some (100#32, 40#32) := by decide +kernel
/-- X1, step 1: open-read of "a" leaves handle 1 in `XA` and advances the counter. -/
theorem test_stor_open :
    let s := start [11] [1, 18] [] [(17, 90#32), (90, 97#32), (91, 0#32)]
    let h := { s with env := { s.env with opens := { s.env.opens with known := [.opened 7] } } }
    seen (fun t => (t.cell 17, t.rd, t.nexth, t.env.sent)) (step h) =
      some (1#32, [(1, { stream := 7, pushback := none })], 2, [.openRead [97#32]]) := by decide +kernel
/-- H9. -/
theorem test_sync_enters_routine :
    seen (fun t => (view t, t.phase)) (step (start [30] [] [] [(19, 60#32)])) =
      some ([60, 100, 111, 0, 0, 21], .scan 0) := by decide +kernel
/-- V5: a scanline above the grid is all background, and the phase goes on (R264). -/
theorem test_sync_draws_background :
    seen (fun t => (t.pixel 0 1, t.pixel 319 1, t.pc, t.phase))
        (step { start [30] [] [] [(8, -2#32), (10, 0xFF202020#32)] with phase := .scan 1 }) =
      some (0xFF202020#32, 0xFF202020#32, 21#32, .scan 2) := by decide +kernel
/-- H4, H7. -/
theorem test_illegal_word :
    faulted (step (start [5] [] [])) = some (.illegalOpcode 5#32 20#32) ∧
    seen view (step { start [5] [] [] with
      params := { memWords := 128, illegalOpcode := .nop, keyWindow := .anyStepBoundary } }) =
      some [21, 100, 110, 0, 0, 0] := by decide +kernel
/-- H1, H2. -/
theorem test_halt_and_range :
    seen (fun t => t.phase) (step (start [] [] [] [(0, -1#32)])) = some .halted ∧
    faulted (step (start [] [] [] [(0, -2#32)])) = some (.outOfRange (-2)) := by decide +kernel

/-- The image of S4 handed to the constructor: the frame call, then the DROP at the image's entry address. -/
theorem test_construct :
    let image := [20, 102, 110] ++ List.replicate 17 0 ++ [13] ++ List.replicate 79 0 ++ [5, 9] ++ List.replicate 26 0
    let s := State.construct .fault .idleOnly image
    s.params.memWords = 128 ∧ s.phase = .idle ∧ seen (fun t => t.phase) (step s) = some .run ∧
    seen view (step { s with phase := .run }) = some [21, 101, 110, 5, 9, 0] := by decide +kernel

/-- R280: nothing to present before the first return, nor inside an invocation; the buffer after the last scanline. -/
theorem test_presented :
    State.reset.presented.isNone ∧
    (let s := { start [30] [] [] [(8, 248#32), (10, 7#32)] with phase := .scan 239 }
     s.presented.isNone ∧
     seen (fun t => (t.phase, t.presented.isSome, t.pixel 319 239)) (step s) = some (.idle, true, 7#32)) := by
  decide +kernel

/-! ## States that meet the hypotheses of the statements, clause by clause, at the ends of their ranges -/

theorem witness_DecodeOfEncode :
    Coded.wellFormed ⟨.const, some 0xFFFFFFFF#32⟩ = true ∧ Coded.wellFormed ⟨.sync, none⟩ = true := by decide

theorem witness_RawReadAfterWrite :
    ∃ s t : State, memWrite 127 5#32 s = .ok () t ∧ s.inMemory 127 ∧ s.inMemory 0 :=
  ⟨start [] [] [], (start [] [] []).setCell 127 5#32, rfl, by decide⟩

/-- The addresses just outside memory at both ends. -/
theorem witness_RangeCheckFaults :
    ((-1 : Int) < 0 ∨ ((start [] [] []).params.memWords : Int) ≤ -1) ∧
    ((128 : Int) < 0 ∨ ((start [] [] []).params.memWords : Int) ≤ 128) := by decide

/-- The program counter just past memory; the stack full; the operand in the last cell, and at address 0, where it is the
program counter. -/
theorem witness_ConstPushesOperand :
    (∃ s : State, s.Inv ∧ s.pc = 128#32 ∧ ¬ s.inMemory s.pc.toInt) ∧
    (∃ s : State, s.Inv ∧ s.inMemory s.pc.toInt ∧ s.dp = 128#32 ∧ ¬ s.inMemory s.dp.toInt) ∧
    (∃ s : State, s.Inv ∧ s.inMemory s.pc.toInt ∧ s.inMemory s.dp.toInt ∧ s.pc = 127#32) ∧
    (∃ s : State, s.Inv ∧ s.inMemory s.pc.toInt ∧ s.inMemory s.dp.toInt ∧ s.pc = 0#32) :=
  ⟨⟨start [] [] [] [(0, 128#32)], by decide +kernel⟩, ⟨start [] [] [] [(1, 128#32)], by decide +kernel⟩,
    ⟨start [] [] [] [(0, 127#32)], by decide +kernel⟩, ⟨start [] [] [] [(0, 0#32)], by decide +kernel⟩⟩

/-- The lowest pointer that pops, and the two next to the range. -/
theorem witness_DropReadsTheCellItDiscards :
    (∃ s : State, s.Inv ∧ s.dp = 1#32 ∧ s.inMemory (s.dp - 1#32).toInt) ∧
    (∃ s : State, s.Inv ∧ s.dp = 0#32 ∧ ¬ s.inMemory (s.dp - 1#32).toInt) ∧
    (∃ s : State, s.Inv ∧ s.dp = 129#32 ∧ ¬ s.inMemory (s.dp - 1#32).toInt) :=
  ⟨⟨start [] [] [] [(1, 1#32)], by decide +kernel⟩, ⟨start [] [] [] [(1, 0#32)], by decide +kernel⟩,
    ⟨start [] [] [] [(1, 129#32)], by decide +kernel⟩⟩

/-- Each operand outside memory; off the pointer's cell at the top of memory; each operand in the pointer's cell; and the
pointer overwritten by a word outside memory. -/
theorem witness_SwapExchangesTopTwo :
    (∃ s : State, s.Inv ∧ s.operandOut = some (-1)) ∧ (∃ s : State, s.Inv ∧ s.operandOut = some 128) ∧
    (∃ s : State, s.Inv ∧ s.dp = 1#32 ∧ s.operandOut = some (-1)) ∧
    (∃ s : State, s.Inv ∧ s.twoOperands ∧ s.dp = 128#32 ∧ (s.dp - 2#32).toInt ≠ Config.DP ∧
      (s.dp - 1#32).toInt ≠ Config.DP) ∧
    (∃ s : State, s.Inv ∧ s.twoOperands ∧ (s.dp - 1#32).toInt = Config.DP ∧
      s.inMemory (s.afterBinary (s.popWord Config.DP 1#32)).dp.toInt) ∧
    (∃ s : State, s.Inv ∧ s.twoOperands ∧ (s.dp - 2#32).toInt = Config.DP ∧
      s.inMemory (s.afterBinary (s.popWord Config.DP 1#32)).dp.toInt) ∧
    (∃ s : State, s.Inv ∧ s.twoOperands ∧ (s.dp - 2#32).toInt = Config.DP ∧
      ¬ s.inMemory (s.afterBinary (s.popWord Config.DP 1#32)).dp.toInt) :=
  ⟨⟨start [] [] [] [(1, 0#32)], by decide +kernel⟩, ⟨start [] [] [] [(1, 129#32)], by decide +kernel⟩,
    ⟨start [] [] [] [(1, 1#32)], by decide +kernel⟩,
    ⟨start [] [] [] [(1, 128#32)], by decide +kernel⟩, ⟨start [] [] [] [(1, 2#32)], by decide +kernel⟩,
    ⟨start [] [] [] [(1, 3#32)], by decide +kernel⟩, ⟨start [] [] [] [(1, 3#32), (2, 500#32)], by decide +kernel⟩⟩

/-- The cell read below memory, the cell pushed to above it, and both inside at the ends. -/
theorem witness_DupAndOverPushACopy :
    (∃ s : State, s.Inv ∧ s.dp = 0#32 ∧ ¬ s.inMemory (s.dp - 1#32).toInt ∧ ¬ s.inMemory (s.dp - 2#32).toInt) ∧
    (∃ s : State, s.Inv ∧ s.dp = 1#32 ∧ s.inMemory (s.dp - 1#32).toInt ∧ ¬ s.inMemory (s.dp - 2#32).toInt) ∧
    (∃ s : State, s.Inv ∧ s.dp = 128#32 ∧ s.inMemory (s.dp - 1#32).toInt ∧ s.inMemory (s.dp - 2#32).toInt ∧
      ¬ s.inMemory s.dp.toInt) ∧
    (∃ s : State, s.Inv ∧ s.inMemory s.dp.toInt ∧ s.dp = 127#32 ∧ s.inMemory (s.dp - 1#32).toInt) ∧
    (∃ s : State, s.Inv ∧ s.inMemory s.dp.toInt ∧ s.dp = 2#32 ∧ s.inMemory (s.dp - 2#32).toInt) :=
  ⟨⟨start [] [] [] [(1, 0#32)], by decide +kernel⟩, ⟨start [] [] [] [(1, 1#32)], by decide +kernel⟩,
    ⟨start [] [] [] [(1, 128#32)], by decide +kernel⟩, ⟨start [] [] [] [(1, 127#32)], by decide +kernel⟩,
    ⟨start [] [] [] [(1, 2#32)], by decide +kernel⟩⟩

/-- The popped cell outside memory, the cell pushed to outside it, and both at its ends, for each of the two. -/
theorem witness_StrAndRtsMoveBetweenStacks :
    (∃ s : State, s.Inv ∧ s.dp = 0#32 ∧ ¬ s.inMemory (s.dp - 1#32).toInt) ∧
    (∃ s : State, s.Inv ∧ s.inMemory (s.dp - 1#32).toInt ∧ s.rp = 128#32 ∧ ¬ s.inMemory s.rp.toInt) ∧
    (∃ s : State, s.Inv ∧ s.dp = 1#32 ∧ s.inMemory (s.dp - 1#32).toInt ∧ s.rp = 127#32 ∧ s.inMemory s.rp.toInt) ∧
    (∃ s : State, s.Inv ∧ s.rp = 0#32 ∧ ¬ s.inMemory (s.rp - 1#32).toInt) ∧
    (∃ s : State, s.Inv ∧ s.inMemory (s.rp - 1#32).toInt ∧ s.dp = 128#32 ∧ ¬ s.inMemory s.dp.toInt) ∧
    (∃ s : State, s.Inv ∧ s.rp = 1#32 ∧ s.inMemory (s.rp - 1#32).toInt ∧ s.dp = 127#32 ∧ s.inMemory s.dp.toInt) :=
  ⟨⟨start [] [] [] [(1, 0#32)], by decide +kernel⟩, ⟨start [] [] [] [(2, 128#32)], by decide +kernel⟩,
    ⟨start [] [] [] [(1, 1#32), (2, 127#32)], by decide +kernel⟩,
    ⟨start [] [] [] [(2, 0#32)], by decide +kernel⟩, ⟨start [] [] [] [(1, 128#32)], by decide +kernel⟩,
    ⟨start [] [] [] [(1, 127#32), (2, 1#32)], by decide +kernel⟩⟩

/-- The return stack full, the operand outside memory, and the last cell pushed to. -/
theorem witness_CallPushesThenReadsTarget :
    (∃ s : State, s.Inv ∧ s.rp = 128#32 ∧ ¬ s.inMemory s.rp.toInt) ∧
    (∃ s : State, s.Inv ∧ s.inMemory s.rp.toInt ∧ s.pc = 128#32 ∧
      ¬ s.inMemory (s.pushed Config.RP (s.pc + 1#32)).pc.toInt) ∧
    (∃ s : State, s.Inv ∧ s.inMemory s.rp.toInt ∧ s.rp = 127#32 ∧
      s.inMemory (s.pushed Config.RP (s.pc + 1#32)).pc.toInt) :=
  ⟨⟨start [1, 40] [] [] [(2, 128#32)], by decide +kernel⟩, ⟨start [] [] [] [(0, 128#32)], by decide +kernel⟩,
    ⟨start [1, 40] [] [] [(2, 127#32)], by decide +kernel⟩⟩

/-- The cells read at the ends of memory and just outside. -/
theorem witness_JumpAndReturnSetProgramCounter :
    (∃ s : State, s.Inv ∧ s.pc = 127#32 ∧ s.inMemory s.pc.toInt ∧ s.rp = 1#32 ∧ s.inMemory (s.rp - 1#32).toInt) ∧
    (∃ s : State, s.Inv ∧ s.pc = 128#32 ∧ ¬ s.inMemory s.pc.toInt ∧ s.rp = 0#32 ∧
      ¬ s.inMemory (s.rp - 1#32).toInt) :=
  ⟨⟨start [] [] [] [(0, 127#32), (2, 1#32)], by decide +kernel⟩,
    ⟨start [] [] [] [(0, 128#32), (2, 0#32)], by decide +kernel⟩⟩

/-- The condition outside memory; a zero and a nonzero condition, with the operand in memory and outside. -/
theorem witness_ConditionalJumpsPopAndBranch :
    let holds := fun s : State => s.Inv ∧ s.inMemory (s.dp - 1#32).toInt
    (∃ s : State, s.Inv ∧ s.dp = 0#32 ∧ ¬ s.inMemory (s.dp - 1#32).toInt) ∧
    (∃ s, holds s ∧ s.popWord Config.DP 1#32 = 0#32 ∧ s.inMemory s.pc.toInt) ∧
    (∃ s, holds s ∧ s.popWord Config.DP 1#32 = 0#32 ∧ ¬ s.inMemory s.pc.toInt) ∧
    (∃ s, holds s ∧ s.popWord Config.DP 1#32 ≠ 0#32 ∧ s.inMemory s.pc.toInt) ∧
    (∃ s, holds s ∧ s.popWord Config.DP 1#32 ≠ 0#32 ∧ ¬ s.inMemory s.pc.toInt) :=
  ⟨⟨start [] [] [] [(1, 0#32)], by decide +kernel⟩, ⟨start [] [0] [], by decide +kernel⟩,
    ⟨start [] [0] [] [(0, 128#32)], by decide +kernel⟩,
    ⟨start [] [-1] [], by decide +kernel⟩, ⟨start [] [-1] [] [(0, 128#32)], by decide +kernel⟩⟩

/-- A counter outside memory; one of 0, which falls through; one of 1, which does not, with the operand in memory and
outside. -/
theorem witness_NextDecrementsInPlace :
    (∃ s : State, s.Inv ∧ s.rp = 0#32 ∧ ¬ s.inMemory (s.rp - 1#32).toInt) ∧
    (∃ s : State, s.Inv ∧ s.inMemory (s.rp - 1#32).toInt ∧ (s.cell (s.rp - 1#32).toInt - 1#32).toInt < 0) ∧
    (∃ s : State, s.Inv ∧ s.inMemory (s.rp - 1#32).toInt ∧ 0 ≤ (s.cell (s.rp - 1#32).toInt - 1#32).toInt ∧
      s.inMemory (s.setCell (s.rp - 1#32).toInt (s.cell (s.rp - 1#32).toInt - 1#32)).pc.toInt) ∧
    (∃ s : State, s.Inv ∧ s.inMemory (s.rp - 1#32).toInt ∧ 0 ≤ (s.cell (s.rp - 1#32).toInt - 1#32).toInt ∧
      ¬ s.inMemory (s.setCell (s.rp - 1#32).toInt (s.cell (s.rp - 1#32).toInt - 1#32)).pc.toInt) :=
  ⟨⟨start [] [] [] [(2, 0#32)], by decide +kernel⟩, ⟨start [] [] [0], by decide +kernel⟩,
    ⟨start [] [] [1], by decide +kernel⟩, ⟨start [] [] [1] [(0, 128#32)], by decide +kernel⟩⟩

/-- Operands at the bottom of memory, where they are registers, and at the top; the first or the second operand just
outside. -/
theorem witness_AddSubMulWrap :
    (∃ s : State, s.Inv ∧ s.twoOperands ∧ s.dp = 2#32) ∧ (∃ s : State, s.Inv ∧ s.twoOperands ∧ s.dp = 128#32) ∧
    (∃ s : State, s.Inv ∧ s.dp = 129#32 ∧ s.operandOut = some 128) ∧
    (∃ s : State, s.Inv ∧ s.dp = 1#32 ∧ s.operandOut = some (-1)) :=
  ⟨⟨start [] [] [] [(1, 2#32)], by decide +kernel⟩, ⟨start [] [] [] [(1, 128#32)], by decide +kernel⟩,
    ⟨start [] [] [] [(1, 129#32)], by decide +kernel⟩, ⟨start [] [] [] [(1, 1#32)], by decide +kernel⟩⟩

/-- The divisor -1 under the least dividend. -/
theorem witness_DivRoundsTowardZero :
    ∃ s : State, s.Inv ∧ s.twoOperands ∧ s.popWord Config.DP 1#32 ≠ 0#32 ∧ s.popWord Config.DP 1#32 = -1#32 ∧
      s.popWord Config.DP 2#32 = 0x80000000#32 :=
  ⟨start [] [0x80000000, -1] [], by decide +kernel⟩

theorem witness_ModIsFlooredForPositiveDivisor :
    ∃ s : State, s.Inv ∧ s.twoOperands ∧ 0 < (s.popWord Config.DP 1#32).toInt ∧ s.popWord Config.DP 1#32 = 1#32 :=
  ⟨start [] [-7, 1] [], by decide +kernel⟩

theorem witness_ModByNegativeIsOpen :
    ∃ s : State, s.Inv ∧ s.twoOperands ∧ (s.popWord Config.DP 1#32).toInt < 0 :=
  ⟨start [] [7, -1] [], by decide +kernel⟩

theorem witness_DivideByZeroFaults :
    (∃ s : State, s.Inv ∧ s.dp = 1#32 ∧ s.operandOut = some (-1)) ∧
    (∃ s : State, s.Inv ∧ s.twoOperands ∧ s.popWord Config.DP 1#32 = 0#32) :=
  ⟨⟨start [] [] [] [(1, 1#32)], by decide +kernel⟩, ⟨start [] [5, 0] [], by decide +kernel⟩⟩

theorem witness_LogicIsBitwise :
    (∃ s : State, s.Inv ∧ s.dp = 0#32 ∧ s.operandOut = some (-1) ∧ ¬ s.inMemory (s.dp - 1#32).toInt) ∧
    (∃ s : State, s.Inv ∧ s.twoOperands ∧ s.inMemory (s.dp - 1#32).toInt) :=
  ⟨⟨start [] [] [] [(1, 0#32)], by decide +kernel⟩, ⟨start [] [-1, 0] [], by decide +kernel⟩⟩

theorem witness_ComparisonsGiveTruthWords :
    (∃ s : State, s.Inv ∧ s.dp = 1#32 ∧ s.operandOut = some (-1)) ∧
    (∃ s : State, s.Inv ∧ s.twoOperands ∧ s.popWord Config.DP 2#32 = 0x80000000#32 ∧
      s.popWord Config.DP 1#32 = 0x7FFFFFFF#32) :=
  ⟨⟨start [] [] [] [(1, 1#32)], by decide +kernel⟩, ⟨start [] [0x80000000, 0x7FFFFFFF] [], by decide +kernel⟩⟩

/-- An address popped from outside memory; the pointer's own cell, the last cell, and the first address past it. -/
theorem witness_LoadOfPlainAddress :
    let plain := fun s : State => s.Inv ∧ s.inMemory (s.dp - 1#32).toInt ∧
      s.topAddress ∉ [Config.RN, Config.KY, Config.CO, Config.KB, Config.XO, Config.XS]
    (∃ s : State, s.Inv ∧ s.dp = 0#32 ∧ ¬ s.inMemory (s.dp - 1#32).toInt) ∧
    (∃ s, plain s ∧ s.inMemory s.topAddress ∧ s.topAddress = Config.DP) ∧
    (∃ s, plain s ∧ s.inMemory s.topAddress ∧ s.topAddress = 127) ∧
    (∃ s, plain s ∧ ¬ s.inMemory s.topAddress ∧ s.topAddress = 128) :=
  ⟨⟨start [] [] [] [(1, 0#32)], by decide +kernel⟩, ⟨start [] [1] [], by decide +kernel⟩,
    ⟨start [] [127] [], by decide +kernel⟩, ⟨start [] [128] [], by decide +kernel⟩⟩

theorem witness_LoadOfRandomAndStatus :
    (∃ s : State, s.Inv ∧ s.inMemory (s.dp - 1#32).toInt ∧ s.topAddress = Config.RN) ∧
    (∃ s : State, s.Inv ∧ s.inMemory (s.dp - 1#32).toInt ∧ s.topAddress = Config.XS) :=
  ⟨⟨start [] [11] [], by decide +kernel⟩, ⟨start [] [18] [], by decide +kernel⟩⟩

/-- K1: an empty queue and a queue of two. -/
theorem witness_LoadOfKeyState :
    (∃ s : State, s.Inv ∧ s.inMemory (s.dp - 1#32).toInt ∧ s.topAddress = Config.KY) ∧
    (∃ s : State, s.Inv ∧ s.inMemory (s.dp - 1#32).toInt ∧ s.topAddress = Config.KB ∧ s.keyq = []) ∧
    (∃ s : State, s.Inv ∧ s.inMemory (s.dp - 1#32).toInt ∧ s.topAddress = Config.KB ∧ s.keyq = 65#32 :: [66#32]) :=
  ⟨⟨start [] [12] [], by decide +kernel⟩,
    ⟨start [] [15] [], by decide +kernel⟩, ⟨{ start [] [15] [] with keyq := [65#32, 66#32] }, by decide +kernel⟩⟩

/-- The host's answers, fixed. -/
def answering (s : State) (stdin : List StdinAnswer) (opens : List OpenAnswer) (reads : List ReadAnswer)
    (closes : List CloseAnswer) : State :=
  { s with env := { s.env with stdin := { s.env.stdin with known := stdin }
                               opens := { s.env.opens with known := opens }
                               reads := { s.env.reads with known := reads }
                               closes := { s.env.closes with known := closes } } }

/-- M17, M18, and a failure. -/
theorem witness_LoadOfConsole :
    let console := fun (s : State) (a : StdinAnswer) => s.Inv ∧ s.inMemory (s.dp - 1#32).toInt ∧
      s.topAddress = Config.CO ∧ (tapeNext Config.stdinAnswer s.env.stdin).1 = a
    (∃ s, console s (.byte 200#8)) ∧ (∃ s, console s .eof) ∧ (∃ s, console s (.failure 7#32)) :=
  ⟨⟨answering (start [] [13] []) [.byte 200#8] [] [] [], by decide +kernel⟩,
    ⟨answering (start [] [13] []) [.eof] [] [] [], by decide +kernel⟩,
    ⟨answering (start [] [13] []) [.failure 7#32] [] [] [], by decide +kernel⟩⟩

/-- A machine with handle 1 reading stream 7 and handle 2 writing stream 8, and `XA` as given. -/
def withStreams (ds : List Word) (xa : Word) (pushback : Option Byte) : State :=
  { start [] ds [] [(17, xa)] with
    rd := [(1, { stream := 7, pushback := pushback })]
    wr := [(2, 8)]
    nexth := 3 }

/-- No reader for a negative handle and for a handle that writes; a byte pushed back. -/
theorem witness_LoadOfExtDataWithoutHost :
    let data := fun s : State => s.Inv ∧ s.inMemory (s.dp - 1#32).toInt ∧ s.topAddress = Config.XO
    (∃ s, data s ∧ s.xaHandle = none ∧ s.xaReader = none) ∧
    (∃ s, data s ∧ s.xaHandle = some 2 ∧ s.xaReader = none) ∧
    (∃ s, data s ∧ s.xaHandle = some 1 ∧ s.xaReader = some { stream := 7, pushback := some 66#8 } ∧
      (66#8 : Byte) ≠ 13#8) :=
  ⟨⟨withStreams [16] (-1) none, by decide +kernel⟩, ⟨withStreams [16] 2 none, by decide +kernel⟩,
    ⟨withStreams [16] 1 (some 66#8), by decide +kernel⟩⟩

theorem witness_LoadOfExtDataFromHost :
    let data := fun (s : State) (a : ReadAnswer) => s.Inv ∧ s.inMemory (s.dp - 1#32).toInt ∧
      s.topAddress = Config.XO ∧ s.xaReader = some { stream := 7, pushback := none } ∧
      (tapeNext (Config.readAnswer 7) s.env.reads).1 = a
    (∃ s, data s (.byte 255#8)) ∧ (∃ s, data s .eof) ∧ (∃ s, data s .failure) :=
  ⟨⟨answering (withStreams [16] 1 none) [] [] [.byte 255#8] [], by decide +kernel⟩,
    ⟨answering (withStreams [16] 1 none) [] [] [.eof] [], by decide +kernel⟩,
    ⟨answering (withStreams [16] 1 none) [] [] [.failure] [], by decide +kernel⟩⟩

/-- X2: after a carriage return of the host, and after one that had been pushed back (stream 13 13 10), each with another
byte, a line feed, the end, a failure. -/
theorem witness_CarriageReturnReadsAsLineFeed :
    let data := fun (s : State) (e : ReadStream) => s.Inv ∧ s.inMemory (s.dp - 1#32).toInt ∧
      s.topAddress = Config.XO ∧ s.xaHandle = some 1 ∧ s.xaReader = some e
    let given := fun (s : State) (a : ReadAnswer) => data s { stream := 7, pushback := none } ∧
      (tapeNext (Config.readAnswer 7) s.env.reads).1 = .byte 13#8 ∧
      (tapeNext (Config.readAnswer 7) (s.askedRead 7).env.reads).1 = a
    let pushed := fun (s : State) (a : ReadAnswer) => data s { stream := 7, pushback := some 13#8 } ∧
      (tapeNext (Config.readAnswer 7) s.env.reads).1 = a
    ((∃ s, given s (.byte 13#8)) ∧ (∃ s, given s (.byte 10#8)) ∧ (∃ s, given s .eof) ∧ (∃ s, given s .failure)) ∧
    (∃ s, pushed s (.byte 13#8)) ∧ (∃ s, pushed s (.byte 10#8)) ∧ (∃ s, pushed s .eof) ∧ (∃ s, pushed s .failure) :=
  ⟨⟨⟨answering (withStreams [16] 1 none) [] [] [.byte 13#8, .byte 13#8] [], by decide +kernel⟩,
      ⟨answering (withStreams [16] 1 none) [] [] [.byte 13#8, .byte 10#8] [], by decide +kernel⟩,
      ⟨answering (withStreams [16] 1 none) [] [] [.byte 13#8, .eof] [], by decide +kernel⟩,
      ⟨answering (withStreams [16] 1 none) [] [] [.byte 13#8, .failure] [], by decide +kernel⟩⟩,
    ⟨answering (withStreams [16] 1 (some 13#8)) [] [] [.byte 13#8] [], by decide +kernel⟩,
    ⟨answering (withStreams [16] 1 (some 13#8)) [] [] [.byte 10#8] [], by decide +kernel⟩,
    ⟨answering (withStreams [16] 1 (some 13#8)) [] [] [.eof] [], by decide +kernel⟩,
    ⟨answering (withStreams [16] 1 (some 13#8)) [] [] [.failure] [], by decide +kernel⟩⟩

/-- An operand outside memory; M5 and M7 (the registers `PC` and `DP`), and the first address past memory. -/
theorem witness_StorToPlainAddress :
    let plain := fun s : State => s.Inv ∧ s.twoOperands ∧
      s.topAddress ∉ [Config.CO, Config.AU, Config.XO, Config.XS]
    (∃ s : State, s.Inv ∧ s.dp = 1#32 ∧ s.operandOut = some (-1)) ∧
    (∃ s, plain s ∧ s.inMemory s.topAddress ∧ s.topAddress = Config.PC) ∧
    (∃ s, plain s ∧ s.inMemory s.topAddress ∧ s.topAddress = Config.DP) ∧
    (∃ s, plain s ∧ ¬ s.inMemory s.topAddress ∧ s.topAddress = 128) :=
  ⟨⟨start [] [] [] [(1, 1#32)], by decide +kernel⟩, ⟨start [] [77, 0] [], by decide +kernel⟩, ⟨start [] [50, 1] [], by decide +kernel⟩,
    ⟨start [] [1, 128] [], by decide +kernel⟩⟩

theorem witness_StorToConsole : ∃ s : State, s.Inv ∧ s.twoOperands ∧ s.topAddress = Config.CO :=
  ⟨start [] [0x141, 13] [], by decide +kernel⟩

/-- The last byte that fits, and the first that does not. -/
theorem witness_StorToAudio :
    (∃ s : State, s.Inv ∧ s.twoOperands ∧ s.topAddress = Config.AU ∧ s.acur < 8000 ∧ s.acur = 7999) ∧
    (∃ s : State, s.Inv ∧ s.twoOperands ∧ s.topAddress = Config.AU ∧ s.acur = 8000) :=
  ⟨⟨{ start [] [5, 14] [] with acur := 7999 }, by decide +kernel⟩,
    ⟨{ start [] [5, 14] [] with acur := 8000 }, by decide +kernel⟩⟩

theorem witness_StorToExtData :
    (∃ s : State, s.Inv ∧ s.twoOperands ∧ s.topAddress = Config.XO ∧ s.xaWriter = none) ∧
    (∃ s : State, s.Inv ∧ s.twoOperands ∧ s.topAddress = Config.XO ∧ s.xaWriter = some 8) :=
  ⟨⟨withStreams [0x141, 16] 1 none, by decide +kernel⟩, ⟨withStreams [0x141, 16] 2 none, by decide +kernel⟩⟩

/-- M19 with the least word that is no command. -/
theorem witness_StorOfUnknownCommand :
    ∃ s : State, s.Inv ∧ s.twoOperands ∧ s.topAddress = Config.XS ∧ s.popWord Config.DP 2#32 = 3#32 ∧
      s.popWord Config.DP 2#32 ∉ [0#32, 1#32, 2#32] :=
  ⟨start [] [3, 18] [], by decide +kernel⟩

/-- A handle in neither table, in the read table, in the write table, and in both. -/
theorem witness_CloseDiscardsBothStreams :
    let close := fun s : State => s.Inv ∧ s.twoOperands ∧ s.topAddress = Config.XS ∧ s.popWord Config.DP 2#32 = 0#32
    (∃ s, close s ∧ s.xaReader = none ∧ s.xaWriter = none) ∧
    (∃ s, close s ∧ s.xaHandle = some 1 ∧ s.xaReader = some { stream := 7, pushback := none } ∧ s.xaWriter = none) ∧
    (∃ s, close s ∧ s.xaHandle = some 2 ∧ s.xaReader = none ∧ s.xaWriter = some 8) ∧
    (∃ s, close s ∧ s.xaHandle = some 1 ∧ s.xaReader = some { stream := 7, pushback := none } ∧
      s.xaWriter = some 9) :=
  ⟨⟨withStreams [0, 18] 3 none, by decide +kernel⟩, ⟨withStreams [0, 18] 1 none, by decide +kernel⟩,
    ⟨withStreams [0, 18] 2 none, by decide +kernel⟩,
    ⟨{ withStreams [0, 18] 1 none with wr := [(1, 9)] }, by decide +kernel⟩⟩

/-- X1, steps 1 and 10: an open that succeeds and one that fails. -/
theorem witness_OpenReadAllocatesHandle :
    let opens := fun (s : State) (a : OpenAnswer) => s.Inv ∧ s.twoOperands ∧ s.topAddress = Config.XS ∧
      s.popWord Config.DP 2#32 = 1#32 ∧ 0 ≤ (s.cell Config.XA).toInt ∧
      s.afterStorePops.pathAt (s.cell Config.XA).toInt [] ∧ (tapeNext (Config.openAnswer []) s.env.opens).1 = a
    (∃ s, opens s (.opened 7)) ∧ (∃ s, opens s .failure) := by
  have path : ∀ s : State, s.cell 90 = 0#32 → s.pathAt 90 [] := fun s h =>
    ⟨fun i hi => absurd hi (Nat.not_lt_zero i), fun _ => h⟩
  refine ⟨⟨answering (start [] [1, 18] [] [(17, 90#32)]) [] [.opened 7] [] [], by decide +kernel, by decide +kernel,
      by decide +kernel, by decide +kernel, by decide +kernel, path _ (by decide +kernel), rfl⟩,
    ⟨answering (start [] [1, 18] [] [(17, 90#32)]) [] [.failure] [] [], by decide +kernel, by decide +kernel,
      by decide +kernel, by decide +kernel, by decide +kernel, path _ (by decide +kernel), rfl⟩⟩

/-- X3: a path that ends with memory, at an open for writing. -/
theorem witness_OpenWriteAllocatesHandle :
    let opens := fun (s : State) (a : OpenAnswer) => s.Inv ∧ s.twoOperands ∧ s.topAddress = Config.XS ∧
      s.popWord Config.DP 2#32 = 2#32 ∧ 0 ≤ (s.cell Config.XA).toInt ∧
      s.afterStorePops.pathAt (s.cell Config.XA).toInt [97#32, 98#32] ∧
      (tapeNext (Config.openAnswer [97#32, 98#32]) s.env.opens).1 = a
    (∃ s, opens s (.opened 8)) ∧ (∃ s, opens s .failure) := by
  have path : ∀ s : State, s.params.memWords = 128 → s.cell 126 = 97#32 → s.cell 127 = 98#32 →
      s.pathAt 126 [97#32, 98#32] := by
    intro s hn h1 h2
    refine ⟨fun i hi => ?_, fun hm => ?_⟩
    · rcases i with _ | _ | i
      · exact ⟨⟨by omega, by omega⟩, congrArg some h1.symm, by rw [show (126 + ((0 : Nat) : Int)) = 126 by rfl, h1]; decide⟩
      · exact ⟨⟨by omega, by omega⟩, congrArg some h2.symm, by
          rw [show (126 + ((0 + 1 : Nat) : Int)) = 127 by rfl, h2]; decide⟩
      · simp at hi
    · have := hm.2
      simp only [List.length_cons, List.length_nil] at this
      omega
  refine ⟨⟨answering (start [] [2, 18] [] [(17, 126#32), (126, 97#32), (127, 98#32)]) [] [.opened 8] [] [],
      by decide +kernel, by decide +kernel, by decide +kernel, by decide +kernel, by decide +kernel,
      path _ rfl (by decide +kernel) (by decide +kernel), rfl⟩,
    ⟨answering (start [] [2, 18] [] [(17, 126#32), (126, 97#32), (127, 98#32)]) [] [.failure] [] [],
      by decide +kernel, by decide +kernel, by decide +kernel, by decide +kernel, by decide +kernel,
      path _ rfl (by decide +kernel) (by decide +kernel), rfl⟩⟩

theorem witness_PathStringExistsOrFaults :
    (∃ s : State, s.Inv ∧ s.twoOperands ∧ s.topAddress = Config.XS ∧ s.popWord Config.DP 2#32 ∈ [1#32, 2#32] ∧
      (s.cell Config.XA).toInt = -1 ∧ (s.cell Config.XA).toInt < 0) ∧ (0 : Int) ≤ 0 :=
  ⟨⟨start [] [2, 18] [] [(17, -1#32)], by decide +kernel⟩, by decide⟩

/-- A machine whose grid and tiles are cells of 0: the whole grid shows tile 0 at address 1500. -/
def gridMachine (cells : List (Nat × Word)) : State :=
  machine 2048 ([(0, 20#32), (1, 100#32), (2, 120#32), (3, 200#32), (4, 1500#32)] ++ cells)

/-- The launch premise of R342 holds of it, at the first and the last cell of the grid alike. -/
theorem gridMachine_premise : (gridMachine []).gridLaunchPremise := by
  intro r c hr hc
  have hz : ∀ a : Int, 200 ≤ a → (gridMachine []).cell a = 0#32 := by
    intro a ha
    have hm : (gridMachine []).mem = [(0, 20#32), (1, 100#32), (2, 120#32), (3, 200#32), (4, 1500#32)] := by
      decide +kernel
    unfold State.cell Memory.read
    rw [hm]
    have h : ∀ k, k < 5 → a.toNat ≠ k := by omega
    simp [tableFind_cons, h 0, h 1, h 2, h 3, h 4]
  have h3 : ((gridMachine []).cell Config.GP).toInt = 200 := by decide +kernel
  have h4 : ((gridMachine []).cell Config.GT).toInt = 1500 := by decide +kernel
  have h9 : ((gridMachine []).cell Config.GS).toInt = 0 := by decide +kernel
  have hg : (gridMachine []).gridAddr r c = 200 + (r : Int) * 41 + c := by
    unfold State.gridAddr
    rw [h3, h9]
    rfl
  have hn : (gridMachine []).params.memWords = 2048 := rfl
  rw [hg]
  refine ⟨⟨by omega, by omega⟩, fun _ i hi => ?_⟩
  rw [hz _ (by omega)]
  unfold State.tileAddr
  rw [h4]
  have : (0#32 : Word).toNat % 1073741824 = 0 := rfl
  rw [this]
  exact ⟨by omega, by omega⟩

/-- Before a static frame, and before the first and the last scanline. -/
theorem witness_LaunchPremiseMakesFrameReadable :
    (∃ s : State, s.Inv ∧ s.gridLaunchPremise ∧ s.phase = .run ∧ s.cell Config.RV = 0#32) ∧
    (∃ s : State, s.Inv ∧ s.gridLaunchPremise ∧ s.phase = .scan 0) ∧
    (∃ s : State, s.Inv ∧ s.gridLaunchPremise ∧ s.phase = .scan 239) :=
  ⟨⟨gridMachine [], by decide +kernel, gridMachine_premise, rfl, by decide +kernel⟩,
    ⟨{ gridMachine [] with phase := .scan 0 }, by decide +kernel, gridMachine_premise, rfl⟩,
    ⟨{ gridMachine [] with phase := .scan 239 }, by decide +kernel, gridMachine_premise, rfl⟩⟩

/-- A frame that reads the whole grid and the tile it shows, and one whose grid lies below the screen (V9). -/
theorem witness_SyncDrawsStaticFrame :
    (∃ s : State, s.Inv ∧ s.phase = .run ∧ s.cell Config.RV = 0#32 ∧ (∀ y, y < 240 → s.scanlineReadable y) ∧
      s.gridLine 0 = 0) ∧
    (∃ s : State, s.Inv ∧ s.phase = .run ∧ s.cell Config.RV = 0#32 ∧ (∀ y, y < 240 → s.scanlineReadable y) ∧
      s.gridLine 0 = 248) := by
  refine ⟨⟨gridMachine [], by decide +kernel, rfl, by decide +kernel,
      fun y _ => scanlineReadable_of_gridLaunchPremise gridMachine_premise y, by decide +kernel⟩,
    ⟨start [30] [] [] [(8, 248#32)], by decide +kernel, rfl, by decide +kernel, fun y _ h0 h31 => ?_,
      by decide +kernel⟩⟩
  have h8 : ((start [30] [] [] [(8, 248#32)]).cell Config.SY).toInt = 248 := by decide +kernel
  unfold State.gridLine at h31
  rw [h8, Int.fdiv_eq_ediv_of_nonneg _ (by decide)] at h31
  omega

theorem witness_SyncEntersRasterRoutine :
    (∃ s : State, s.Inv ∧ s.phase = .run ∧ s.cell Config.RV ≠ 0#32 ∧ s.inMemory s.rp.toInt) ∧
    (∃ s : State, s.Inv ∧ s.phase = .run ∧ s.cell Config.RV ≠ 0#32 ∧ s.rp = 128#32 ∧ ¬ s.inMemory s.rp.toInt) :=
  ⟨⟨start [30] [] [] [(19, 60#32)], by decide +kernel⟩, ⟨start [30] [] [] [(2, 128#32), (19, 60#32)], by decide +kernel⟩⟩

/-- The first and the last scanline. -/
theorem witness_SyncDrawsOneScanline :
    (∃ s : State, s.Inv ∧ s.phase = .scan 0 ∧ s.scanlineReadable 0) ∧
    (∃ s : State, s.Inv ∧ s.phase = .scan 239 ∧ s.scanlineReadable 239) := by
  refine ⟨⟨{ gridMachine [] with phase := .scan 0 }, by decide +kernel, rfl, ?_⟩,
    ⟨{ gridMachine [] with phase := .scan 239 }, by decide +kernel, rfl, ?_⟩⟩ <;>
  · unfold State.scanlineReadable
    decide +kernel

/-- V12, with the grid itself past the end of memory: a scanline of the routine, and the last ones of a static frame. -/
theorem witness_SyncFaultsOnUnreadableScanline :
    (∃ s : State, s.Inv ∧ s.phase = .scan 0 ∧ ¬ s.scanlineReadable 0) ∧
    (∃ s : State, s.Inv ∧ s.phase = .run ∧ s.cell Config.RV = 0#32 ∧ s.scanlineReadable 0 ∧
      ∃ y, y < 240 ∧ ¬ s.scanlineReadable y) := by
  refine ⟨⟨{ gridMachine [(3, 2008#32)] with phase := .scan 0 }, by decide +kernel, rfl, ?_⟩,
    ⟨gridMachine [(3, 900#32)], by decide +kernel, rfl, by decide +kernel, ?_, 239, by decide, ?_⟩⟩ <;>
  · unfold State.scanlineReadable
    decide +kernel

theorem executing_run {s : State} (hp : s.phase = .run) (hm : s.env.moves = []) : s.executing :=
  ⟨.inl hp, .inl hm⟩

/-- At an instruction in the last cell, and at the program counter's own cell. -/
theorem witness_StepExecutesDecodedInstruction :
    (∃ s : State, s.Inv ∧ s.executing ∧ s.inMemory s.pc.toInt ∧ s.pc = 127#32 ∧ s.pc ≠ 0#32 ∧
      decodeWord (s.cell s.pc.toInt) = some .sync) ∧
    (∃ s : State, s.Inv ∧ s.executing ∧ s.inMemory s.pc.toInt ∧ s.pc = 0#32) :=
  ⟨⟨start [] [] [] [(0, 127#32), (127, 30#32)], by decide +kernel, executing_run rfl rfl, by decide +kernel⟩,
    ⟨start [] [] [] [(0, 0#32)], by decide +kernel, executing_run rfl rfl, by decide +kernel⟩⟩

/-- H1, H2, H3. -/
theorem witness_StepTestsHaltThenRange :
    (∃ s : State, s.Inv ∧ s.executing ∧ s.pc = 0xFFFFFFFF#32) ∧
    (∃ s : State, s.Inv ∧ s.executing ∧ s.pc = 0xFFFFFFFE#32 ∧ s.pc ≠ 0xFFFFFFFF#32 ∧ ¬ s.inMemory s.pc.toInt) ∧
    (∃ s : State, s.Inv ∧ s.executing ∧ s.pc = 128#32 ∧ s.pc ≠ 0xFFFFFFFF#32 ∧ ¬ s.inMemory s.pc.toInt) :=
  ⟨⟨start [] [] [] [(0, -1#32)], by decide +kernel, executing_run rfl rfl, by decide +kernel⟩,
    ⟨start [] [] [] [(0, -2#32)], by decide +kernel, executing_run rfl rfl, by decide +kernel⟩,
    ⟨start [] [] [] [(0, 128#32)], by decide +kernel, executing_run rfl rfl, by decide +kernel⟩⟩

/-- H4 and H7. -/
theorem witness_StepOnIllegalWord :
    (∃ s : State, s.Inv ∧ s.executing ∧ s.inMemory s.pc.toInt ∧ decodeWord (s.cell s.pc.toInt) = none ∧
      s.params.illegalOpcode = .fault) ∧
    (∃ s : State, s.Inv ∧ s.executing ∧ s.inMemory s.pc.toInt ∧ decodeWord (s.cell s.pc.toInt) = none ∧
      s.params.illegalOpcode = .nop) :=
  ⟨⟨start [5] [] [], by decide +kernel, executing_run rfl rfl, by decide +kernel⟩,
    ⟨{ start [32] [] [] with params := { memWords := 128, illegalOpcode := .nop, keyWindow := .idleOnly } },
      by decide +kernel, executing_run rfl rfl, by decide +kernel⟩⟩

/-- The host's moves, fixed. -/
def moving (s : State) (p : Phase) (w : HostKeyWindow) (ms : List HostMove) : State :=
  { s with params := { s.params with keyWindow := w }, phase := p, env := { s.env with moves := ms } }

theorem witness_IdleInvokesAndTerminalPhasesStay :
    (∃ s : State, s.phase = .idle ∧ s.env.moves = []) ∧ (∃ s : State, s.phase = .idle ∧ s.env.moves = [.goOn]) ∧
    (∃ s : State, s.phase = .halted) ∧ (∃ s : State, s.phase = .fault (.outOfRange 128)) :=
  ⟨⟨State.reset, rfl, rfl⟩, ⟨moving State.reset .idle .idleOnly [.goOn], rfl, rfl⟩,
    ⟨moving State.reset .halted .idleOnly [], rfl⟩, ⟨moving State.reset (.fault (.outOfRange 128)) .idleOnly [], rfl⟩⟩

/-- Inside the window by the policy and by the phase, and outside it, with each of the two mutations. -/
theorem witness_HostMutatesKeysInItsWindow :
    (∃ s : State, (∃ y, s.phase = .scan y) ∧ s.params.keyWindow = .anyStepBoundary ∧
      s.env.moves = [.setKeys 5#32]) ∧
    (∃ s : State, s.phase = .idle ∧ s.params.keyWindow = .idleOnly ∧ s.env.moves = [.press 65#32]) ∧
    (∃ s : State, s.phase = .run ∧ s.params.keyWindow = .idleOnly ∧ s.phase ≠ .idle ∧
      s.env.moves = [.setKeys 5#32]) ∧
    (∃ s : State, (∃ y, s.phase = .scan y) ∧ s.params.keyWindow = .idleOnly ∧ s.phase ≠ .idle ∧
      s.env.moves = [.press 65#32]) :=
  ⟨⟨moving State.reset (.scan 239) .anyStepBoundary [.setKeys 5#32], ⟨239, rfl⟩, rfl, rfl⟩,
    ⟨moving State.reset .idle .idleOnly [.press 65#32], rfl, rfl, rfl⟩,
    ⟨moving State.reset .run .idleOnly [.setKeys 5#32], rfl, rfl, by decide, rfl⟩,
    ⟨moving State.reset (.scan 0) .idleOnly [.press 65#32], ⟨0, rfl⟩, rfl, by decide, rfl⟩⟩

/-! ### Next states that the frames and the invariants speak of -/

/-- The block ends in a next state. -/
def completes : Host.Outcome State Fault Refusal → Bool
  | .next _ => true
  | _ => false

theorem next_of_completes {o : Host.Outcome State Fault Refusal} (h : completes o = true) : ∃ t, o = .next t := by
  cases o with
  | next t => exact ⟨t, rfl⟩
  | fault f => cases h
  | refused r => cases h

theorem witness_ArithmeticFrame :
    ∀ i ∈ [Instr.add, .sub, .mul, .div, .mod, .and, .or, .xor, .sgt, .slt, .not],
      (start [] [5, 9] []).Inv ∧ ∃ t, exec i (start [] [5, 9] []) = .next t := by
  have h : ∀ i ∈ [Instr.add, .sub, .mul, .div, .mod, .and, .or, .xor, .sgt, .slt, .not],
      (start [] [5, 9] []).Inv ∧ completes (exec i (start [] [5, 9] [])) = true := by decide +kernel
  exact fun i hi => ⟨(h i hi).1, next_of_completes (h i hi).2⟩

theorem witness_StackFrame :
    ∀ i ∈ [Instr.const, .drop, .swap, .dup, .ovr, .str, .rts],
      (start [] [5, 9] [7]).Inv ∧ ∃ t, exec i (start [] [5, 9] [7]) = .next t := by
  have h : ∀ i ∈ [Instr.const, .drop, .swap, .dup, .ovr, .str, .rts],
      (start [] [5, 9] [7]).Inv ∧ completes (exec i (start [] [5, 9] [7])) = true := by decide +kernel
  exact fun i hi => ⟨(h i hi).1, next_of_completes (h i hi).2⟩

theorem witness_ControlFrame :
    ∀ i ∈ [Instr.call, .jump, .jumpz, .jumpif, .ret, .next],
      (start [] [5] [7]).Inv ∧ ∃ t, exec i (start [] [5] [7]) = .next t := by
  have h : ∀ i ∈ [Instr.call, .jump, .jumpz, .jumpif, .ret, .next],
      (start [] [5] [7]).Inv ∧ completes (exec i (start [] [5] [7])) = true := by decide +kernel
  exact fun i hi => ⟨(h i hi).1, next_of_completes (h i hi).2⟩

/-- A plain access, and one of each port the clauses name. -/
theorem witness_LoadAndStorFrame :
    (∀ w ∈ [64#32, 15#32, 16#32], (start [] [w] []).Inv ∧ ∃ t, exec .load (start [] [w] []) = .next t) ∧
    (∀ w ∈ [64#32, 14#32, 18#32], (start [] [3, w] []).Inv ∧ ∃ t, exec .stor (start [] [3, w] []) = .next t) := by
  have h1 : ∀ w ∈ [64#32, 15#32, 16#32],
      (start [] [w] []).Inv ∧ completes (exec .load (start [] [w] [])) = true := by
    simp only [List.forall_mem_cons, List.not_mem_nil, false_imp_iff, implies_true, and_true]
    decide +kernel
  have h2 : ∀ w ∈ [64#32, 14#32, 18#32],
      (start [] [3, w] []).Inv ∧ completes (exec .stor (start [] [3, w] [])) = true := by
    simp only [List.forall_mem_cons, List.not_mem_nil, false_imp_iff, implies_true, and_true]
    decide +kernel
  exact ⟨fun w hw => ⟨(h1 w hw).1, next_of_completes (h1 w hw).2⟩,
    fun w hw => ⟨(h2 w hw).1, next_of_completes (h2 w hw).2⟩⟩

/-- A scanline SYNC and the entry into the routine. -/
theorem witness_SyncFrame :
    (∃ s t : State, s.Inv ∧ s.phase ≠ .run ∧ exec .sync s = .next t) ∧
    (∃ s t : State, s.Inv ∧ s.phase = .run ∧ s.cell Config.RV ≠ 0#32 ∧ exec .sync s = .next t) := by
  have h1 : ({ gridMachine [(8, -2#32)] with phase := .scan 1 } : State).Inv ∧
      completes (exec .sync { gridMachine [(8, -2#32)] with phase := .scan 1 }) = true := by decide +kernel
  have h2 : (start [30] [] [] [(19, 60#32)]).Inv ∧ (start [30] [] [] [(19, 60#32)]).cell Config.RV ≠ 0#32 ∧
      completes (exec .sync (start [30] [] [] [(19, 60#32)])) = true := by decide +kernel
  obtain ⟨t, ht⟩ := next_of_completes h1.2
  obtain ⟨u, hu⟩ := next_of_completes h2.2.2
  refine ⟨⟨_, t, h1.1, ?_, ht⟩, ⟨_, u, h2.1, rfl, h2.2.1, hu⟩⟩
  intro h
  cases h

/-- The smallest image an instance may have, and the largest. -/
theorem witness_ResetState :
    (∃ image : List Word, 20 ≤ image.length ∧ image.length ≤ 2147483648 ∧ image.length = 20) ∧
    (∃ image : List Word, 20 ≤ image.length ∧ image.length ≤ 2147483648 ∧ image.length = 2147483648) :=
  ⟨⟨List.replicate 20 0#32, by rw [List.length_replicate]; decide⟩,
    ⟨List.replicate 2147483648 0#32, by rw [List.length_replicate]; decide⟩⟩

/-- The first and the last cell of an image. -/
theorem witness_ConstructionTakesTheImage :
    ∃ image : List Word, (0 < image.length) ∧ (127 < image.length) ∧
      (127, 9#32) ∈ (State.construct .fault .idleOnly image).mem :=
  ⟨List.replicate 127 0#32 ++ [9#32], by decide +kernel⟩

/-- A step that adds, from a state with streams on both sides. -/
theorem witness_StepKeepsInvariant :
    ∃ s t : State, s.Inv ∧ s.handlesApart ∧ step s = .next t := by
  have h : (withStreams [5, 9] 1 none).Inv ∧ (withStreams [5, 9] 1 none).handlesApart ∧
      completes (step ((withStreams [5, 9] 1 none).setCell 20 19#32)) = true ∧
      ((withStreams [5, 9] 1 none).setCell 20 19#32).Inv := by decide +kernel
  obtain ⟨t, ht⟩ := next_of_completes h.2.2.1
  exact ⟨_, t, h.2.2.2, h.2.1, ht⟩

theorem witness_StepKeepsHandlesApart : ∃ s t : State, s.Inv ∧ s.handlesApart ∧ step s = .next t :=
  witness_StepKeepsInvariant

/-- An open inside a step: the handle after it is the counter's. -/
theorem witness_HandlesAreNeverReused :
    ∃ s t : State, s.Inv ∧ step s = .next t ∧ tableFind t.rd 3 ≠ none := by
  have h : (answering ((withStreams [1, 18] 90 none).setCell 20 11#32) [] [.opened 9] [] []).Inv ∧
      seen (fun t => tableFind t.rd 3)
        (step (answering ((withStreams [1, 18] 90 none).setCell 20 11#32) [] [.opened 9] [] [])) =
      some (some { stream := 9, pushback := none }) := by decide +kernel
  generalize answering ((withStreams [1, 18] 90 none).setCell 20 11#32) [] [.opened 9] [] [] = s at h
  cases hs : step s with
  | next t =>
    rw [hs] at h
    have hf : tableFind t.rd 3 = some { stream := 9, pushback := none } := Option.some.inj h.2
    refine ⟨s, t, h.1, hs, ?_⟩
    rw [hf]
    simp
  | fault f => rw [hs] at h; cases h.2
  | refused r => rw [hs] at h; cases h.2

theorem witness_OnlySyncDrawsOrMovesThePhase :
    ∃ (i : Instr) (s t : State), i ≠ .sync ∧ s.Inv ∧ exec i s = .next t := by
  obtain ⟨h, t, ht⟩ := witness_ArithmeticFrame .add (by decide)
  exact ⟨.add, _, t, by decide, h, ht⟩

/-- The second clause: a step inside an invocation under `idle_only`. -/
theorem witness_KeyStateBelongsToHost :
    (∃ (i : Instr) (s t : State), s.Inv ∧ exec i s = .next t) ∧
    (∃ s t : State, s.Inv ∧ s.params.keyWindow = .idleOnly ∧ s.phase ≠ .idle ∧ step s = .next t) := by
  have h : (moving (start [19] [5, 9] []) .run .idleOnly []).Inv ∧
      completes (step (moving (start [19] [5, 9] []) .run .idleOnly [])) = true := by decide +kernel
  obtain ⟨t, ht⟩ := next_of_completes h.2
  obtain ⟨h', t', ht'⟩ := witness_ArithmeticFrame .add (by decide)
  exact ⟨⟨.add, _, t', h', ht'⟩, ⟨_, t, h.1, rfl, by decide, ht⟩⟩

theorem witness_TransactionsOnlyGrow : ∃ s t : State, s.Inv ∧ step s = .next t := by
  obtain ⟨s, t, h, -, ht⟩ := witness_StepKeepsInvariant
  exact ⟨s, t, h, ht⟩

end Sys2Proof.Machine
end

section
/-! PROOF. The constructed machine (spec/10_state.md R38, spec/70_reset_and_hazards.md R340, R341): what a machine before
its first invocation is, then the machine constructed from an image, then `State.reset` as one such machine. -/

namespace Sys2Proof.Machine

/-! ## A machine before its first invocation -/

/-- Without streams there is no handle to bound (R34). -/
theorem tableInv_nil {α : Type} (nexth : Nat) : tableInv ([] : Table α) nexth :=
  ⟨List.Pairwise.nil, List.forall_mem_nil _⟩

/-- Only main memory and its size can break the invariant: every other piece of state starts out within its bounds. -/
theorem State.fresh_inv {params : Params} {mem : Memory}
    (hsize : 20 ≤ params.memWords ∧ params.memWords ≤ 2147483648)
    (hmem : mem.wf ∧ ∀ c ∈ mem, c.1 < params.memWords) : (State.fresh params mem).Inv :=
  ⟨hsize, hmem, Nat.zero_le _, Nat.le_refl _, tableInv_nil _, tableInv_nil _⟩

theorem State.fresh_handlesApart (params : Params) (mem : Memory) : (State.fresh params mem).handlesApart :=
  List.forall_mem_nil _

/-- Before the first return there is no frame to present (R38, R280). -/
theorem State.fresh_presented (params : Params) (mem : Memory) : (State.fresh params mem).presented = none :=
  if_neg fun h => Nat.lt_irrefl 0 h.2

/-! ## A machine constructed from an image -/

/-- The invariant asks of an image only a size that the spec allows (R5, D33): the core checks no word of it (R341). -/
theorem State.construct_inv (policy : IllegalOpcodePolicy) (window : HostKeyWindow) {image : List Word}
    (hmin : 20 ≤ image.length) (hmax : image.length ≤ 2147483648) : (State.construct policy window image).Inv :=
  State.fresh_inv ⟨hmin, hmax⟩ ⟨Memory.ofImage_wf image, fun _ hc => Memory.ofImage_bounded hc⟩

theorem State.construct_handlesApart (policy : IllegalOpcodePolicy) (window : HostKeyWindow) (image : List Word) :
    (State.construct policy window image).handlesApart :=
  State.fresh_handlesApart _ _

theorem State.construct_presented (policy : IllegalOpcodePolicy) (window : HostKeyWindow) (image : List Word) :
    (State.construct policy window image).presented = none :=
  State.fresh_presented _ _

/-! ## The reset state -/

/-- The image of `State.reset_eq_construct` has 128 words, a size that the spec allows. -/
theorem State.reset_constructed :
    ∃ policy window image, 20 ≤ image.length ∧ image.length ≤ 2147483648 ∧
      State.reset = State.construct policy window image := by
  refine ⟨_, _, _, ?_, ?_, State.reset_eq_construct⟩ <;>
    simp only [List.length_append, List.length_replicate, List.length_cons, List.length_nil] <;> decide

theorem State.reset_inv : State.reset.Inv := by
  obtain ⟨policy, window, image, hmin, hmax, hreset⟩ := State.reset_constructed
  rw [hreset]
  exact State.construct_inv policy window hmin hmax

theorem State.reset_handlesApart : State.reset.handlesApart :=
  State.fresh_handlesApart _ _

/-- Settles O53: phase, cursor, keys, streams and counter are the fields construction writes; the frame, the invariant
and the handles are the lemmas above, for every constructed machine and for `State.reset`, which is one. -/
theorem resetState : Obligations.ResetState := by
  refine ⟨fun policy window image hmin hmax => ?_, State.reset_constructed, State.reset_inv, State.reset_handlesApart⟩
  exact ⟨rfl, rfl, rfl, rfl, rfl, rfl, rfl, State.construct_presented policy window image,
    State.construct_inv policy window hmin hmax, State.construct_handlesApart policy window image⟩

end Sys2Proof.Machine
end

section
/-! PROOF. The stack instructions that pop or copy and then push (spec/41_stack_ops.md R133 to R137): what the push that
ends each of them does, then DUP and OVER, STR and RTS, and SWAP. -/

namespace Sys2Proof.Machine

variable {s : State} {ptr src dst : Int} {v : Word}

/-! ## The push at the end of an instruction (R8) -/

theorem run_pushAt_ok (hp : s.inMemory ptr) (ht : s.inMemory (s.cell ptr).toInt) :
    run (pushAt ptr v) s = .next (s.pushed ptr v) :=
  run_ok (pushAt_ok hp ht)

theorem run_pushAt_out (hp : s.inMemory ptr) (ht : ¬ s.inMemory (s.cell ptr).toInt) :
    run (pushAt ptr v) s = .fault (.outOfRange (s.cell ptr).toInt) := by
  obtain ⟨u, hu⟩ := pushAt_out (v := v) hp ht
  exact run_error hu

/-! ## A copy of a cell below the top, pushed (R134, R135) -/

/-- The read in place that DUP and OVER begin with, `k` cells below the data pointer. -/
def peek (k : Word) : Op Word := do
  let d ← reg Config.DP
  memRead (d - k).toInt

theorem exec_dup (s : State) : exec .dup s = run (peek 1#32 >>= push) s := by
  rw [peek, bind_assoc]
  rfl

theorem exec_ovr (s : State) : exec .ovr s = run (peek 2#32 >>= push) s := by
  rw [peek, bind_assoc]
  rfl

theorem peek_eq (hd : s.inMemory Config.DP) (k : Word) : peek k s = memRead (s.dp - k).toInt s :=
  op_bind_ok (reg_ok hd)

/-- DUP and OVER at once: the cell read, then the cell pushed to, then the copy. -/
theorem run_peek_push (hi : s.Inv) (k : Word) :
    (¬ s.inMemory (s.dp - k).toInt → run (peek k >>= push) s = .fault (.outOfRange (s.dp - k).toInt)) ∧
    (s.inMemory (s.dp - k).toInt → ¬ s.inMemory s.dp.toInt →
      run (peek k >>= push) s = .fault (.outOfRange s.dp.toInt)) ∧
    (s.inMemory (s.dp - k).toInt → s.inMemory s.dp.toInt →
      run (peek k >>= push) s = .next (s.pushed Config.DP (s.cell (s.dp - k).toInt))) := by
  have hd : s.inMemory Config.DP := hi.reg_inMemory (by decide) (by decide)
  have read (h : s.inMemory (s.dp - k).toInt) : peek k s = .ok (s.cell (s.dp - k).toInt) s :=
    (peek_eq hd k).trans (memRead_ok h)
  refine ⟨fun h => ?_, fun h hout => ?_, fun h hin => ?_⟩
  · exact run_error (op_bind_error ((peek_eq hd k).trans (memRead_out h)))
  · rw [run_bind (read h)]
    exact run_pushAt_out hd hout
  · rw [run_bind (read h)]
    exact run_pushAt_ok hd hin

/-- Settles O9: DUP and OVER are one block, with the cell read one or two below the pointer. -/
theorem dupAndOverPushACopy : Obligations.DupAndOverPushACopy := by
  intro s hi
  obtain ⟨dupRead, dupPush, dupNext⟩ := run_peek_push hi 1#32
  rw [exec_dup, exec_ovr]
  exact ⟨dupRead, dupPush, dupNext, run_peek_push hi 2#32⟩

/-! ## A word moved from one stack to another (R136, R137) -/

/-- Lowering one stack pointer leaves the other where it was. -/
theorem State.popped_cell_other (hs : 0 ≤ src) (hd : 0 ≤ dst) (hne : dst ≠ src) :
    (s.popped src).cell dst = s.cell dst :=
  State.cell_setCell_other hs hd hne _

/-- STR and RTS at once: the popped cell, then the cell pushed to, then the move. -/
theorem run_popAt_pushAt (hs : s.inMemory src) (hd : s.inMemory dst) (hne : dst ≠ src) :
    (¬ s.inMemory (s.cell src - 1#32).toInt →
      run (popAt src >>= pushAt dst) s = .fault (.outOfRange (s.cell src - 1#32).toInt)) ∧
    (s.inMemory (s.cell src - 1#32).toInt → ¬ s.inMemory (s.cell dst).toInt →
      run (popAt src >>= pushAt dst) s = .fault (.outOfRange (s.cell dst).toInt)) ∧
    (s.inMemory (s.cell src - 1#32).toInt → s.inMemory (s.cell dst).toInt →
      run (popAt src >>= pushAt dst) s = .next ((s.popped src).pushed dst (s.popWord src 1#32))) := by
  have hd' : (s.popped src).inMemory dst := hd
  have hdst : (s.popped src).cell dst = s.cell dst := State.popped_cell_other hs.1 hd.1 hne
  refine ⟨fun h => ?_, fun h hout => ?_, fun h hin => ?_⟩
  · exact run_error (op_bind_error (popAt_out hs h))
  · rw [run_bind (popAt_ok hs h), ← hdst]
    exact run_pushAt_out hd' (by rwa [hdst])
  · rw [run_bind (popAt_ok hs h)]
    exact run_pushAt_ok hd' (by rwa [hdst])

/-- Settles O10: STR and RTS are one block, with the two pointers exchanged. -/
theorem strAndRtsMoveBetweenStacks : Obligations.StrAndRtsMoveBetweenStacks := by
  intro s hi
  have hdp : s.inMemory Config.DP := hi.reg_inMemory (by decide) (by decide)
  have hrp : s.inMemory Config.RP := hi.reg_inMemory (by decide) (by decide)
  obtain ⟨strPop, strPush, strNext⟩ := run_popAt_pushAt hdp hrp (by decide)
  exact ⟨strPop, strPush, strNext, run_popAt_pushAt hrp hdp (by decide)⟩

/-! ## The two top cells exchanged (R133) -/

/-- Off the pointer's own cell, a pop finds the cell. -/
theorem State.popWord_cell {k : Word} (h : (s.cell ptr - k).toInt ≠ ptr) :
    s.popWord ptr k = s.cell (s.cell ptr - k).toInt :=
  if_neg h

/-- SWAP with an operand outside memory (R66, R170). -/
theorem exec_swap_out (hi : s.Inv) {x : Int} (h : s.operandOut = some x) : exec .swap s = .fault (.outOfRange x) := by
  obtain ⟨u, hu⟩ := pop_pop_out (f := fun a b => do push a; push b) hi h
  exact run_error hu

/-- With both operands in memory only the second push of SWAP can still leave it: the first one writes the second
operand's cell, which is in memory. -/
theorem exec_swap_eq (hi : s.Inv) (h : s.twoOperands) :
    exec .swap s = run (push (s.popWord Config.DP 2#32)) (s.afterBinary (s.popWord Config.DP 1#32)) := by
  have hblock : opSwap s = push (s.popWord Config.DP 2#32) (s.afterBinary (s.popWord Config.DP 1#32)) := by
    rw [opSwap, pop_pop_ok hi h, op_bind_ok (push_after_pops hi h _)]
  change run opSwap s = _
  rw [run, hblock, run]

/-- Off the pointer's own cell, the pointer after two pops and a push is one lower. -/
theorem State.afterBinary_dp (h0 : 0 ≤ (s.dp - 2#32).toInt) (h : (s.dp - 2#32).toInt ≠ Config.DP) :
    (s.afterBinary v).dp = s.dp - 1#32 := by
  rw [State.afterBinary, State.dp, State.cell_setCell_other h0 (by decide) h.symm, State.cell_setCell_same]

/-- Off the pointer's own cell, a push after two pops and a push puts its word in the first operand's cell, and the
pointer is back where it was. -/
theorem State.afterBinary_pushed (hw : s.mem.wf) (h : s.twoOperands) (hne : (s.dp - 2#32).toInt ≠ Config.DP)
    (a b : Word) :
    (s.afterBinary a).pushed Config.DP b = (s.setCell (s.dp - 2#32).toInt a).setCell (s.dp - 1#32).toInt b := by
  have hback : s.dp - 1#32 + 1#32 = s.dp := by bv_omega
  have hdp : (s.afterBinary a).cell Config.DP = s.dp - 1#32 := State.afterBinary_dp h.2.1 hne
  have hcomm (p : Word) : (s.setCell Config.DP p).setCell (s.dp - 2#32).toInt a =
      (s.setCell (s.dp - 2#32).toInt a).setCell Config.DP p :=
    State.setCell_comm hw (by decide) h.2.1 hne.symm _ _
  have hrestore : (s.afterBinary a).setCell Config.DP s.dp = s.setCell (s.dp - 2#32).toInt a := by
    rw [State.afterBinary, hcomm, State.setCell_setCell (Memory.write_wf hw), ← hcomm, State.setCell_cell hw]
  rw [State.pushed, hdp, hback, hrestore]

/-- Settles O8: after the pops and the first push, SWAP is its second push; off the pointer's own cell that push lands
on the first operand's cell and restores the pointer. -/
theorem swapExchangesTopTwo : Obligations.SwapExchangesTopTwo := by
  intro s hi
  refine ⟨fun x hx => exec_swap_out hi hx, fun h => ?_⟩
  rw [exec_swap_eq hi h]
  have hd : (s.afterBinary (s.popWord Config.DP 1#32)).inMemory Config.DP :=
    hi.reg_inMemory (by decide) (by decide)
  refine ⟨fun hsecond hfirst => ?_, fun hin => ?_, fun hout => ?_⟩
  · have hin : s.inMemory (s.afterBinary (s.popWord Config.DP 1#32)).dp.toInt := by
      rw [State.afterBinary_dp h.2.1 hsecond]
      exact h.1
    rw [← State.popWord_cell hfirst, ← State.popWord_cell hsecond, ← State.afterBinary_pushed hi.2.1.1 h hsecond]
    exact run_pushAt_ok hd hin
  · exact run_pushAt_ok hd hin
  · exact run_pushAt_out hd hout

end Sys2Proof.Machine
end

section
/-! PROOF. The control transfers JUMP, RETURN and NEXT (spec/42_control_transfer.md R152, R155, R156): the write of the
program counter that ends each of them, then the instructions. -/

namespace Sys2Proof.Machine

variable {s t : State} {target : Op Word} {v n : Word}

/-! ## The transfer to a target (R150) -/

/-- A control transfer ends by writing its target, whatever it is, to the program counter. -/
theorem run_setPc (hp : t.inMemory Config.PC) (h : target s = .ok v t) :
    run (target >>= setReg Config.PC) s = .next (t.setCell Config.PC v) :=
  (run_bind h).trans (run_ok (setReg_ok hp))

/-- A transfer that is taken faults where its operand lies outside memory (R66). -/
theorem branchTarget_out (hp : s.inMemory Config.PC) (h : ¬ s.inMemory s.pc.toInt) {c : Bool} (hc : c = true) :
    ∃ t, branchTarget c s = .error (.outOfRange s.pc.toInt) t := by
  rw [branchTarget, if_pos hc]
  exact operand_out hp h

/-! ## JUMP and RETURN (R152, R155) -/

theorem exec_jump_out (hp : s.inMemory Config.PC) (h : ¬ s.inMemory s.pc.toInt) :
    exec .jump s = .fault (.outOfRange s.pc.toInt) := by
  obtain ⟨t, ht⟩ := operand_out hp h
  exact run_error (op_bind_error ht)

/-- Settles O12: the target of JUMP is its operand, that of RETURN the word popped off the return stack. -/
theorem jumpAndReturnSetProgramCounter : Obligations.JumpAndReturnSetProgramCounter := by
  intro s hi
  have hp : s.inMemory Config.PC := hi.reg_inMemory (by decide) (by decide)
  have hr : s.inMemory Config.RP := hi.reg_inMemory (by decide) (by decide)
  have hp' : (s.popped Config.RP).inMemory Config.PC := hp
  refine ⟨fun hin => ?_, fun hout => exec_jump_out hp hout, fun hin => ?_, fun hout => ?_⟩
  · exact run_setPc hp (operand_ok hp hin)
  · exact run_setPc hp' (popAt_ok hr hin)
  · exact run_error (op_bind_error (popAt_out hr hout))

/-! ## NEXT (R156) -/

theorem exec_next_out (hr : s.inMemory Config.RP) (h : ¬ s.inMemory (s.rp - 1#32).toInt) :
    exec .next s = .fault (.outOfRange (s.rp - 1#32).toInt) :=
  (run_bind (reg_ok hr)).trans (run_error (op_bind_error (op_bind_error (memRead_out h))))

/-- With its counter in memory, NEXT is a conditional transfer from the state with the counter decremented. -/
theorem exec_next_eq (hr : s.inMemory Config.RP) (h : s.inMemory (s.rp - 1#32).toInt)
    (hn : n = s.cell (s.rp - 1#32).toInt - 1#32) :
    exec .next s = run (branchTarget (!isNegative n) >>= setReg Config.PC) (s.setCell (s.rp - 1#32).toInt n) := by
  subst hn
  exact (run_bind (reg_ok hr)).trans (run_bind (decrementCell_ok h))

/-- NEXT is taken exactly where the counter has not become negative. -/
theorem next_taken_iff : (!isNegative n) = true ↔ 0 ≤ n.toInt := by
  simp [isNegative]

/-- Settles O14: after the decrement in place, NEXT is a conditional transfer, taken unless the counter is negative. -/
theorem nextDecrementsInPlace : Obligations.NextDecrementsInPlace := by
  intro s hi
  have hr : s.inMemory Config.RP := hi.reg_inMemory (by decide) (by decide)
  refine ⟨exec_next_out hr, fun hin => ?_⟩
  intro n u
  have hp : u.inMemory Config.PC := hi.reg_inMemory (by decide) (by decide)
  rw [exec_next_eq hr hin (n := n) rfl]
  refine ⟨fun hneg => ?_, fun hnn hop => ?_, fun hnn hop => ?_⟩
  · have hc : (!isNegative n) = false := Bool.eq_false_iff.mpr fun h => (next_taken_iff.mp h).not_gt hneg
    exact run_setPc hp (branchTarget_not_taken hp hc)
  · exact run_setPc hp (branchTarget_taken hp hop (next_taken_iff.mpr hnn))
  · obtain ⟨t, ht⟩ := branchTarget_out hp hop (next_taken_iff.mpr hnn)
    exact run_error (op_bind_error ht)

end Sys2Proof.Machine
end

section
/-! PROOF. Arithmetic, logic and comparison (spec/43_arithmetic_logic.md R170 to R182): what a binary instruction does
in either case of its operands, then the words that the instructions compute, then the instructions. -/

namespace Sys2Proof.Machine

variable {s : State}

/-! ## Binary instructions (R170) -/

theorem run_binary_out (hi : s.Inv) {x : Int} (h : s.operandOut = some x) (f : Word → Word → Word) :
    run (binary f) s = .fault (.outOfRange x) := by
  obtain ⟨t, ht⟩ := binary_out hi h f
  exact run_error ht

theorem run_binary_ok (hi : s.Inv) (h : s.twoOperands) (f : Word → Word → Word) :
    run (binary f) s = .next (s.afterBinary (f (s.popWord Config.DP 2#32) (s.popWord Config.DP 1#32))) :=
  run_ok (binary_ok hi h f)

/-- The instructions whose block is `binary`: not NOT, which has one operand, nor DIV and MOD, which test the divisor. -/
def binaryInstrs : List Instr := [.add, .sub, .mul, .and, .or, .xor, .sgt, .slt]

/-- An operand outside memory faults every binary instruction, whatever it computes (R66). -/
theorem exec_binary_out (hi : s.Inv) {x : Int} (h : s.operandOut = some x) {family : List Instr}
    (hsub : family ⊆ binaryInstrs) {i : Instr} (hmem : i ∈ family) : exec i s = .fault (.outOfRange x) := by
  have hbin : i ∈ binaryInstrs := hsub hmem
  simp only [binaryInstrs, List.mem_cons, List.not_mem_nil, or_false] at hbin
  rcases hbin with rfl | rfl | rfl | rfl | rfl | rfl | rfl | rfl <;> exact run_binary_out hi h _

/-! ## ADD, SUB and MUL (R171 to R173) -/

theorem wrap32_add_toInt (b a : Word) : wrap32 (b.toInt + a.toInt) = b + a := by
  rw [wrap32, BitVec.ofInt_add, BitVec.ofInt_toInt, BitVec.ofInt_toInt]

theorem wrap32_sub_toInt (b a : Word) : wrap32 (b.toInt - a.toInt) = b - a := by
  rw [wrap32, Int.sub_eq_add_neg, BitVec.ofInt_add, BitVec.ofInt_neg, BitVec.ofInt_toInt, BitVec.ofInt_toInt,
    BitVec.sub_eq_add_neg]

theorem wrap32_mul_toInt (b a : Word) : wrap32 (b.toInt * a.toInt) = b * a := by
  rw [wrap32, BitVec.ofInt_mul, BitVec.ofInt_toInt, BitVec.ofInt_toInt]

/-- Settles O15: the word operations of ADD, SUB and MUL are `wrap32` of the operations on the signed readings. -/
theorem addSubMulWrap : Obligations.AddSubMulWrap := by
  refine fun s hi => ⟨fun x i hmem h => exec_binary_out hi h (by decide) hmem, fun h => ?_⟩
  intro a b
  rw [wrap32_add_toInt, wrap32_sub_toInt, wrap32_mul_toInt]
  exact ⟨run_binary_ok hi h _, run_binary_ok hi h _, run_binary_ok hi h _⟩

/-! ## AND, OR, XOR and NOT (R176 to R179) -/

theorem exec_not_out (hi : s.Inv) (h : ¬ s.inMemory (s.dp - 1#32).toInt) :
    exec .not s = .fault (.outOfRange (s.dp - 1#32).toInt) :=
  run_error (op_bind_error (popAt_out (hi.reg_inMemory (by decide) (by decide)) h))

/-- NOT replaces the top in place: the push restores the pointer that the pop lowered. -/
theorem exec_not_next (hi : s.Inv) (h : s.inMemory (s.dp - 1#32).toInt) :
    exec .not s = .next (s.setCell (s.dp - 1#32).toInt (~~~ s.popWord Config.DP 1#32)) := by
  have hd : s.inMemory Config.DP := hi.reg_inMemory (by decide) (by decide)
  obtain ⟨-, ⟨hw, -⟩, -⟩ := hi
  rw [BitVec.not_eq_neg_add]
  exact (run_bind (popAt_ok hd h)).trans (run_ok (push_after_pop hw hd h _))

/-- Settles O20: the words are the library's bitwise operations; of NOT, `-a - 1` is the complement of `a`. -/
theorem logicIsBitwise : Obligations.LogicIsBitwise := by
  intro s hi a b
  refine ⟨fun x i hmem h => exec_binary_out hi h (by decide) hmem, exec_not_out hi, fun h => ?_, fun h => ?_⟩
  · refine ⟨b &&& a, b ||| a, b ^^^ a, fun i _ => ?_,
      run_binary_ok hi h _, run_binary_ok hi h _, run_binary_ok hi h _⟩
    exact ⟨BitVec.getLsbD_and, BitVec.getLsbD_or, BitVec.getLsbD_xor⟩
  · exact ⟨~~~ a, fun i hlt => by rw [BitVec.getLsbD_not, decide_eq_true hlt, Bool.true_and], exec_not_next hi h⟩

/-! ## SGT and SLT (R180, R181) -/

theorem signedGreater_eq_ite (b a : Word) : signedGreater b a = if b.toInt > a.toInt then 0xFFFFFFFF#32 else 0#32 := by
  simp only [signedGreater, truth, decide_eq_true_eq]

theorem signedLess_eq_ite (b a : Word) : signedLess b a = if b.toInt < a.toInt then 0xFFFFFFFF#32 else 0#32 := by
  simp only [signedLess, truth, decide_eq_true_eq]

/-- Settles O21: the truth word of each comparison is one of the two words of R182. -/
theorem comparisonsGiveTruthWords : Obligations.ComparisonsGiveTruthWords := by
  refine fun s hi => ⟨fun x i hmem h => exec_binary_out hi h (by decide) hmem, fun h => ?_⟩
  intro a b
  rw [← signedGreater_eq_ite, ← signedLess_eq_ite]
  exact ⟨run_binary_ok hi h _, run_binary_ok hi h _⟩

end Sys2Proof.Machine
end

section
/-! PROOF. Key input and console output through the port table (spec/44_load_store_iomux.md R207, R208, R210): what the
arms of `KY`, `KB` and `CO` do in a state, then the instructions that reach them. -/

namespace Sys2Proof.Machine

variable {t : State}

/-! ## LOAD of `KY` and `KB` (R207, R208) -/

theorem loadKeyMask_ok (t : State) : loadKeyMask t = .ok t.keys t := rfl

theorem loadKeyQueue_empty (h : t.keyq = []) : loadKeyQueue t = .ok Config.minusOne t := by
  rw [loadKeyQueue, h]

theorem loadKeyQueue_oldest {c : Word} {rest : List Word} (h : t.keyq = c :: rest) :
    loadKeyQueue t = .ok c { t with keyq := rest } := by
  rw [loadKeyQueue, h]

/-- Settles O24: the pop before the port changes neither the bitmask nor the queue, so each arm answers with those
of the state the LOAD starts from. -/
theorem loadOfKeyState : Obligations.LoadOfKeyState := by
  intro s hi hin
  refine ⟨fun hky => ?_, fun hkb => ⟨fun hempty => ?_, fun c rest hq => ?_⟩⟩
  · refine execLoad_next hi hin rfl rfl ?_
    rw [portLoad_keyMask hky]
    exact loadKeyMask_ok _
  · refine execLoad_next hi hin rfl rfl ?_
    rw [portLoad_keyQueue hkb]
    exact loadKeyQueue_empty hempty
  · refine execLoad_next hi hin rfl rfl ?_
    rw [portLoad_keyQueue hkb]
    exact loadKeyQueue_oldest hq

/-! ## STOR to `CO` (R210) -/

theorem lowByte_eq_extractLsb' (v : Word) : lowByte v = v.extractLsb' 0 8 :=
  BitVec.setWidth_eq_extractLsb' (by decide)

theorem storeConsole_ok (v : Word) (t : State) :
    storeConsole v t = .ok () (t.told (.stdoutWrite (v.extractLsb' 0 8))) := by
  rw [storeConsole, lowByte_eq_extractLsb']
  rfl

/-- Settles O30: after its pops the STOR is the arm of `CO`, which only records the write. -/
theorem storToConsole : Obligations.StorToConsole := by
  intro s hi h hco
  rw [execStor_eq hi h, portStore_console hco]
  exact run_ok (storeConsole_ok _ _)

end Sys2Proof.Machine
end

section
/-! PROOF. Newline normalization (spec/45_file_port.md R246): how the byte that follows a carriage return is looked at,
then the LOAD of `XO` that takes a carriage return. -/

namespace Sys2Proof.Machine

variable {s t u : State} {e : ReadStream} {h : Nat} {b : Byte} {v w : Word}

/-! ## The entry of a handle set twice -/

/-- Of two entries set under one key the second stays. -/
theorem tableInsert_insert {α : Type} (table : Table α) (k : Nat) (x y : α) :
    tableInsert (tableInsert table k x) k y = tableInsert table k y := by
  induction table with
  | nil => simp [tableInsert]
  | cons c table ih =>
    obtain ⟨j, z⟩ := c
    simp only [tableInsert]
    split
    · simp [tableInsert]
    · split
      · simp [tableInsert]
      · simp [tableInsert, *]

/-! ## The byte after a carriage return -/

/-- The byte after a carriage return comes from the host: the entry's pushback is empty by then. -/
theorem afterCarriageReturn_lineFeed {r : ReadAnswer} (hr : (tapeNext (Config.readAnswer e.stream) t.env.reads).1 = r)
    (hlf : r = .byte Config.lineFeed ∨ r = .eof) :
    afterCarriageReturn w e t = .ok (byteWord Config.lineFeed) (t.askedRead e.stream) := by
  rw [afterCarriageReturn, op_bind_ok (nextByte_host w rfl), hr]
  rcases hlf with rfl | rfl <;> rfl

theorem afterCarriageReturn_failure (hr : (tapeNext (Config.readAnswer e.stream) t.env.reads).1 = .failure) :
    afterCarriageReturn w e t = .ok Config.minusOne (t.askedRead e.stream) := by
  rw [afterCarriageReturn, op_bind_ok (nextByte_host w rfl), hr]
  rfl

theorem afterCarriageReturn_other {rd : Table ReadStream}
    (hr : (tapeNext (Config.readAnswer e.stream) t.env.reads).1 = .byte b) (hb : b ≠ Config.lineFeed)
    (hrd : tableInsert t.rd w.toInt.toNat { e with pushback := some b } = rd) :
    afterCarriageReturn w e t = .ok (byteWord Config.lineFeed) { t.askedRead e.stream with rd := rd } := by
  subst hrd
  rw [afterCarriageReturn, op_bind_ok (nextByte_host w rfl), hr]
  dsimp only
  rw [pushBack, if_neg hb]
  rfl

/-! ## A LOAD that takes a carriage return -/

/-- The state once the byte access on the entry `e` of handle `h` has taken its first byte: the host has been asked for
it, or the pushback is used up (R246). -/
def State.firstByteTaken (s : State) (h : Nat) (e : ReadStream) : State :=
  if e.pushback = none then s.askedRead e.stream
  else { s with rd := tableInsert s.rd h { e with pushback := none } }

/-- The first byte of the access is a carriage return, pushed back before or given by the host. -/
def State.findsCarriageReturn (s : State) (e : ReadStream) : Prop :=
  e.pushback = some Config.carriageReturn ∨
    e.pushback = none ∧ (tapeNext (Config.readAnswer e.stream) s.env.reads).1 = .byte Config.carriageReturn

theorem State.firstByteTaken_mem : (s.firstByteTaken h e).mem = s.mem := by
  unfold State.firstByteTaken
  split <;> rfl

theorem State.firstByteTaken_params : (s.firstByteTaken h e).params = s.params := by
  unfold State.firstByteTaken
  split <;> rfl

/-- Setting the handle's entry afterwards hides that its pushback was used up. -/
theorem State.firstByteTaken_rd_insert (x : ReadStream) :
    tableInsert (s.firstByteTaken h e).rd h x = tableInsert s.rd h x := by
  unfold State.firstByteTaken
  split
  · rfl
  · exact tableInsert_insert _ _ _ _

/-- The first byte is taken after the pop of the LOAD, which touches neither the streams nor the host's answers. -/
theorem nextByte_carriageReturn (hh : s.xaHandle = some h) (hcr : s.findsCarriageReturn e) :
    nextByte (s.cell Config.XA) e (s.popped Config.DP) =
      .ok (.byte Config.carriageReturn) ((s.firstByteTaken h e).popped Config.DP) := by
  unfold State.firstByteTaken
  rcases hcr with hback | ⟨hnone, hhost⟩
  · rw [nextByte_pushback hh hback, if_neg (by simp [hback])]
    rfl
  · rw [nextByte_host _ hnone, if_pos hnone, ← hhost]
    rfl

/-- A LOAD of `XO` that takes a carriage return gives what the look at the byte after it gives. -/
theorem exec_load_carriageReturn (hi : s.Inv) (hin : s.inMemory (s.dp - 1#32).toInt) (ha : s.topAddress = Config.XO)
    (hh : s.xaHandle = some h) (he : s.xaReader = some e) (hcr : s.findsCarriageReturn e) (hm : u.mem = s.mem)
    (hp : u.params = s.params)
    (hafter : afterCarriageReturn (s.cell Config.XA) e ((s.firstByteTaken h e).popped Config.DP) =
      .ok v (u.popped Config.DP)) :
    exec .load s = .next (u.afterLoad v) := by
  refine execLoad_next hi hin hm hp ?_
  have hfirst := nextByte_carriageReturn hh hcr
  rw [portLoad_fileReadByte hi ha, fileReadByte_some (t := s.popped Config.DP) s rfl he hfirst, ← hafter]
  rfl

/-- Settles O28: the carriage return is taken first; then another byte is pushed back over the entry, while a line feed,
the end and a failure leave the state as the question to the host left it. -/
theorem carriageReturnReadsAsLineFeed : Obligations.CarriageReturnReadsAsLineFeed := by
  intro s hi hin ha h e hh he hcr _ r _
  have hload := fun {v : Word} {u : State} =>
    exec_load_carriageReturn (v := v) (u := u) hi hin ha hh he hcr
  refine ⟨fun b hr hb => ?_, fun hr => ?_, fun hr => ?_⟩
  · have hrd : tableInsert (s.firstByteTaken h e).rd (s.cell Config.XA).toInt.toNat { e with pushback := some b } =
        tableInsert s.rd h { e with pushback := some b } := by
      rw [handle_of_xaHandle hh, State.firstByteTaken_rd_insert]
    exact hload State.firstByteTaken_mem State.firstByteTaken_params (afterCarriageReturn_other hr hb hrd)
  · exact hload State.firstByteTaken_mem State.firstByteTaken_params (afterCarriageReturn_lineFeed rfl hr)
  · exact hload State.firstByteTaken_mem State.firstByteTaken_params (afterCarriageReturn_failure hr)

end Sys2Proof.Machine
end

section
/-! PROOF. What one step can be (spec/70_reset_and_hazards.md R70, R71): a mutation of the keys by the host, the call of
the frame entry, or the sequencer's step, and what that comes to. -/

namespace Sys2Proof.Machine

variable {s t : State}

/-! ## SYNC through its blocks -/

/-- SYNC stays within a relation that its blocks stay within (R115). -/
theorem execSync_within {R : State → State → Prop} (hrefl : ∀ s, R s s) (htrans : ∀ s t u, R s t → R t u → R s u)
    (hwrite : ∀ a v, Op.Within R (memWrite a v)) (hphase : ∀ p, Op.Within R (setPhase p))
    (hdraw : ∀ y, Op.Within R (drawScanline y)) (hend : Op.Within R endFrame) (h : exec .sync s = .next t) : R s t := by
  have seq := fun {α β : Type} {x : Op α} {f : α → Op β} => op_within_bind (x := x) (f := f) htrans
  have hstatic : Op.Within R staticFrame := seq (forM_within hrefl htrans hdraw _) fun _ => hend
  have henter : ∀ v, Op.Within R (enterRoutine v) := fun v =>
    seq (memRead_within hrefl _) fun _ => seq (pushAt_within hrefl htrans hwrite _ _) fun _ =>
      seq (hwrite _ _) fun _ => hphase _
  have hframe : Op.Within R frameProtocol :=
    seq (memRead_within hrefl _) fun v => op_within_ite (fun _ => hstatic) fun _ => henter v
  have hafter : ∀ y, Op.Within R (afterScanline y) := fun y => by
    unfold afterScanline
    split
    · exact hphase _
    · exact hend
  change execSync s = .next t at h
  unfold execSync at h
  cases hp : s.phase <;> rw [hp] at h
  case run => exact hframe s () t (run_next_iff.1 h)
  case scan y => exact seq (hdraw _) (fun _ => hafter y) s () t (run_next_iff.1 h)
  all_goals cases h

/-! ## The sequencer's step (R113, R114) -/

/-- A fetched word is skipped, when it is no opcode and the policy is to ignore it, or is executed. -/
theorem tickWord_inv {w p : Word} (h : tickWord w p s = .next t) :
    (decodeWord w = none ∧ s.params.illegalOpcode = .nop ∧ t = s) ∨
      ∃ i, decodeWord w = some i ∧ i ≠ .sync ∧ exec i s = .next t := by
  unfold tickWord at h
  cases hd : decodeWord w with
  | none =>
    rw [hd] at h
    dsimp only [illegalWord] at h
    cases hpol : s.params.illegalOpcode with
    | fault => rw [hpol] at h; cases h
    | nop => rw [hpol] at h; cases h; exact .inl ⟨rfl, rfl, rfl⟩
  | some i =>
    rw [hd] at h
    dsimp only at h
    by_cases hi : i = .sync
    · rw [if_pos hi] at h
      cases h
    · rw [if_neg hi] at h
      exact .inr ⟨i, rfl, hi, h⟩

/-- The sequencer halts, or moves the program counter on and then skips an illegal word or executes an instruction. -/
theorem sequencerStep_inv (hi : s.Inv) (h : sequencerStep s = .next t) :
    (s.pc = Config.haltPC ∧ t = { s with phase := .halted }) ∨
      s.inMemory s.pc.toInt ∧
        ((s.params.illegalOpcode = .nop ∧ t = s.setCell Config.PC (s.pc + 1#32)) ∨
          ∃ i, exec i (s.setCell Config.PC (s.pc + 1#32)) = .next t) := by
  by_cases hpc : s.inMemory s.pc.toInt
  · refine .inr ⟨hpc, ?_⟩
    rw [sequencerStep_eq hi hpc] at h
    split at h
    · exact .inr ⟨.sync, h⟩
    · rw [tick_eq hi hpc] at h
      rcases tickWord_inv h with ⟨-, hpol, ht⟩ | ⟨i, -, -, hexec⟩
      · exact .inl ⟨hpol, ht⟩
      · exact .inr ⟨i, hexec⟩
  · refine .inl ?_
    have h0 : s.inMemory Config.PC := hi.reg_inMemory (by decide) (by decide)
    rw [sequencerStep, andThen_ok (reg_ok h0)] at h
    by_cases hhalt : s.cell Config.PC = Config.haltPC
    · rw [if_pos hhalt] at h
      exact ⟨hhalt, (Host.Outcome.next.inj h).symm⟩
    · rw [if_neg hhalt, andThen_error (memRead_out hpc)] at h
      cases h

/-! ## One step (R36, R117, R351) -/

/-- What the next state `t` can be once the host's move, if it made one, is taken off its list. -/
inductive Turned (s t : State) : Prop where
  | hostMoved (keys : Word) (keyq : List Word) (hopen : keyWindowOpen s = true)
      (heq : t = { s with keys := keys, keyq := keyq })
  | frameCalled (hidle : s.phase = .idle) (heq : t = { s with phase := .run })
  | sequenced (hphase : s.phase = .run ∨ ∃ y, s.phase = .scan y) (hseq : sequencerStep s = .next t)

theorem keyMove_inv {keys : State → Word} {keyq : State → List Word}
    (h : keyMove (fun u => { u with keys := keys u, keyq := keyq u }) s = .next t) : Turned s t := by
  unfold keyMove at h
  split at h
  · rename_i hopen
    exact .hostMoved _ _ hopen (Host.Outcome.next.inj h).symm
  · cases h

theorem machineTurn_inv (h : machineTurn s = .next t) : Turned s t := by
  unfold machineTurn at h
  cases hp : s.phase with
  | idle => rw [hp] at h; exact .frameCalled hp (Host.Outcome.next.inj h).symm
  | run => rw [hp] at h; exact .sequenced (.inl hp) h
  | scan y => rw [hp] at h; exact .sequenced (.inr ⟨y, hp⟩) h
  | halted => rw [hp] at h; cases h
  | fault f => rw [hp] at h; cases h

theorem step_inv (h : step s = .next t) : ∃ ms, Turned (s.withMoves ms) t := by
  unfold step turn at h
  split at h
  · cases h
  · cases h
  · split at h
    · rename_i hm
      exact ⟨[], by rw [State.withMoves_same hm]; exact machineTurn_inv h⟩
    · exact ⟨_, machineTurn_inv h⟩
    · exact ⟨_, keyMove_inv h⟩
    · exact ⟨_, keyMove_inv h⟩

end Sys2Proof.Machine
end

section
/-! PROOF. Handles (spec/45_file_port.md R248): every block but the two opens keeps the counter and brings no handle into
a table; an open brings in the handle the counter stands at, and is the last thing its step does. -/

namespace Sys2Proof.Machine

variable {s t u : State}

/-! ## The handles in a table -/

/-- The handles that have an entry in a stream table. -/
def handlesIn {α : Type} (table : Table α) : Set Nat := {h | tableFind table h ≠ none}

theorem mem_handlesIn {α : Type} {table : Table α} {h : Nat} : h ∈ handlesIn table ↔ tableFind table h ≠ none := Iff.rfl

theorem handlesIn_insert {α : Type} (table : Table α) (h : Nat) (x : α) :
    handlesIn (tableInsert table h x) = insert h (handlesIn table) := by
  ext k
  rw [Set.mem_insert_iff, mem_handlesIn, mem_handlesIn, tableFind_insert]
  by_cases hk : k = h <;> simp [hk]

theorem handlesIn_erase {α : Type} (table : Table α) (h : Nat) : handlesIn (tableErase table h) ⊆ handlesIn table := by
  intro k
  rw [mem_handlesIn, mem_handlesIn, tableFind_erase]
  by_cases hk : k = h <;> simp [hk]

/-- The handle the counter stands at has not been given out (R34). -/
theorem next_not_mem_handlesIn {α : Type} {table : Table α} {n : Nat} (h : tableInv table n) : n ∉ handlesIn table :=
  fun hn => hn (tableFind_none_of_bound h.2 (Nat.le_refl n))

/-! ## What keeps the handles -/

/-- The counter stays and neither table gains a handle. -/
structure KeepsHandles (s t : State) : Prop where
  nexth : t.nexth = s.nexth
  rd : handlesIn t.rd ⊆ handlesIn s.rd
  wr : handlesIn t.wr ⊆ handlesIn s.wr

theorem KeepsHandles.of_eq (hn : t.nexth = s.nexth) (hr : t.rd = s.rd) (hw : t.wr = s.wr) : KeepsHandles s t :=
  ⟨hn, hr ▸ subset_rfl, hw ▸ subset_rfl⟩

theorem KeepsHandles.refl (s : State) : KeepsHandles s s := .of_eq rfl rfl rfl

theorem KeepsHandles.trans (s t u : State) (h : KeepsHandles s t) (k : KeepsHandles t u) : KeepsHandles s u :=
  ⟨k.nexth.trans h.nexth, k.rd.trans h.rd, k.wr.trans h.wr⟩

theorem memWrite_keepsHandles (a : Int) (v : Word) : Op.Within KeepsHandles (memWrite a v) := by
  intro s _ t h
  obtain ⟨-, rfl⟩ := memWrite_inv h
  exact .of_eq rfl rfl rfl

/-- A block that always succeeds keeps the handles if the state it leaves does. -/
theorem keepsHandles_of_total {α : Type} {op : Op α} {value : State → α} {after : State → State}
    (hop : ∀ s, op s = .ok (value s) (after s)) (h : ∀ s, KeepsHandles s (after s)) : Op.Within KeepsHandles op := by
  intro s a t he
  rw [hop] at he
  cases he
  exact h s

theorem tell_keepsHandles (c : HostCall) : Op.Within KeepsHandles (tell c) :=
  keepsHandles_of_total (fun _ => rfl) fun _ => .of_eq rfl rfl rfl

theorem drawOpen_keepsHandles (p : List Word) : Op.Within KeepsHandles (drawOpen p) :=
  keepsHandles_of_total (fun _ => rfl) fun _ => .of_eq rfl rfl rfl

theorem drawClose_keepsHandles (n : Nat) : Op.Within KeepsHandles (drawClose n) :=
  keepsHandles_of_total (fun _ => rfl) fun _ => .of_eq rfl rfl rfl

theorem setPhase_keepsHandles (p : Phase) : Op.Within KeepsHandles (setPhase p) :=
  keepsHandles_of_total (fun _ => rfl) fun _ => .of_eq rfl rfl rfl

theorem loadKeyQueue_keepsHandles : Op.Within KeepsHandles loadKeyQueue := by
  intro s _ t h
  unfold loadKeyQueue at h
  split at h <;> cases h <;> exact .of_eq rfl rfl rfl

theorem audioAppend_keepsHandles (b : Byte) : Op.Within KeepsHandles (audioAppend b) :=
  keepsHandles_of_total (op_modify _) fun s => by split <;> exact .of_eq rfl rfl rfl

theorem drawScanline_keepsHandles (y : Nat) : Op.Within KeepsHandles (drawScanline y) := by
  intro s _ t h
  unfold drawScanline onRow at h
  split at h <;> cases h
  exact .of_eq rfl rfl rfl

theorem endFrame_keepsHandles : Op.Within KeepsHandles endFrame :=
  keepsHandles_of_total endFrame_ok fun s => by
    unfold State.frameEnded State.flushed
    split <;> exact .of_eq rfl rfl rfl

/-- A byte read sets an entry only under a handle that has one (R246). -/
theorem fileReadByte_keepsHandles (w : Word) : Op.Within KeepsHandles (fileReadByte w) := by
  intro s _ t h
  rcases fileReadByte_inv h with rfl | ⟨k, e, -, he, hr⟩
  · exact .refl t
  · refine ⟨by rw [hr.eq], fun j hj => ?_, by rw [hr.eq]⟩
    by_cases hjk : j = k
    · rw [hjk, mem_handlesIn, he]
      exact Option.some_ne_none e
    · rwa [mem_handlesIn, ← hr.other j hjk]

theorem fileClose_keepsHandles : Op.Within KeepsHandles fileClose :=
  fileClose_within KeepsHandles.refl KeepsHandles.trans memWrite_keepsHandles tell_keepsHandles drawClose_keepsHandles
    (fun _ => keepsHandles_of_total (op_modify _) fun _ => ⟨rfl, handlesIn_erase _ _, subset_rfl⟩)
    (fun _ => keepsHandles_of_total (op_modify _) fun _ => ⟨rfl, subset_rfl, handlesIn_erase _ _⟩)

theorem portLoad_keepsHandles (a : Word) : Op.Within KeepsHandles (portLoad a) :=
  portLoad_within KeepsHandles.refl KeepsHandles.trans tell_keepsHandles
    (keepsHandles_of_total (fun _ => rfl) fun _ => .of_eq rfl rfl rfl)
    (keepsHandles_of_total (fun _ => rfl) fun _ => .of_eq rfl rfl rfl)
    loadKeyQueue_keepsHandles fileReadByte_keepsHandles a

/-! ## What one step does to the handles -/

/-- The handles are kept, or the handle the counter stood at enters one of the two tables and the counter moves on. -/
inductive HandleStep (s t : State) : Prop where
  | keeps (h : KeepsHandles s t)
  | opensRead (hnexth : t.nexth = s.nexth + 1) (hnew : s.nexth ∈ handlesIn t.rd)
      (hrd : handlesIn t.rd ⊆ insert s.nexth (handlesIn s.rd)) (hwr : handlesIn t.wr ⊆ handlesIn s.wr)
  | opensWrite (hnexth : t.nexth = s.nexth + 1) (hnew : s.nexth ∈ handlesIn t.wr)
      (hrd : handlesIn t.rd ⊆ handlesIn s.rd) (hwr : handlesIn t.wr ⊆ insert s.nexth (handlesIn s.wr))

/-- What keeps the handles may come before an open. -/
theorem KeepsHandles.then_handleStep (h : KeepsHandles s t) (k : HandleStep t u) : HandleStep s u := by
  obtain ⟨hn, hr, hw⟩ := h
  cases k with
  | keeps k => exact .keeps (.trans s t u ⟨hn, hr, hw⟩ k)
  | opensRead hnexth hnew hrd hwr =>
    rw [hn] at hnexth hnew hrd
    exact .opensRead hnexth hnew (hrd.trans (Set.insert_subset_insert hr)) (hwr.trans hw)
  | opensWrite hnexth hnew hrd hwr =>
    rw [hn] at hnexth hnew hwr
    exact .opensWrite hnexth hnew (hrd.trans hr) (hwr.trans (Set.insert_subset_insert hw))

section
variable {α β : Type}

theorem Op.Within.handleStep {op : Op α} (h : Op.Within KeepsHandles op) : Op.Within HandleStep op :=
  fun s a t he => .keeps (h s a t he)

theorem handleStep_bind {x : Op α} {f : α → Op β} (hx : Op.Within KeepsHandles x)
    (hf : ∀ a, Op.Within HandleStep (f a)) : Op.Within HandleStep (x >>= f) := by
  intro s b u h
  obtain ⟨a, t, hxs, hfs⟩ := op_bind_inv h
  exact (hx s a t hxs).then_handleStep (hf a t b u hfs)

end

theorem allocRead_handleStep (n : Nat) : Op.Within HandleStep (allocRead n) := by
  intro s _ t h
  obtain ⟨-, rfl⟩ := allocRead_inv h
  have hrd := handlesIn_insert s.rd s.nexth { stream := n, pushback := none }
  exact .opensRead rfl (hrd ▸ Set.mem_insert _ _) hrd.subset subset_rfl

theorem allocWrite_handleStep (n : Nat) : Op.Within HandleStep (allocWrite n) := by
  intro s _ t h
  obtain ⟨-, rfl⟩ := allocWrite_inv h
  have hwr := handlesIn_insert s.wr s.nexth n
  exact .opensWrite rfl (hwr ▸ Set.mem_insert _ _) subset_rfl hwr.subset

/-- Both opens as one block: the path at `XA` is handed to the host, and a stream it answers is entered (R242, R244). -/
def openPath (ask : List Word → HostCall) (alloc : Nat → Op Unit) : Op Unit := do
  let a ← reg Config.XA
  let path ← readString a.toInt
  tell (ask path)
  match (← drawOpen path) with
  | .opened stream => alloc stream
  | .failure => setReg Config.XA Config.minusOne

theorem fileOpenRead_eq : fileOpenRead = openPath .openRead allocRead := rfl

theorem fileOpenWrite_eq : fileOpenWrite = openPath .openWrite allocWrite := rfl

theorem openPath_handleStep (ask : List Word → HostCall) {alloc : Nat → Op Unit}
    (halloc : ∀ n, Op.Within HandleStep (alloc n)) : Op.Within HandleStep (openPath ask alloc) := by
  refine handleStep_bind (memRead_within KeepsHandles.refl _) fun _ =>
    handleStep_bind (readString_within KeepsHandles.refl _) fun path =>
    handleStep_bind (tell_keepsHandles _) fun _ => handleStep_bind (drawOpen_keepsHandles path) fun r => ?_
  cases r with
  | opened n => exact halloc n
  | failure => exact (memWrite_keepsHandles _ _).handleStep

theorem storeExtStatus_handleStep (v : Word) : Op.Within HandleStep (storeExtStatus v) := by
  unfold storeExtStatus
  rw [fileOpenRead_eq, fileOpenWrite_eq]
  exact op_within_ite (fun _ => fileClose_keepsHandles.handleStep) fun _ =>
    op_within_ite (fun _ => openPath_handleStep _ allocRead_handleStep) fun _ =>
      op_within_ite (fun _ => openPath_handleStep _ allocWrite_handleStep) fun _ =>
        (op_within_pure KeepsHandles.refl _).handleStep

theorem fileWriteByte_keepsHandles (w : Word) (b : Byte) : Op.Within KeepsHandles (fileWriteByte w b) := by
  refine op_within_bind KeepsHandles.trans (writeStream_within KeepsHandles.refl w) fun r => ?_
  cases r with
  | none => exact op_within_pure KeepsHandles.refl _
  | some stream => exact tell_keepsHandles _

/-- Of the ports a STOR can reach only the command port can open (R204, R215). -/
theorem portStore_handleStep (a v : Word) : Op.Within HandleStep (portStore a v) := by
  have hdata : Op.Within KeepsHandles (storeExtData v) :=
    op_within_bind KeepsHandles.trans (memRead_within KeepsHandles.refl _) fun h => fileWriteByte_keepsHandles h _
  unfold portStore
  exact op_within_ite (fun _ => (tell_keepsHandles _).handleStep) fun _ =>
    op_within_ite (fun _ => (audioAppend_keepsHandles _).handleStep) fun _ =>
      op_within_ite (fun _ => hdata.handleStep) fun _ =>
        op_within_ite (fun _ => storeExtStatus_handleStep v) fun _ => (memWrite_keepsHandles _ _).handleStep

/-- STOR pops twice, and then its port does what it does; every other instruction keeps the handles. -/
theorem exec_handleStep {i : Instr} (h : exec i s = .next t) : HandleStep s t := by
  by_cases hstor : i = .stor
  · subst hstor
    have hpop : Op.Within KeepsHandles pop :=
      popAt_within KeepsHandles.refl KeepsHandles.trans memWrite_keepsHandles _
    exact handleStep_bind hpop (fun _ => handleStep_bind hpop fun _ => portStore_handleStep _ _) s () t
      (run_next_iff.1 h)
  by_cases hsync : i = .sync
  · subst hsync
    exact .keeps (execSync_within KeepsHandles.refl KeepsHandles.trans memWrite_keepsHandles setPhase_keepsHandles
      drawScanline_keepsHandles endFrame_keepsHandles h)
  · exact .keeps (exec_within KeepsHandles.refl KeepsHandles.trans memWrite_keepsHandles portLoad_keepsHandles i
      (fun hi => absurd hi hstor) hsync s t h)

theorem sequencerStep_handleStep (hi : s.Inv) (h : sequencerStep s = .next t) : HandleStep s t := by
  rcases sequencerStep_inv hi h with ⟨-, rfl⟩ | ⟨-, ⟨-, rfl⟩ | ⟨i, hexec⟩⟩
  · exact .keeps (.of_eq rfl rfl rfl)
  · exact .keeps (.of_eq rfl rfl rfl)
  · exact KeepsHandles.then_handleStep (t := s.setCell Config.PC _) (.of_eq rfl rfl rfl) (exec_handleStep hexec)

theorem step_handleStep (hi : s.Inv) (h : step s = .next t) : HandleStep s t := by
  obtain ⟨ms, hturn⟩ := step_inv h
  refine KeepsHandles.then_handleStep (t := s.withMoves ms) (.of_eq rfl rfl rfl) ?_
  cases hturn with
  | hostMoved keys keyq _ heq => exact heq ▸ .keeps (.of_eq rfl rfl rfl)
  | frameCalled _ heq => exact heq ▸ .keeps (.of_eq rfl rfl rfl)
  | sequenced _ hseq => exact sequencerStep_handleStep hi hseq

/-- Settles O56: a step keeps the handles, or gives out the counter's, which the other table cannot have had. -/
theorem handlesAreNeverReused : Obligations.HandlesAreNeverReused := by
  refine ⟨fun _ _ _ => rfl, fun s t hi h => ?_⟩
  have hstep := step_handleStep hi h
  obtain ⟨-, -, -, -, hrdInv, hwrInv⟩ := hi
  cases hstep with
  | keeps k => exact ⟨.inl k.nexth, fun h => ⟨fun hr => .inl (k.rd hr), fun hw => .inl (k.wr hw)⟩⟩
  | opensRead hnexth hnew hrd hwr =>
    have hother : tableFind t.wr s.nexth = none :=
      not_not.mp fun hw => next_not_mem_handlesIn hwrInv (hwr hw)
    refine ⟨.inr ⟨hnexth, .inl ⟨hnew, hother⟩⟩, fun h => ⟨fun hr => ?_, fun hw => .inl (hwr hw)⟩⟩
    exact (hrd hr).symm.imp_right fun heq => ⟨heq, hnexth⟩
  | opensWrite hnexth hnew hrd hwr =>
    have hother : tableFind t.rd s.nexth = none :=
      not_not.mp fun hr => next_not_mem_handlesIn hrdInv (hrd hr)
    refine ⟨.inr ⟨hnexth, .inr ⟨hother, hnew⟩⟩, fun h => ⟨fun hr => .inl (hrd hr), fun hw => ?_⟩⟩
    exact (hwr hw).symm.imp_right fun heq => ⟨heq, hnexth⟩

end Sys2Proof.Machine
end

section
/-! PROOF. SYNC (spec/46_raster_generator.md R260 to R265): which block it is in a phase, then the entry into the raster
routine, the static frame, and the scanline of the routine, each with its fault. -/

namespace Sys2Proof.Machine

variable {s : State} {y : Fin 240} {v : Word}

/-! ## Which block a SYNC is (R115, R261) -/

theorem exec_sync_run (hp : s.phase = .run) : exec .sync s = run frameProtocol s := by
  change execSync s = _
  rw [execSync, hp]

theorem exec_sync_scan (hp : s.phase = .scan y) : exec .sync s = run (scanlineSync y) s := by
  change execSync s = _
  rw [execSync, hp]

/-- The frame protocol branches on the raster vector, a register and so readable (R261). -/
theorem frameProtocol_eq (hi : s.Inv) :
    frameProtocol s = (if s.cell Config.RV = 0#32 then staticFrame else enterRoutine (s.cell Config.RV)) s :=
  op_bind_ok (reg_ok (hi.reg_inMemory (by decide) (by decide)))

theorem frameProtocol_static (hi : s.Inv) (hv : s.cell Config.RV = 0#32) : frameProtocol s = staticFrame s := by
  rw [frameProtocol_eq hi, if_pos hv]

theorem frameProtocol_enter (hi : s.Inv) (hv : s.cell Config.RV ≠ 0#32) :
    frameProtocol s = enterRoutine (s.cell Config.RV) s := by
  rw [frameProtocol_eq hi, if_neg hv]

/-! ## The entry into the raster routine (R263) -/

theorem enterRoutine_ok (hi : s.Inv) (h : s.inMemory s.rp.toInt) :
    enterRoutine v s = .ok () { (s.pushed Config.RP s.pc).setCell Config.PC v with phase := .scan 0 } := by
  have hpc : s.inMemory Config.PC := hi.reg_inMemory (by decide) (by decide)
  have hrp : s.inMemory Config.RP := hi.reg_inMemory (by decide) (by decide)
  have hpc' : (s.pushed Config.RP s.pc).inMemory Config.PC := hpc
  rw [enterRoutine, op_bind_ok (reg_ok hpc), rpush, op_bind_ok (pushAt_ok hrp h), op_bind_ok (setReg_ok hpc'),
    op_setPhase]

theorem enterRoutine_out (hi : s.Inv) (h : ¬ s.inMemory s.rp.toInt) :
    ∃ t, enterRoutine v s = .error (.outOfRange s.rp.toInt) t := by
  have hpc : s.inMemory Config.PC := hi.reg_inMemory (by decide) (by decide)
  have hrp : s.inMemory Config.RP := hi.reg_inMemory (by decide) (by decide)
  obtain ⟨t, ht⟩ := pushAt_out (v := s.pc) hrp h
  exact ⟨t, (op_bind_ok (reg_ok hpc)).trans (op_bind_error ht)⟩

/-- Settles O39: with a raster vector the frame protocol is the entry into the routine, whose push alone can fault. -/
theorem syncEntersRasterRoutine : Obligations.SyncEntersRasterRoutine := by
  intro s hi hp hv
  rw [exec_sync_run hp]
  refine ⟨fun hin => run_ok ((frameProtocol_enter hi hv).trans (enterRoutine_ok hi hin)), fun hout => ?_⟩
  obtain ⟨t, ht⟩ := enterRoutine_out (v := s.cell Config.RV) hi hout
  exact run_error ((frameProtocol_enter hi hv).trans ht)

/-! ## The static frame (R262) -/

/-- With every scanline readable the static frame leaves the ended frame with other pixels, the finished ones. -/
theorem staticFrame_ok (hi : s.Inv) (hr : ∀ y, y < 240 → s.scanlineReadable y) :
    ∃ pixels, staticFrame s = .ok () { s.frameEnded with pixels := pixels } ∧
      ∀ x y, x < 320 → y < 240 → ({ s with pixels := pixels } : State).pixel x y = s.finishedPixel x y := by
  obtain ⟨pixels, hdraw, hpix⟩ := drawScanlines_draw hi 240 (Nat.le_refl 240) hr
  refine ⟨pixels, ?_, fun x y hx hy => (hpix x y hx hy).trans (if_pos hy)⟩
  rw [← State.frameEnded_pixels]
  exact (op_bind_ok hdraw).trans (endFrame_ok _)

theorem staticFrame_out (hi : s.Inv) (hr : ∃ y, y < 240 ∧ ¬ s.scanlineReadable y) :
    ∃ a t, staticFrame s = .error (.outOfRange a) t ∧ ¬ s.inMemory a := by
  obtain ⟨a, t, hdraw, ha⟩ := drawScanlines_fault hi 240 (Nat.le_refl 240) hr
  exact ⟨a, t, op_bind_error hdraw, ha⟩

/-- Settles O38: without a raster vector the frame protocol is the static frame. -/
theorem syncDrawsStaticFrame : Obligations.SyncDrawsStaticFrame := by
  intro s hi hp hv hr
  obtain ⟨pixels, hstatic, hpix⟩ := staticFrame_ok hi hr
  refine ⟨{ s.frameEnded with pixels := pixels }, ?_, fun x y hx hy => hpix x y hx hy, rfl, ?_⟩
  · rw [exec_sync_run hp]
    exact run_ok ((frameProtocol_static hi hv).trans hstatic)
  · rw [← State.frameEnded_pixels]
    exact State.frameEnded_presented _

/-! ## The scanline of the routine (R264, R265) -/

theorem afterScanline_next (h : y.val + 1 < 240) :
    afterScanline y s = .ok () { s with phase := .scan ⟨y.val + 1, h⟩ } := by
  rw [afterScanline, dif_pos h, op_setPhase]

theorem afterScanline_last (h : ¬ y.val + 1 < 240) : afterScanline y s = .ok () s.frameEnded := by
  rw [afterScanline, dif_neg h, endFrame_ok]

/-- A readable scanline is drawn, and what follows it starts with its row replaced by the finished pixels. -/
theorem scanlineSync_eq (hi : s.Inv) (hr : s.scanlineReadable y.val) :
    ∃ row, scanlineSync y s = afterScanline y (s.setRow y.val row) ∧
      ∀ x, x < 320 → row.px x = s.finishedPixel x y.val := by
  obtain ⟨row, hdraw, hpix⟩ := (drawScanline_draws hi y.val).1 hr
  exact ⟨row, op_bind_ok hdraw, hpix⟩

theorem scanlineSync_out (hi : s.Inv) (hr : ¬ s.scanlineReadable y.val) :
    ∃ a t, scanlineSync y s = .error (.outOfRange a) t ∧ ¬ s.inMemory a := by
  obtain ⟨a, t, hdraw, ha⟩ := (drawScanline_draws hi y.val).2 hr
  exact ⟨a, t, op_bind_error hdraw, ha⟩

theorem State.setRow_pixel_same (row : Row) (x : Nat) : (s.setRow y.val row).pixel x y.val = row.px x := by
  rw [State.setRow_pixel, if_pos ⟨rfl, y.isLt⟩]

theorem State.setRow_pixel_other {y y' : Nat} (h : y' ≠ y) (row : Row) (x : Nat) :
    (s.setRow y row).pixel x y' = s.pixel x y' := by
  rw [State.setRow_pixel, if_neg fun hh => h hh.1.symm]

/-- Settles O40: the drawn row is the one replaced, and what follows the draw keeps the pixel buffer. -/
theorem syncDrawsOneScanline : Obligations.SyncDrawsOneScanline := by
  intro s y hi hp hr
  obtain ⟨row, hsync, hpix⟩ := scanlineSync_eq hi hr
  have hrow (x : Nat) (hx : x < 320) : (s.setRow y.val row).pixel x y.val = s.finishedPixel x y.val :=
    (State.setRow_pixel_same row x).trans (hpix x hx)
  have hother (x y' : Nat) (hy : y' ≠ y.val) : (s.setRow y.val row).pixel x y' = s.pixel x y' :=
    State.setRow_pixel_other hy row x
  rw [exec_sync_scan hp]
  by_cases h : y.val + 1 < 240
  · refine ⟨_, run_ok (hsync.trans (afterScanline_next h)), hrow, hother, fun _ => ⟨rfl, ?_⟩, fun hlast => ?_⟩
    · exact State.presented_none nofun
    · omega
  · have hended : (s.setRow y.val row).frameEnded = { s.frameEnded with pixels := (s.setRow y.val row).pixels } :=
      s.frameEnded_pixels _
    refine ⟨_, run_ok (hsync.trans (afterScanline_last h)), ?_, ?_, fun hnext => absurd hnext h, fun _ => ⟨?_, ?_⟩⟩
    · rw [hended]
      exact hrow
    · rw [hended]
      exact hother
    · rw [hended]
    · exact State.frameEnded_presented _

/-! ## A scanline that cannot be read (R274) -/

/-- Settles O41: the draw is the first thing a scanline SYNC and a static frame do, so its fault is theirs. -/
theorem syncFaultsOnUnreadableScanline : Obligations.SyncFaultsOnUnreadableScanline := by
  refine fun s hi => ⟨fun y hp hr => ?_, fun hp hv hr => ?_⟩
  · obtain ⟨a, t, hsync, ha⟩ := scanlineSync_out hi hr
    exact ⟨a, ha, (exec_sync_scan hp).trans (run_error hsync)⟩
  · obtain ⟨a, t, hstatic, ha⟩ := staticFrame_out hi hr
    exact ⟨a, ha, (exec_sync_run hp).trans (run_error ((frameProtocol_static hi hv).trans hstatic))⟩

end Sys2Proof.Machine
end

section
/-! PROOF. The host's image and the launch premise (spec/70_reset_and_hazards.md R341, R342): the constructed machine has
the host's list as main memory, and a machine that meets the premise draws without a fault. -/

namespace Sys2Proof.Machine

/-! ## The image as main memory (R341) -/

/-- In the constructed machine the range check of R66 is the range of the list's places. -/
theorem State.construct_inMemory (policy : IllegalOpcodePolicy) (window : HostKeyWindow) (image : List Word) (a : Nat) :
    (State.construct policy window image).inMemory a ↔ a < image.length :=
  (and_iff_right (Int.natCast_nonneg a)).trans Int.ofNat_lt

/-- A place past the end of the list reads as a cell nothing has written (log entry 2). -/
theorem State.construct_cell (policy : IllegalOpcodePolicy) (window : HostKeyWindow) (image : List Word) (a : Nat) :
    (State.construct policy window image).cell a = (image[a]?).getD Config.unlistedCell :=
  Memory.read_ofImage image a

/-- Settles O60: size, reads and listed cells of the list laid out as main memory. -/
theorem constructionTakesTheImage : Obligations.ConstructionTakesTheImage := by
  refine fun policy window image => ⟨rfl, fun a ha => ⟨?_, ?_⟩, fun _ hc => Memory.ofImage_bounded hc⟩
  · exact (State.construct_inMemory policy window image a).2 ha
  · rw [State.construct_cell, List.getElem?_eq_getElem ha, Option.getD_some]

/-! ## The launch premise (R342) -/

/-- Settles O42: under the premise every scanline can be read, so O38 and O40 tell what the two kinds of SYNC draw. -/
theorem launchPremiseMakesFrameReadable : Obligations.LaunchPremiseMakesFrameReadable := by
  intro s hi hpremise
  have hreadable : ∀ y, s.scanlineReadable y := scanlineReadable_of_gridLaunchPremise hpremise
  refine ⟨fun hp hv => ?_, fun y hp => ?_⟩
  · obtain ⟨t, hexec, hpix, hended, -⟩ := syncDrawsStaticFrame s hi hp hv fun y _ => hreadable y
    exact ⟨t, hexec, congrArg State.phase hended, hpix⟩
  · obtain ⟨t, hexec, hpix, -⟩ := syncDrawsOneScanline s y hi hp (hreadable y.val)
    exact ⟨t, hexec, hpix⟩

end Sys2Proof.Machine
end

section
/-! PROOF. The decoder and the encoder (spec/30_encoding.md R90 to R97): opcode numbers decode to their operation and to
no other, then whole instructions. -/

namespace Sys2Proof

/-! ## One opcode word (R93, R95, R96) -/

theorem decodeWord_opcode (i : Instr) : decodeWord (opcode i) = some i := by
  cases i <;> rfl

theorem eq_opcode_of_decodeWord {w : Word} {i : Instr} (h : decodeWord w = some i) : w = opcode i := by
  unfold decodeWord at h
  split at h <;> cases h <;> exact BitVec.eq_of_toNat_eq ‹w.toNat = _›

theorem decodeWord_eq_some_iff {w : Word} {i : Instr} : decodeWord w = some i ↔ w = opcode i :=
  ⟨eq_opcode_of_decodeWord, fun h => h ▸ decodeWord_opcode i⟩

/-- The numbers of R93 are those below 32 but for the gap from 5 to 9. -/
theorem decodeWord_eq_none_iff (w : Word) :
    decodeWord w = none ↔ (5 ≤ w.toNat ∧ w.toNat ≤ 9) ∨ 32 ≤ w.toNat := by
  unfold decodeWord
  split <;> simp only [reduceCtorEq, false_iff, true_iff, imp_false] at * <;> omega

/-- Settles O2: opcode and decoder are inverse, and a negative word reads unsigned as a number from 2^31 up. -/
theorem decoderMatchesWholeWord : Obligations.DecoderMatchesWholeWord := by
  refine ⟨fun w i => decodeWord_eq_some_iff, fun w => ?_⟩
  have hlt : w.toNat < 2 ^ 32 := w.isLt
  rw [decodeWord_eq_none_iff, BitVec.toInt_eq_toNat_cond]
  split <;> omega

/-- Settles O3: the six words are the opcode numbers of their operations. -/
theorem tableWordsDecode : Obligations.TableWordsDecode :=
  ⟨decodeWord_opcode .const, decodeWord_opcode .jumpif, decodeWord_opcode .load, decodeWord_opcode .rts,
    decodeWord_opcode .slt, decodeWord_opcode .sync⟩

/-! ## Whole instructions (R90, R97) -/

theorem decode_of_op {i : Instr} (hf : i.format = .op) (rest : List Word) :
    decode (opcode i :: rest) = .ok (⟨i, none⟩, rest) := by
  simp only [decode, decodeWord_opcode, hf]

theorem decode_of_opi {i : Instr} (hf : i.format = .opi) (imm : Word) (rest : List Word) :
    decode (opcode i :: imm :: rest) = .ok (⟨i, some imm⟩, rest) := by
  simp only [decode, decodeWord_opcode, hf]

/-- A well-formed instruction is an operation of either format, with the operand that format asks for. -/
theorem Coded.wellFormed_iff (c : Coded) :
    c.wellFormed = true ↔ (c.op.format = .op ∧ c.imm = none) ∨ (c.op.format = .opi ∧ ∃ w, c.imm = some w) := by
  unfold Coded.wellFormed
  cases c.op.format <;> simp [Option.isSome_iff_exists]

/-- Settles O1: the opcode word gives the operation, whose format says whether the next word is the operand. -/
theorem decodeOfEncode : Obligations.DecodeOfEncode := by
  rintro ⟨i, imm⟩ rest hwf
  obtain ⟨hf, rfl⟩ | ⟨hf, w, rfl⟩ := (Coded.wellFormed_iff _).1 hwf
  · exact decode_of_op hf rest
  · exact decode_of_opi hf w rest

end Sys2Proof
end

section
/-! PROOF. What every step keeps (spec/10_state.md R21, R32, R34, R37; spec/20_memory.md R70): each instruction evolves
the state as `Evolves` says, through its blocks, and so does the part of a step that is the machine's. -/

namespace Sys2Proof.Machine

variable {s t : State}

/-! ## Instructions -/

theorem portLoad_evolves (a : Word) : Op.Within Step1 (portLoad a) :=
  portLoad_within Step1.refl Step1.trans tell_evolves drawRandom_evolves drawStdin_evolves loadKeyQueue_evolves
    fileReadByte_evolves a

theorem storeExtStatus_evolves (v : Word) : Op.Within Step1 (storeExtStatus v) :=
  storeExtStatus_within Step1.refl Step1.trans memWrite_evolves tell_evolves
    (fileClose_within Step1.refl Step1.trans memWrite_evolves tell_evolves drawClose_evolves dropReadStream_evolves
      dropWriteStream_evolves)
    drawOpen_evolves allocRead_evolves allocWrite_evolves v

theorem portStore_evolves (a v : Word) : Op.Within Step1 (portStore a v) :=
  portStore_within Step1.refl Step1.trans memWrite_evolves tell_evolves audioAppend_evolves storeExtStatus_evolves a v

theorem exec_evolves {i : Instr} (h : exec i s = .next t) : Step1 s t := by
  by_cases hsync : i = .sync
  · subst hsync
    exact execSync_within Step1.refl Step1.trans memWrite_evolves setPhase_evolves drawScanline_evolves
      endFrame_evolves h
  · exact exec_within Step1.refl Step1.trans memWrite_evolves portLoad_evolves i (fun _ => portStore_evolves) hsync
      s t h

/-! ## Steps -/

theorem setPc_evolves (v : Word) : Step1 s (s.setCell Config.PC v) := fun hi =>
  have h0 : s.inMemory Config.PC := hi.reg_inMemory (by decide) (by decide)
  memWrite_evolves Config.PC v s () _ (memWrite_ok h0) hi

theorem sequencerStep_evolves (h : sequencerStep s = .next t) : Step1 s t := by
  intro hi
  rcases sequencerStep_inv hi h with ⟨-, rfl⟩ | ⟨-, ⟨-, rfl⟩ | ⟨i, hexec⟩⟩
  · exact setPhase_evolves .halted s () _ (op_setPhase _ _) hi
  · exact setPc_evolves _ hi
  · exact Step1.trans _ _ _ (setPc_evolves _) (exec_evolves hexec) hi

/-- What a step keeps, the key state apart, which the host may move in it (R33). -/
structure StepKeeps (s t : State) : Prop where
  inv : t.Inv
  params : t.params = s.params
  apart : s.handlesApart → t.handlesApart
  sent : s.env.sent <+: t.env.sent

theorem Evolves.stepKeeps {ms : List HostMove} (h : Evolves (s.withMoves ms) t) : StepKeeps s t :=
  ⟨h.inv, h.params, h.apart, h.sent⟩

theorem step_keeps (hi : s.Inv) (h : step s = .next t) : StepKeeps s t := by
  obtain ⟨ms, hturn⟩ := step_inv h
  have hi' : (s.withMoves ms).Inv := hi
  cases hturn with
  | hostMoved keys keyq _ heq => exact heq ▸ ⟨hi, rfl, id, List.prefix_rfl⟩
  | frameCalled _ heq => exact heq ▸ ⟨hi, rfl, id, List.prefix_rfl⟩
  | sequenced _ hseq => exact (sequencerStep_evolves hseq hi').stepKeeps

/-- Settles O54: the invariant and the configuration are among what every step keeps. -/
theorem stepKeepsInvariant : Obligations.StepKeepsInvariant := fun _ _ hi h =>
  have hkeeps := step_keeps hi h
  ⟨hkeeps.inv, hkeeps.params⟩

/-- Settles O55: an allocation takes the counter's handle, which the invariant keeps out of both tables. -/
theorem stepKeepsHandlesApart : Obligations.StepKeepsHandlesApart := fun _ _ hi hapart h =>
  (step_keeps hi h).apart hapart

/-- Settles O59: the only write to the record of transactions adds one at its end. -/
theorem transactionsOnlyGrow : Obligations.TransactionsOnlyGrow := fun _ _ hi h =>
  (step_keeps hi h).sent

end Sys2Proof.Machine
end

section
/-! PROOF. Raw accesses (spec/20_memory.md R66) and the instructions of one pop or one push (spec/41_stack_ops.md R131,
R132; spec/42_control_transfer.md R151, R153, R154): CONST, DROP, CALL and the conditional jumps. -/

namespace Sys2Proof.Machine

variable {s u : State} {v : Word}

/-! ## Raw accesses (R66) -/

/-- Settles O4: a write that is no fault wrote its cell, and the read finds the cells as the write left them. -/
theorem rawReadAfterWrite : Obligations.RawReadAfterWrite := by
  intro s t a b v hwrite hb
  obtain ⟨ha, rfl⟩ := memWrite_inv hwrite
  rw [← State.cell_setCell ha.1 hb.1]
  exact memRead_ok (s := s.setCell a v) hb

/-- Settles O5: both accesses make the range check before anything else. -/
theorem rangeCheckFaults : Obligations.RangeCheckFaults := by
  intro s a v ha
  have hout : ¬ s.inMemory a := fun hin => by
    obtain ⟨h0, h1⟩ := hin
    omega
  exact ⟨memRead_out hout, memWrite_out hout⟩

/-! ## CONST (R131) -/

theorem constOperand_out (h0 : s.inMemory Config.PC) (h : ¬ s.inMemory s.pc.toInt) :
    ∃ t, constOperand s = .error (.outOfRange s.pc.toInt) t := by
  have hout : ¬ (s.setCell Config.PC (s.pc + 1#32)).inMemory s.pc.toInt := h
  rw [constOperand, op_bind_ok (reg_ok h0), op_bind_ok (setReg_ok h0)]
  exact ⟨_, memRead_out hout⟩

theorem State.setPc_dp (s : State) (v : Word) : (s.setCell Config.PC v).cell Config.DP = s.dp :=
  State.cell_setCell_other (by decide) (by decide) (by decide) v

/-- Settles O6: the operand is read with the program counter past it, and then pushed. -/
theorem constPushesOperand : Obligations.ConstPushesOperand := by
  intro s hi
  have hp : s.inMemory Config.PC := hi.reg_inMemory (by decide) (by decide)
  have hd : (s.setCell Config.PC (s.pc + 1#32)).inMemory Config.DP := hi.reg_inMemory (by decide) (by decide)
  have hdp : (s.setCell Config.PC (s.pc + 1#32)).cell Config.DP = s.dp := State.setPc_dp _ _
  refine ⟨fun hout => ?_, fun hin hout => ?_, fun hin hpush => ?_⟩
  · obtain ⟨t, ht⟩ := constOperand_out hp hout
    exact run_error (op_bind_error ht)
  · rw [← hdp]
    exact (run_bind (constOperand_ok hp hin)).trans (run_pushAt_out hd (by rwa [hdp]))
  · exact (run_bind (constOperand_ok hp hin)).trans (run_pushAt_ok hd (by rwa [hdp]))

/-! ## DROP (R132) -/

/-- Settles O7: DROP is the pop alone. -/
theorem dropReadsTheCellItDiscards : Obligations.DropReadsTheCellItDiscards := by
  intro s hi
  have hd : s.inMemory Config.DP := hi.reg_inMemory (by decide) (by decide)
  refine ⟨fun hin => run_ok (op_bind_ok (popAt_ok hd hin)), fun hout => ?_⟩
  have hdrop : opDrop s = _ := op_bind_error (popAt_out hd hout)
  refine ⟨run_error hdrop, ?_⟩
  rw [stateLeft, hdrop]
  exact State.popped_ptr _

/-! ## CALL (R151) -/

/-- CALL pushes the address after its operand and is then a JUMP. -/
theorem exec_call_eq (hi : s.Inv) (h : s.inMemory s.rp.toInt) :
    exec .call s = exec .jump (s.pushed Config.RP (s.pc + 1#32)) := by
  have hp : s.inMemory Config.PC := hi.reg_inMemory (by decide) (by decide)
  have hr : s.inMemory Config.RP := hi.reg_inMemory (by decide) (by decide)
  exact (run_bind (afterOperand_ok hp)).trans (run_bind (pushAt_ok hr h))

theorem exec_call_out (hi : s.Inv) (h : ¬ s.inMemory s.rp.toInt) : exec .call s = .fault (.outOfRange s.rp.toInt) := by
  have hp : s.inMemory Config.PC := hi.reg_inMemory (by decide) (by decide)
  have hr : s.inMemory Config.RP := hi.reg_inMemory (by decide) (by decide)
  obtain ⟨t, ht⟩ := pushAt_out (v := s.pc + 1#32) hr h
  exact (run_bind (afterOperand_ok hp)).trans (run_error (op_bind_error ht))

/-- Pushing within memory keeps the invariant. -/
theorem State.pushed_inv {ptr : Int} (hi : s.Inv) (hp : s.inMemory ptr) (h : s.inMemory (s.cell ptr).toInt) (v : Word) :
    (s.pushed ptr v).Inv :=
  State.setCell_inv (State.setCell_inv hi hp _) h v

/-- Settles O11: after the push, what is left of a CALL is a JUMP. -/
theorem callPushesThenReadsTarget : Obligations.CallPushesThenReadsTarget := by
  intro s hi u
  have hjump (hin : s.inMemory s.rp.toInt) :=
    jumpAndReturnSetProgramCounter u (State.pushed_inv hi (hi.reg_inMemory (by decide) (by decide)) hin _)
  refine ⟨exec_call_out hi, fun hin hout => ?_, fun hin hop => ?_⟩
  · rw [exec_call_eq hi hin]
    exact (hjump hin).2.1 hout
  · rw [exec_call_eq hi hin]
    exact (hjump hin).1 hop

/-! ## JUMPZ and JUMPIF (R153, R154) -/

/-- Both conditional jumps as one block: `taken` says on which conditions the jump is taken. -/
def conditionalJump (taken : Word → Bool) : Op Unit := do
  let c ← pop
  let t ← branchTarget (taken c)
  setReg Config.PC t

theorem exec_jumpz (s : State) : exec .jumpz s = run (conditionalJump isZero) s := rfl

theorem exec_jumpif (s : State) : exec .jumpif s = run (conditionalJump fun c => !isZero c) s := rfl

theorem isZero_iff {c : Word} : isZero c = true ↔ c = 0#32 := beq_iff_eq

theorem conditionalJump_out (hi : s.Inv) (h : ¬ s.inMemory (s.dp - 1#32).toInt) (taken : Word → Bool) :
    run (conditionalJump taken) s = .fault (.outOfRange (s.dp - 1#32).toInt) :=
  run_error (op_bind_error (popAt_out (hi.reg_inMemory (by decide) (by decide)) h))

/-- With the condition's cell in memory a conditional jump is a transfer from the state with the condition popped. -/
theorem conditionalJump_eq (hi : s.Inv) (h : s.inMemory (s.dp - 1#32).toInt) (taken : Word → Bool) :
    run (conditionalJump taken) s =
      run (branchTarget (taken (s.popWord Config.DP 1#32)) >>= setReg Config.PC) (s.popped Config.DP) :=
  run_bind (popAt_ok (hi.reg_inMemory (by decide) (by decide)) h)

theorem State.popped_pc (s : State) : (s.popped Config.DP).pc = s.pc :=
  State.popped_cell_other (by decide) (by decide) (by decide)

theorem conditionalJump_not_taken (hi : s.Inv) (h : s.inMemory (s.dp - 1#32).toInt) {taken : Word → Bool}
    (hc : taken (s.popWord Config.DP 1#32) = false) :
    run (conditionalJump taken) s = .next ((s.popped Config.DP).setCell Config.PC (s.pc + 1#32)) := by
  have hp : (s.popped Config.DP).inMemory Config.PC := hi.reg_inMemory (by decide) (by decide)
  rw [conditionalJump_eq hi h, ← s.popped_pc]
  exact run_setPc hp (branchTarget_not_taken hp hc)

theorem conditionalJump_taken (hi : s.Inv) (h : s.inMemory (s.dp - 1#32).toInt) {taken : Word → Bool}
    (hc : taken (s.popWord Config.DP 1#32) = true) :
    (s.inMemory s.pc.toInt → run (conditionalJump taken) s =
      .next ((s.popped Config.DP).setCell Config.PC ((s.popped Config.DP).cell s.pc.toInt))) ∧
    (¬ s.inMemory s.pc.toInt → run (conditionalJump taken) s = .fault (.outOfRange s.pc.toInt)) := by
  have hp : (s.popped Config.DP).inMemory Config.PC := hi.reg_inMemory (by decide) (by decide)
  rw [conditionalJump_eq hi h, ← s.popped_pc]
  refine ⟨fun hop => run_setPc hp (branchTarget_taken hp hop hc), fun hop => ?_⟩
  obtain ⟨t, ht⟩ := branchTarget_out (s := s.popped Config.DP) hp hop hc
  exact run_error (op_bind_error ht)

/-- Settles O13: of the two jumps the condition takes exactly one. -/
theorem conditionalJumpsPopAndBranch : Obligations.ConditionalJumpsPopAndBranch := by
  intro s hi u c
  rw [exec_jumpz, exec_jumpif]
  refine ⟨fun hout => ⟨conditionalJump_out hi hout _, conditionalJump_out hi hout _⟩, fun hin hc => ?_,
    fun hin hc => ?_⟩
  · have hz : isZero c = true := isZero_iff.2 hc
    exact ⟨conditionalJump_not_taken hi hin (congrArg not hz), conditionalJump_taken hi hin hz⟩
  · have hz : isZero c = false := Bool.eq_false_iff.2 fun h => hc (isZero_iff.1 h)
    exact ⟨conditionalJump_not_taken hi hin hz,
      conditionalJump_taken (taken := fun c => !isZero c) hi hin (congrArg not hz)⟩

end Sys2Proof.Machine
end

section
/-! PROOF. DIV and MOD (spec/43_arithmetic_logic.md R174, R175): the words they compute, then what the block they share
does with a divisor that is zero or not, and with an operand outside memory. -/

namespace Sys2Proof.Machine

variable {s : State}

/-! ## Quotient and remainder -/

theorem toInt_ne_zero {a : Word} (h : a ≠ 0#32) : a.toInt ≠ 0 := fun ha => h ((toInt_eq_zero_iff a).1 ha)

/-- What the division that rounds toward zero leaves is zero or has the dividend's sign. -/
theorem tmod_sign (b a : Int) : (0 < b.tmod a → 0 < b) ∧ (b.tmod a < 0 → b < 0) := by
  refine ⟨fun h => ?_, fun h => ?_⟩
  · by_contra hb
    have := Int.tmod_nonneg a (a := -b) (by omega)
    rw [Int.neg_tmod] at this
    omega
  · by_contra hb
    have := Int.tmod_nonneg a (a := b) (by omega)
    omega

theorem modulo_positive {b a : Word} (h : 0 < a.toInt) : modulo b a = wrap32 (b.toInt.fmod a.toInt) := by
  rw [modulo, if_pos h, Int.fmod_def]

theorem modulo_negative {b a : Word} (h : a.toInt < 0) : modulo b a = Config.modNeg b a := by
  rw [modulo, if_neg (by omega)]

/-! ## The block DIV and MOD share -/

theorem run_dividing_ok (hi : s.Inv) (h : s.twoOperands) (ha : s.popWord Config.DP 1#32 ≠ 0#32)
    (f : Word → Word → Word) :
    run (dividing f) s = .next (s.afterBinary (f (s.popWord Config.DP 2#32) (s.popWord Config.DP 1#32))) :=
  run_ok (dividing_ok hi h ha f)

theorem run_dividing_out (hi : s.Inv) {x : Int} (h : s.operandOut = some x) (f : Word → Word → Word) :
    run (dividing f) s = .fault (.outOfRange x) := by
  obtain ⟨t, ht⟩ := dividing_out hi h f
  exact run_error ht

theorem dividing_zero_outcome (hi : s.Inv) (h : s.twoOperands) (ha : s.popWord Config.DP 1#32 = 0#32)
    (f : Word → Word → Word) :
    run (dividing f) s = .fault (.divideByZero (s.popWord Config.DP 2#32)) ∧
      stateLeft (dividing f) s = { s.setCell Config.DP (s.dp - 2#32) with
        phase := .fault (.divideByZero (s.popWord Config.DP 2#32)) } := by
  have hzero := dividing_zero hi h ha f
  refine ⟨run_error hzero, ?_⟩
  rw [stateLeft, hzero]

/-! ## The instructions -/

/-- Settles O16: quotient and remainder are those of the division that rounds toward zero. -/
theorem divRoundsTowardZero : Obligations.DivRoundsTowardZero := by
  intro s hi h a b ha
  obtain ⟨hpos, hneg⟩ := tmod_sign b.toInt a.toInt
  refine ⟨b.toInt.tdiv a.toInt, b.toInt.tmod a.toInt, (Int.tdiv_mul_add_tmod _ _).symm, ?_, hpos, hneg,
    run_dividing_ok hi h ha quotient⟩
  rw [Int.natAbs_tmod]
  exact Nat.mod_lt _ (Int.natAbs_pos.2 (toInt_ne_zero ha))

/-- Settles O17: quotient and remainder are those of the floored division. -/
theorem modIsFlooredForPositiveDivisor : Obligations.ModIsFlooredForPositiveDivisor := by
  intro s hi h a b ha
  have hne : a ≠ 0#32 := fun h0 => by simp [h0] at ha
  refine ⟨b.toInt.fdiv a.toInt, b.toInt.fmod a.toInt, (Int.fdiv_mul_add_fmod _ _).symm, Int.fmod_nonneg_of_pos _ ha,
    Int.fmod_lt_of_pos _ ha, ?_⟩
  rw [← modulo_positive ha]
  exact run_dividing_ok hi h hne modulo

/-- Settles O18: the branch of `modulo` for a negative divisor is the open function. -/
theorem modByNegativeIsOpen : Obligations.ModByNegativeIsOpen := by
  intro s hi h ha
  have hne : s.popWord Config.DP 1#32 ≠ 0#32 := fun h0 => by simp [h0] at ha
  rw [← modulo_negative ha]
  exact run_dividing_ok hi h hne modulo

/-- Settles O19: DIV and MOD are one block, which tests the divisor between its pops and its push. -/
theorem divideByZeroFaults : Obligations.DivideByZeroFaults := by
  refine fun s hi => ⟨fun x hx => ⟨run_dividing_out hi hx _, run_dividing_out hi hx _⟩, fun h ha => ?_⟩
  obtain ⟨hdiv, hdivLeft⟩ := dividing_zero_outcome hi h ha quotient
  obtain ⟨hmod, hmodLeft⟩ := dividing_zero_outcome hi h ha modulo
  exact ⟨hdiv, hmod, hdivLeft, hmodLeft⟩

end Sys2Proof.Machine
end

section
/-! PROOF. The LOAD (spec/44_load_store_iomux.md R201 to R214): of a plain address, of `RN`, `XS` and `CO`, and of `XO`
with the newline normalization left out (spec/45_file_port.md R246). -/

namespace Sys2Proof.Machine

variable {s : State} {e : ReadStream} {b : Byte} {v : Word}

/-! ## A plain address (R202, R203) -/

theorem exec_load_out (hi : s.Inv) (h : ¬ s.inMemory (s.dp - 1#32).toInt) :
    exec .load s = .fault (.outOfRange (s.dp - 1#32).toInt) :=
  run_error (op_bind_error (popAt_out (hi.reg_inMemory (by decide) (by decide)) h))

/-- After the pop of the LOAD only the data pointer reads differently. -/
theorem State.popped_cell_eq {a : Int} (ha : 0 ≤ a) :
    (s.popped Config.DP).cell a = if a = Config.DP then s.dp - 1#32 else s.cell a :=
  State.cell_setCell (by decide) ha _

/-- Settles O22: the port table hands a plain address to the raw read, in the state the pop left. -/
theorem loadOfPlainAddress : Obligations.LoadOfPlainAddress := by
  intro s hi a
  refine ⟨exec_load_out hi, fun hin hplain => ⟨fun ha => ?_, fun ha => ?_⟩⟩
  · refine execLoad_next hi hin rfl rfl ?_
    rw [portLoad_plain hplain, ← State.popped_cell_eq ha.1]
    exact memRead_ok (s := s.popped Config.DP) ha
  · refine execLoad_fault hi hin ?_ (u := { s.popped Config.DP with phase := .fault (.outOfRange a) })
    rw [portLoad_plain hplain]
    exact memRead_out (s := s.popped Config.DP) ha

/-! ## The random source and the capability word (R206, R214) -/

/-- Settles O23: the draw and the capability word do not depend on what the pop changed. -/
theorem loadOfRandomAndStatus : Obligations.LoadOfRandomAndStatus := by
  refine fun s hi hin => ⟨fun hrn => ?_, fun hxs => ?_⟩
  · refine execLoad_next hi hin rfl rfl ?_
    rw [portLoad_random hrn]
    rfl
  · refine execLoad_next hi hin rfl rfl ?_
    rw [portLoad_extStatus hxs]
    rfl

/-! ## Standard input (R209) -/

/-- The word a load of `CO` makes of the host's answer. -/
def consoleWord : StdinAnswer → Word
  | .byte b => byteWord b
  | .eof => Config.minusOne
  | .failure w => w

theorem loadConsole_ok (t : State) :
    loadConsole t =
      .ok (consoleWord (tapeNext Config.stdinAnswer t.env.stdin).1)
        { t with env := { t.env with sent := t.env.sent ++ [.stdinRead],
                                     stdin := (tapeNext Config.stdinAnswer t.env.stdin).2 } } := by
  have hread : hostStdinRead t = .ok (tapeNext Config.stdinAnswer t.env.stdin).1 _ := rfl
  rw [loadConsole, op_bind_ok hread]
  cases (tapeNext Config.stdinAnswer t.env.stdin).1 <;> rfl

/-- Settles O25: one request, and the word of its answer. -/
theorem loadOfConsole : Obligations.LoadOfConsole := by
  intro s hi hin hco r u v
  have hload : exec .load s = .next (v.afterLoad (consoleWord r.1)) := by
    refine execLoad_next hi hin rfl rfl ?_
    rw [portLoad_console hco]
    exact loadConsole_ok _
  rw [hload]
  exact ⟨fun b hr => by rw [hr]; rfl, fun hr => by rw [hr]; rfl, fun w hr => by rw [hr]; rfl⟩

/-! ## A byte of a file (R212, R246) -/

theorem afterNextByte_byte (w : Word) (e : ReadStream) (hb : b ≠ Config.carriageReturn) (t : State) :
    afterNextByte w e (.byte b) t = .ok (byteWord b) t := by
  rw [afterNextByte, if_neg hb]
  rfl

theorem afterNextByte_minusOne (w : Word) (e : ReadStream) {r : ReadAnswer} (hr : r = .eof ∨ r = .failure) (t : State) :
    afterNextByte w e r t = .ok Config.minusOne t := by
  rcases hr with rfl | rfl <;> rfl

/-- A LOAD of `XO` is a byte access in the state the pop left. -/
theorem exec_load_extData {u : State} (hi : s.Inv) (hin : s.inMemory (s.dp - 1#32).toInt)
    (ha : s.topAddress = Config.XO) (hm : u.mem = s.mem) (hp : u.params = s.params)
    (hbyte : fileReadByte (s.cell Config.XA) (s.popped Config.DP) = .ok v (u.popped Config.DP)) :
    exec .load s = .next (u.afterLoad v) :=
  execLoad_next hi hin hm hp ((portLoad_fileReadByte hi ha).trans hbyte)

/-- Through a stream the byte access takes the next byte; what that byte is decides the word. -/
theorem fileReadByte_of_nextByte (s : State) {t u : State} {r : ReadAnswer} (hrd : t.rd = s.rd)
    (he : s.xaReader = some e) (hnext : nextByte (s.cell Config.XA) e t = .ok r u)
    (hafter : afterNextByte (s.cell Config.XA) e r u = .ok v u) : fileReadByte (s.cell Config.XA) t = .ok v u :=
  (fileReadByte_some s hrd he hnext).trans hafter

/-- Settles O26: without a read stream, or with a byte pushed back, the byte access asks the host for nothing. -/
theorem loadOfExtDataWithoutHost : Obligations.LoadOfExtDataWithoutHost := by
  refine fun s hi hin ha => ⟨fun hnone => ?_, fun h e b hh he hb hcr => ?_⟩
  · exact exec_load_extData hi hin ha rfl rfl (fileReadByte_none s rfl hnone)
  · have hnext := nextByte_pushback (t := s.popped Config.DP) hh hb
    exact exec_load_extData hi hin ha rfl rfl
      (fileReadByte_of_nextByte s rfl he hnext (afterNextByte_byte _ e hcr _))

/-- Settles O27: with nothing pushed back the byte access is one request to the host, and the word of its answer. -/
theorem loadOfExtDataFromHost : Obligations.LoadOfExtDataFromHost := by
  intro s hi hin ha e he hnone r u v
  have hnext : nextByte (s.cell Config.XA) e (s.popped Config.DP) = .ok r.1 (v.popped Config.DP) :=
    nextByte_host _ hnone
  have hload {w : Word} (hafter : afterNextByte (s.cell Config.XA) e r.1 (v.popped Config.DP) =
      .ok w (v.popped Config.DP)) : exec .load s = .next (v.afterLoad w) :=
    exec_load_extData hi hin ha rfl rfl (fileReadByte_of_nextByte s rfl he hnext hafter)
  refine ⟨fun b hr hcr => hload ?_, fun hr => hload (afterNextByte_minusOne _ e hr _)⟩
  rw [hr]
  exact afterNextByte_byte _ e hcr _

end Sys2Proof.Machine
end

section
/-! PROOF. The STOR (spec/44_load_store_iomux.md R205, R211, R213, R215) to a plain address, to `AU` and to `XO`, and
of a word that is no command to `XS`. -/

namespace Sys2Proof.Machine

variable {s t : State} {v : Word}

/-! ## A plain address (R204) -/

theorem exec_stor_out (hi : s.Inv) {x : Int} (h : s.operandOut = some x) : exec .stor s = .fault (.outOfRange x) := by
  obtain ⟨u, hu⟩ := pop_pop_out (f := portStore) hi h
  exact run_error hu

/-- Settles O29: the port table hands a plain address to the raw write, in the state the pops left. -/
theorem storToPlainAddress : Obligations.StorToPlainAddress := by
  refine fun s hi => ⟨fun x hx => exec_stor_out hi hx, fun h hplain => ?_⟩
  rw [execStor_eq hi h, portStore_plain hplain]
  exact ⟨fun ha => run_ok (memWrite_ok (s := s.afterStorePops) ha),
    fun ha => run_error (memWrite_out (s := s.afterStorePops) ha)⟩

/-! ## The audio port (R211, R301) -/

theorem audioAppend_room (b : Byte) (h : t.acur < 8000) :
    audioAppend b t = .ok () { t with abuf := t.abuf.setIfInBounds t.acur b, acur := t.acur + 1 } := by
  rw [audioAppend, op_modify, if_pos h]

theorem audioAppend_full (b : Byte) (h : t.acur = 8000) : audioAppend b t = .ok () t := by
  rw [audioAppend, op_modify, if_neg h.not_lt]

/-- A byte stored at the cursor is the last of the bytes accumulated once the cursor has moved on. -/
theorem take_setIfInBounds (buf : Vector Byte 8000) {n : Nat} (h : n < 8000) (b : Byte) :
    (buf.setIfInBounds n b).toList.take (n + 1) = buf.toList.take n ++ [b] := by
  rw [Vector.toList_setIfInBounds, List.take_add_one, List.take_set_of_le (Nat.le_refl n),
    List.getElem?_set_self (by rwa [Vector.length_toList])]
  rfl

/-- Settles O31: the arm of `AU` is the append, whose low byte goes to the cursor or nowhere. -/
theorem storToAudio : Obligations.StorToAudio := by
  intro s hi h hau b
  have hbyte : lowByte (s.popWord Config.DP 2#32) = b := lowByte_eq_extractLsb' _
  rw [execStor_eq hi h, portStore_audio hau, storeAudio, hbyte]
  refine ⟨fun hroom => ⟨run_ok (audioAppend_room _ hroom), take_setIfInBounds s.abuf hroom b⟩, fun hfull => ?_⟩
  exact run_ok (audioAppend_full _ hfull)

/-! ## A byte of a file (R213, R247) -/

theorem fileWriteByte_none (s : State) (hwr : t.wr = s.wr) (b : Byte) (hnone : s.xaWriter = none) :
    fileWriteByte (s.cell Config.XA) b t = .ok () t := by
  rw [fileWriteByte, op_bind_ok (writeStream_ok s hwr), hnone]
  rfl

theorem fileWriteByte_some (s : State) (hwr : t.wr = s.wr) (b : Byte) {w : Nat} (hw : s.xaWriter = some w) :
    fileWriteByte (s.cell Config.XA) b t = .ok () (t.told (.write w b)) := by
  rw [fileWriteByte, op_bind_ok (writeStream_ok s hwr), hw]
  rfl

theorem afterStorePops_reg_xa (hi : s.Inv) :
    reg Config.XA s.afterStorePops = .ok (s.cell Config.XA) s.afterStorePops := by
  have hxa : s.afterStorePops.inMemory Config.XA := hi.reg_inMemory (by decide) (by decide)
  rw [reg_ok hxa, s.afterStorePops_xa]

theorem exec_stor_extData (hi : s.Inv) (h : s.twoOperands) (ha : s.topAddress = Config.XO) :
    exec .stor s =
      run (fileWriteByte (s.cell Config.XA) ((s.popWord Config.DP 2#32).extractLsb' 0 8)) s.afterStorePops := by
  rw [execStor_eq hi h, portStore_extData ha, storeExtData, run_bind (afterStorePops_reg_xa hi),
    lowByte_eq_extractLsb']

/-- Settles O32: the arm of `XO` writes the low byte to the stream its handle has, if it has one. -/
theorem storToExtData : Obligations.StorToExtData := by
  intro s hi h ha
  rw [exec_stor_extData hi h ha]
  exact ⟨fun hnone => run_ok (fileWriteByte_none s (by rfl) _ hnone),
    fun w hw => run_ok (fileWriteByte_some s (by rfl) _ hw)⟩

/-! ## The command port (R215) -/

theorem exec_stor_extStatus (hi : s.Inv) (h : s.twoOperands) (ha : s.topAddress = Config.XS) :
    exec .stor s = run (storeExtStatus (s.popWord Config.DP 2#32)) s.afterStorePops := by
  rw [execStor_eq hi h, portStore_extStatus ha]

theorem storeExtStatus_unknown (h : v ∉ [0#32, 1#32, 2#32]) : storeExtStatus v = pure () := by
  simp only [List.mem_cons, List.not_mem_nil, or_false, not_or] at h
  obtain ⟨hclose, hread, hwrite⟩ := h
  rw [storeExtStatus, if_neg hclose, if_neg hread, if_neg hwrite]

/-- Settles O33: no command, nothing to do after the pops. -/
theorem storOfUnknownCommand : Obligations.StorOfUnknownCommand := by
  intro s hi h ha hv
  rw [exec_stor_extStatus hi h ha, storeExtStatus_unknown hv]
  rfl

end Sys2Proof.Machine
end

section
/-! PROOF. The three commands of the file port (spec/45_file_port.md R242 to R245): the close over both tables, and the
two opens as one block. -/

namespace Sys2Proof.Machine

variable {s t u : State} {path : List Word} {alloc : Nat → Op Unit}

/-! ## Close (R245) -/

theorem storeExtStatus_close : storeExtStatus 0#32 = fileClose := if_pos rfl

@[simp] theorem State.afterStorePops_env (s : State) : s.afterStorePops.env = s.env := rfl

/-- The close command from what the closes of the two tables do: a failure of either leaves -1 in `XA`. -/
theorem exec_stor_close (hi : s.Inv) (h : s.twoOperands) (ha : s.topAddress = Config.XS)
    (hv : s.popWord Config.DP 2#32 = 0#32) {f g : Bool} {c : Prop} [Decidable c]
    (hread : closeRead (s.cell Config.XA) s.afterStorePops = .ok f t)
    (hwrite : closeWrite (s.cell Config.XA) t = .ok g u) (hp : u.params = s.params) (hc : (f || g) = true ↔ c) :
    exec .stor s = .next (if c then u.setCell Config.XA 0xFFFFFFFF#32 else u) := by
  have hxa : u.inMemory Config.XA := by
    rw [State.inMemory, hp]
    exact hi.reg_inMemory (by decide) (by decide)
  rw [exec_stor_extStatus hi h ha, hv, storeExtStatus_close, fileClose, run_bind (afterStorePops_reg_xa hi),
    run_bind hread, run_bind hwrite]
  by_cases hfail : c
  · rw [if_pos (hc.2 hfail), if_pos hfail]
    exact run_ok (setReg_ok hxa)
  · rw [if_neg fun hfg => hfail (hc.1 hfg), if_neg hfail]
    rfl

/-- Settles O34: each table's close answers whether it failed, and takes its entry out of its own table. -/
theorem closeDiscardsBothStreams : Obligations.CloseDiscardsBothStreams := by
  intro s hi h ha hv p
  have hclose {f g : Bool} {t u : State} {c : Prop} [Decidable c] := exec_stor_close (f := f) (g := g) (t := t) (u := u)
    (c := c) hi h ha hv
  refine ⟨fun hr hw => ?_, fun h e hh he hw => ?_, fun h w hh hr hw => ?_, fun h e w hh he hw => ?_⟩
  · have hnext := hclose (c := False) (closeRead_none s (by rfl) hr) (closeWrite_none s (by rfl) hw) rfl (by simp)
    rwa [if_neg not_false] at hnext
  · exact hclose (closeRead_some s (by rfl) hh he) (closeWrite_none s (by rfl) hw) rfl (by simp)
  · exact hclose (closeRead_none s (by rfl) hr) (closeWrite_some s (by rfl) hh hw) rfl (by simp)
  · exact hclose (closeRead_some s (by rfl) hh he) (closeWrite_some s (by rfl) hh hw) rfl (by simp)

/-! ## Both opens (R242, R244) -/

theorem storeExtStatus_openRead : storeExtStatus 1#32 = openPath .openRead allocRead :=
  (if_neg (by decide)).trans (if_pos rfl)

theorem storeExtStatus_openWrite : storeExtStatus 2#32 = openPath .openWrite allocWrite :=
  (if_neg (by decide)).trans ((if_neg (by decide)).trans (if_pos rfl))

/-- What an open does with the host's answer. -/
def afterOpen (alloc : Nat → Op Unit) : OpenAnswer → Op Unit
  | .opened stream => alloc stream
  | .failure => setReg Config.XA Config.minusOne

/-- The state once the host has been handed a path and has answered. -/
def State.askedOpen (s : State) (ask : List Word → HostCall) (path : List Word) : State :=
  { s with env := { s.env with sent := s.env.sent ++ [ask path],
                               opens := (tapeNext (Config.openAnswer path) s.env.opens).2 } }

theorem openPath_eq (ask : List Word → HostCall) (hi : s.Inv) (h0 : 0 ≤ (s.cell Config.XA).toInt)
    (hpath : s.afterStorePops.pathAt (s.cell Config.XA).toInt path) :
    openPath ask alloc s.afterStorePops =
      afterOpen alloc (tapeNext (Config.openAnswer path) s.env.opens).1 (s.afterStorePops.askedOpen ask path) := by
  rw [openPath, op_bind_ok (afterStorePops_reg_xa hi), op_bind_ok (readString_ok h0 hpath)]
  rfl

/-- A path address that is negative ends an open before the host is asked (R243). -/
theorem openPath_negative (ask : List Word → HostCall) (hi : s.Inv) (h0 : (s.cell Config.XA).toInt < 0) :
    run (openPath ask alloc) s.afterStorePops = .fault (.outOfRange (s.cell Config.XA).toInt) := by
  have hread : readString (s.cell Config.XA).toInt s.afterStorePops = .error (.outOfRange (s.cell Config.XA).toInt) _ :=
    if_pos h0
  exact run_error ((op_bind_ok (afterStorePops_reg_xa hi)).trans (op_bind_error hread))

theorem afterOpen_failure (hxa : t.inMemory Config.XA) :
    afterOpen alloc .failure t = .ok () (t.setCell Config.XA 0xFFFFFFFF#32) :=
  setReg_ok hxa

/-- How both allocations end: the handle is left in `XA`, and the counter moves on. -/
theorem leaveHandle_ok (hxa : t.inMemory Config.XA) (n : Nat) :
    (do setReg Config.XA (wrap32 n)
        modify fun s => { s with nexth := n + 1 } : Op Unit) t =
      .ok () ({ t with nexth := n + 1 }.setCell Config.XA (BitVec.ofNat 32 n)) := by
  rw [op_bind_ok (setReg_ok hxa), op_modify, wrap32, BitVec.ofInt_natCast]
  rfl

theorem allocRead_ok (hxa : t.inMemory Config.XA) (n : Nat) :
    allocRead n t = .ok () ({ t with rd := tableInsert t.rd t.nexth { stream := n, pushback := none },
                                     nexth := t.nexth + 1 }.setCell Config.XA (BitVec.ofNat 32 t.nexth)) := by
  rw [allocRead, op_bind_ok (op_get t), op_bind_ok (op_modify _ t)]
  exact leaveHandle_ok (by exact hxa) t.nexth

theorem allocWrite_ok (hxa : t.inMemory Config.XA) (n : Nat) :
    allocWrite n t = .ok () ({ t with wr := tableInsert t.wr t.nexth n,
                                      nexth := t.nexth + 1 }.setCell Config.XA (BitVec.ofNat 32 t.nexth)) := by
  rw [allocWrite, op_bind_ok (op_get t), op_bind_ok (op_modify _ t)]
  exact leaveHandle_ok (by exact hxa) t.nexth

/-- Settles O35: the path at `XA` is asked for, and the answer decides what is entered in `rd` and in `XA`. -/
theorem openReadAllocatesHandle : Obligations.OpenReadAllocatesHandle := by
  intro s hi h ha hv p xa path h0 hpath r u v
  have hxa : v.inMemory Config.XA := hi.reg_inMemory (by decide) (by decide)
  have hopen : openPath .openRead allocRead p = afterOpen allocRead r.1 v := openPath_eq .openRead hi h0 hpath
  rw [exec_stor_extStatus hi h ha, hv, storeExtStatus_openRead]
  refine ⟨fun n hr => ?_, fun hr => ?_⟩ <;> rw [hr] at hopen
  · exact run_ok (hopen.trans (allocRead_ok hxa n))
  · exact run_ok (hopen.trans (afterOpen_failure hxa))

/-- Settles O36: as for reading, with the entry in `wr`. -/
theorem openWriteAllocatesHandle : Obligations.OpenWriteAllocatesHandle := by
  intro s hi h ha hv p xa path h0 hpath r u v
  have hxa : v.inMemory Config.XA := hi.reg_inMemory (by decide) (by decide)
  have hopen : openPath .openWrite allocWrite p = afterOpen allocWrite r.1 v := openPath_eq .openWrite hi h0 hpath
  rw [exec_stor_extStatus hi h ha, hv, storeExtStatus_openWrite]
  refine ⟨fun n hr => ?_, fun hr => ?_⟩ <;> rw [hr] at hopen
  · exact run_ok (hopen.trans (allocWrite_ok hxa n))
  · exact run_ok (hopen.trans (afterOpen_failure hxa))

/-- Settles O37: the path reader's own test comes before the host; and the cells it collects are a path string. -/
theorem pathStringExistsOrFaults : Obligations.PathStringExistsOrFaults := by
  refine ⟨fun s hi h ha hv h0 => ?_, fun s a h0 => ⟨_, pathAt_stringFrom h0⟩⟩
  rw [exec_stor_extStatus hi h ha]
  simp only [List.mem_cons, List.not_mem_nil, or_false] at hv
  rcases hv with hv | hv
  · rw [hv, storeExtStatus_openRead]
    exact openPath_negative _ hi h0
  · rw [hv, storeExtStatus_openWrite]
    exact openPath_negative _ hi h0

end Sys2Proof.Machine
end

section
/-! PROOF. One step (spec/40_engine_run_loop.md R111 to R118, spec/70_reset_and_hazards.md R351): of the sequencer, at
an instruction, at the halt address and at a word that is no opcode, and of the host, at a step boundary. -/

namespace Sys2Proof.Machine

variable {s : State} {i : Instr} {ms : List HostMove}

/-! ## The sequencer at a program counter in memory (R113, R114) -/

theorem State.boundaryPassed_inv (hi : s.Inv) : s.boundaryPassed.Inv := hi

theorem tickWord_exec {w p : Word} (hd : decodeWord w = some i) (hsync : i ≠ .sync) : tickWord w p s = exec i s := by
  simp only [tickWord, hd, if_neg hsync]

theorem tickWord_illegal {w p : Word} (hd : decodeWord w = none) : tickWord w p s = illegalWord w p s := by
  simp only [tickWord, hd]

/-- A word other than SYNC's at a program counter that is not its own cell is ticked with the counter past it. -/
theorem sequencerStep_tick (hi : s.Inv) (h : s.inMemory s.pc.toInt) (hpc : s.pc ≠ 0#32)
    (hw : s.cell s.pc.toInt ≠ opcode .sync) :
    sequencerStep s = tickWord (s.cell s.pc.toInt) s.pc (s.setCell Config.PC (s.pc + 1#32)) := by
  rw [sequencerStep_eq hi h, if_neg hw, tick_eq hi h, if_neg hpc]

/-- A program counter of 0 finds its own word there, the number of CONST. -/
theorem State.cell_pc_of_zero (hpc : s.pc = 0#32) : s.cell s.pc.toInt = opcode .const := by
  rw [hpc]
  exact hpc

/-- The fetch at its own cell finds the program counter it has just advanced, a CALL. -/
theorem sequencerStep_at_zero (hi : s.Inv) (h : s.inMemory s.pc.toInt) (hpc : s.pc = 0#32) :
    sequencerStep s = exec .call (s.setCell Config.PC 1#32) := by
  have hnosync : s.cell s.pc.toInt ≠ opcode .sync := by
    rw [State.cell_pc_of_zero hpc]
    decide
  rw [sequencerStep_eq hi h, if_neg hnosync, tick_eq hi h, if_pos hpc, hpc]
  exact tickWord_exec (decodeWord_opcode .call) (by decide)

theorem sequencerStep_exec (hi : s.Inv) (h : s.inMemory s.pc.toInt) (hpc : s.pc ≠ 0#32)
    (hd : decodeWord (s.cell s.pc.toInt) = some i) : sequencerStep s = exec i (s.setCell Config.PC (s.pc + 1#32)) := by
  have hword : s.cell s.pc.toInt = opcode i := eq_opcode_of_decodeWord hd
  by_cases hsync : i = .sync
  · rw [sequencerStep_eq hi h, if_pos (hsync ▸ hword), hsync]
  · have hne : s.cell s.pc.toInt ≠ opcode .sync := fun heq =>
      hsync (Option.some.inj (hd.symm.trans (decodeWord_eq_some_iff.2 heq)))
    rw [sequencerStep_tick hi h hpc hne, tickWord_exec hd hsync]

/-- Settles O43: the step is the sequencer's, at its own cell or not. -/
theorem stepExecutesDecodedInstruction : Obligations.StepExecutesDecodedInstruction := by
  intro s hi hex hin
  have hi' : s.boundaryPassed.Inv := State.boundaryPassed_inv hi
  rw [step_executing hex]
  exact ⟨fun hpc i hd => sequencerStep_exec hi' hin hpc hd, fun hpc => sequencerStep_at_zero hi' hin hpc⟩

/-- Settles O45: no number of R93 stands there, so neither SYNC nor the program counter's own cell can be meant. -/
theorem stepOnIllegalWord : Obligations.StepOnIllegalWord := by
  intro s hi hex hin hd
  have hi' : s.boundaryPassed.Inv := State.boundaryPassed_inv hi
  have hpc : s.pc ≠ 0#32 := fun hz => by
    rw [State.cell_pc_of_zero hz, decodeWord_opcode] at hd
    cases hd
  have hne : s.cell s.pc.toInt ≠ opcode .sync := fun hw => by
    rw [hw, decodeWord_opcode] at hd
    cases hd
  have hstep : step s =
      illegalWord (s.cell s.pc.toInt) s.pc (s.boundaryPassed.setCell Config.PC (s.pc + 1#32)) := by
    rw [step_executing hex]
    exact (sequencerStep_tick hi' hin hpc hne).trans (tickWord_illegal hd)
  have hpolicy : (s.boundaryPassed.setCell Config.PC (s.pc + 1#32)).params = s.params := rfl
  rw [hstep, illegalWord, hpolicy]
  exact ⟨fun hfault => by rw [hfault]; rfl, fun hnop => by rw [hnop]⟩

/-! ## The halt test and the range check (R114, R116, R66) -/

theorem sequencerStep_halt (hi : s.Inv) (hpc : s.pc = Config.haltPC) :
    sequencerStep s = .next { s with phase := .halted } := by
  rw [sequencerStep, andThen_ok (reg_ok (hi.reg_inMemory (by decide) (by decide))), if_pos hpc]
  rfl

theorem sequencerStep_out (hi : s.Inv) (hpc : s.pc ≠ Config.haltPC) (hout : ¬ s.inMemory s.pc.toInt) :
    sequencerStep s = .fault (.outOfRange s.pc.toInt) := by
  rw [sequencerStep, andThen_ok (reg_ok (hi.reg_inMemory (by decide) (by decide))), if_neg hpc,
    andThen_error (memRead_out hout)]

/-- Settles O44: the halt test is the sequencer's first, the look at the next opcode its second. -/
theorem stepTestsHaltThenRange : Obligations.StepTestsHaltThenRange := by
  intro s hi hex
  have hi' : s.boundaryPassed.Inv := State.boundaryPassed_inv hi
  rw [step_executing hex]
  exact ⟨fun hhalt => sequencerStep_halt hi' hhalt, fun hne hout => sequencerStep_out hi' hne hout⟩

/-! ## Outside an invocation, and the host's moves (R36, R117, R351) -/

/-- Settles O46: in IDLE the machine's turn is the frame call, and a terminal phase is its own answer. -/
theorem idleInvokesAndTerminalPhasesStay : Obligations.IdleInvokesAndTerminalPhasesStay := by
  refine ⟨fun s hidle hmoves => ?_, fun s hhalted => ?_, fun s f hfault => ?_⟩
  · unfold step turn
    rcases hmoves with hm | ⟨ms, hm⟩ <;>
      simp only [hidle, hm, machineTurn, frameCall, run, op_setPhase, State.boundaryPassed, List.tail_nil,
        List.tail_cons, State.withMoves_same, State.withMoves_phase]
  · simp only [step, turn, hhalted]
  · simp only [step, turn, hfault]

/-- Not halted, and no fault raised. -/
def Phase.live (p : Phase) : Prop := p = .idle ∨ p = .run ∨ ∃ y, p = .scan y

theorem step_setKeys (hp : s.phase.live) {w : Word} (hm : s.env.moves = .setKeys w :: ms) :
    step s = keyMove (fun t => { t with keys := w }) (s.withMoves ms) := by
  rcases hp with hp | hp | ⟨y, hp⟩ <;> simp only [step, turn, hp, hm]

theorem step_press (hp : s.phase.live) {c : Word} (hm : s.env.moves = .press c :: ms) :
    step s = keyMove (fun t => { t with keyq := t.keyq ++ [c] }) (s.withMoves ms) := by
  rcases hp with hp | hp | ⟨y, hp⟩ <;> simp only [step, turn, hp, hm]

theorem keyWindowOpen_of (hp : s.phase.live) (h : s.params.keyWindow = .anyStepBoundary ∨ s.phase = .idle) :
    keyWindowOpen (s.withMoves ms) = true := by
  have hany (hne : s.phase ≠ .idle) : s.params.keyWindow = .anyStepBoundary := h.resolve_right hne
  rcases hp with hp | hp | ⟨y, hp⟩
  · simp only [keyWindowOpen, State.withMoves_phase, hp]
  · simp [keyWindowOpen, hp, hany (by simp [hp])]
  · simp [keyWindowOpen, hp, hany (by simp [hp])]

theorem keyWindowOpen_idleOnly (h : s.params.keyWindow = .idleOnly) (hidle : s.phase ≠ .idle) :
    ¬ keyWindowOpen (s.withMoves ms) = true := by
  cases hp : s.phase with
  | idle => exact absurd hp hidle
  | _ => simp [keyWindowOpen, hp, h]

/-- Settles O47: a pending mutation is the whole step, inside the window a change of its one field. -/
theorem hostMutatesKeysInItsWindow : Obligations.HostMutatesKeysInItsWindow := by
  refine fun s ms hp => ⟨fun hwin => ?_, fun hwin hidle => ?_⟩
  · have hopen := keyWindowOpen_of (ms := ms) hp hwin
    exact ⟨fun w hm => (step_setKeys hp hm).trans (if_pos hopen), fun c hm => (step_press hp hm).trans (if_pos hopen)⟩
  · have hshut := keyWindowOpen_idleOnly (ms := ms) hwin hidle
    exact ⟨fun w hm => (step_setKeys hp hm).trans (if_neg hshut), fun c hm => (step_press hp hm).trans (if_neg hshut)⟩

end Sys2Proof.Machine
end

section
/-! PROOF. What the instructions that work on memory alone leave unchanged (spec/41_stack_ops.md R130,
spec/42_control_transfer.md R150, spec/43_arithmetic_logic.md R170): the cells each of them writes, read off its
effect. -/

namespace Sys2Proof.Machine

variable {s t u : State} {i : Instr} {A B : Set Int}

/-! ## The cells written -/

/-- Only memory differs, and in memory only cells of `A`. -/
structure State.WritesOnly (s t : State) (A : Set Int) : Prop where
  memOnly : s.MemOnly t
  cell : ∀ a : Int, 0 ≤ a → a ∉ A → t.cell a = s.cell a

theorem State.WritesOnly.trans (h : s.WritesOnly t A) (k : t.WritesOnly u B) : s.WritesOnly u (A ∪ B) :=
  ⟨h.memOnly.trans k.memOnly, fun a ha hn =>
    (k.cell a ha fun hB => hn (.inr hB)).trans (h.cell a ha fun hA => hn (.inl hA))⟩

theorem State.writesOnly_setCell (s : State) {a : Int} (ha : 0 ≤ a) (v : Word) : s.WritesOnly (s.setCell a v) {a} :=
  ⟨s.memOnly_setCell a v, fun _ hb hn => State.cell_setCell_other ha hb hn v⟩

theorem State.writesOnly_pushed (s : State) {ptr : Int} (hp : 0 ≤ ptr) (ht : 0 ≤ (s.cell ptr).toInt) (v : Word) :
    s.WritesOnly (s.pushed ptr v) ({ptr} ∪ {(s.cell ptr).toInt}) :=
  (s.writesOnly_setCell hp _).trans (State.writesOnly_setCell _ ht v)

theorem State.writesOnly_afterBinary (s : State) (h : s.twoOperands) (v : Word) :
    s.WritesOnly (s.afterBinary v) ({Config.DP} ∪ {(s.dp - 2#32).toInt}) :=
  (s.writesOnly_setCell (by decide) _).trans (State.writesOnly_setCell _ h.2.1 v)

/-! ## The case in which an instruction answers a next state -/

section
variable {P Q : Prop} {f g : Fault} {o : Host.Outcome State Fault Refusal}

theorem next_of_guard (hfault : ¬ P → o = .fault f) (hnext : P → o = .next u) (h : o = .next t) : P ∧ t = u := by
  by_cases hP : P
  · exact ⟨hP, Host.Outcome.next.inj (h.symm.trans (hnext hP))⟩
  · cases h.symm.trans (hfault hP)

theorem next_of_guards (hfirst : ¬ P → o = .fault f) (hsecond : P → ¬ Q → o = .fault g)
    (hnext : P → Q → o = .next u) (h : o = .next t) : (P ∧ Q) ∧ t = u := by
  by_cases hP : P
  · obtain ⟨hQ, htu⟩ := next_of_guard (hsecond hP) (hnext hP) h
    exact ⟨⟨hP, hQ⟩, htu⟩
  · cases h.symm.trans (hfirst hP)

end

theorem State.operands_in_or_out (s : State) : s.twoOperands ∨ ∃ x, s.operandOut = some x := by
  unfold State.operandOut
  by_cases h1 : s.inMemory (s.dp - 1#32).toInt
  · by_cases h2 : s.inMemory (s.dp - 2#32).toInt
    · exact .inl ⟨h1, h2⟩
    · exact .inr ⟨_, by rw [if_pos h1, if_neg h2]⟩
  · exact .inr ⟨_, if_neg h1⟩

/-- An instruction that faults where an operand leaves memory had both in memory. -/
theorem twoOperands_of_next {o : Host.Outcome State Fault Refusal}
    (hout : ∀ x, s.operandOut = some x → o = .fault (.outOfRange x)) (h : o = .next t) : s.twoOperands := by
  rcases s.operands_in_or_out with hin | ⟨x, hx⟩
  · exact hin
  · cases h.symm.trans (hout x hx)

/-! ## Arithmetic, logic and comparison (R170) -/

theorem exec_binary_inv (hi : s.Inv) (hmem : i ∈ binaryInstrs) (h : exec i s = .next t) :
    s.twoOperands ∧ ∃ v, t = s.afterBinary v := by
  have hin := twoOperands_of_next (fun x hx => exec_binary_out hi hx (List.Subset.refl _) hmem) h
  refine ⟨hin, ?_⟩
  simp only [binaryInstrs, List.mem_cons, List.not_mem_nil, or_false] at hmem
  rcases hmem with rfl | rfl | rfl | rfl | rfl | rfl | rfl | rfl <;>
    exact ⟨_, Host.Outcome.next.inj (h.symm.trans (run_binary_ok hi hin _))⟩

theorem run_dividing_inv (hi : s.Inv) {f : Word → Word → Word} (h : run (dividing f) s = .next t) :
    s.twoOperands ∧ ∃ v, t = s.afterBinary v := by
  have hin := twoOperands_of_next (fun x hx => run_dividing_out hi hx f) h
  by_cases ha : s.popWord Config.DP 1#32 = 0#32
  · cases h.symm.trans (dividing_zero_outcome hi hin ha f).1
  · exact ⟨hin, _, Host.Outcome.next.inj (h.symm.trans (run_dividing_ok hi hin ha f))⟩

/-- The arithmetic, logic and comparison instructions with two operands. -/
theorem exec_twoOperands_writes (hi : s.Inv) (hmem : i ∈ binaryInstrs ∨ i = .div ∨ i = .mod)
    (h : exec i s = .next t) : s.WritesOnly t ({Config.DP} ∪ {(s.dp - 2#32).toInt}) := by
  have hinv : s.twoOperands ∧ ∃ v, t = s.afterBinary v := by
    rcases hmem with hbin | rfl | rfl
    · exact exec_binary_inv hi hbin h
    · exact run_dividing_inv hi h
    · exact run_dividing_inv hi h
  obtain ⟨hin, v, rfl⟩ := hinv
  exact s.writesOnly_afterBinary hin v

theorem exec_not_writes (hi : s.Inv) (h : exec .not s = .next t) : s.WritesOnly t {(s.dp - 1#32).toInt} := by
  obtain ⟨hin, rfl⟩ := next_of_guard (exec_not_out hi) (exec_not_next hi) h
  exact s.writesOnly_setCell hin.1 _

/-- Settles O48: the result is in the second operand's cell, of NOT in the only one's. -/
theorem arithmeticFrame : Obligations.ArithmeticFrame := by
  intro i s t hmem hi h
  by_cases hnot : i = .not
  · subst hnot
    have hw := exec_not_writes hi h
    exact ⟨hw.memOnly, fun a ha _ hres => hw.cell a ha hres⟩
  · have hfam : i ∈ binaryInstrs ∨ i = .div ∨ i = .mod :=
      (by decide : ∀ j ∈ [Instr.add, .sub, .mul, .div, .mod, .and, .or, .xor, .sgt, .slt, .not],
        j ≠ .not → j ∈ binaryInstrs ∨ j = .div ∨ j = .mod) i hmem hnot
    have hw := exec_twoOperands_writes hi hfam h
    rw [if_neg hnot]
    exact ⟨hw.memOnly, fun a ha hdp hres => hw.cell a ha (not_or.2 ⟨hdp, hres⟩)⟩

/-! ## Stack instructions (R130) -/

theorem exec_const_writes (hi : s.Inv) (h : exec .const s = .next t) :
    s.WritesOnly t ({Config.PC} ∪ ({Config.DP} ∪ {s.dp.toInt})) := by
  obtain ⟨hread, hpush, hnext⟩ := constPushesOperand s hi
  obtain ⟨⟨-, hin⟩, rfl⟩ := next_of_guards hread hpush hnext h
  have hdp : (s.setCell Config.PC (s.pc + 1#32)).cell Config.DP = s.dp := State.setPc_dp _ _
  have hw := (s.setCell Config.PC (s.pc + 1#32)).writesOnly_pushed (ptr := Config.DP) (by decide)
    (by rw [hdp]; exact hin.1)
  rw [hdp] at hw
  exact (s.writesOnly_setCell (by decide) _).trans (hw _)

theorem exec_drop_writes (hi : s.Inv) (h : exec .drop s = .next t) : s.WritesOnly t {Config.DP} := by
  obtain ⟨hin, hout⟩ := dropReadsTheCellItDiscards s hi
  obtain ⟨-, rfl⟩ := next_of_guard (fun hn => (hout hn).1) hin h
  exact s.writesOnly_setCell (by decide) _

theorem exec_swap_writes (hi : s.Inv) (h : exec .swap s = .next t) :
    s.WritesOnly t ({Config.DP} ∪ {(s.dp - 2#32).toInt} ∪
      ({Config.DP} ∪ {(s.afterBinary (s.popWord Config.DP 1#32)).dp.toInt})) := by
  obtain ⟨hout, hexchange⟩ := swapExchangesTopTwo s hi
  have hops := twoOperands_of_next hout h
  obtain ⟨-, hnext, hfault⟩ := hexchange hops
  obtain ⟨hin, rfl⟩ := next_of_guard hfault hnext h
  exact (s.writesOnly_afterBinary hops _).trans (State.writesOnly_pushed _ (by decide) hin.1 _)

theorem exec_dup_writes (hi : s.Inv) (h : exec .dup s = .next t) :
    s.WritesOnly t ({Config.DP} ∪ {s.dp.toInt}) := by
  obtain ⟨hread, hpush, hnext, -⟩ := dupAndOverPushACopy s hi
  obtain ⟨⟨-, hin⟩, rfl⟩ := next_of_guards hread hpush hnext h
  exact s.writesOnly_pushed (by decide) hin.1 _

theorem exec_ovr_writes (hi : s.Inv) (h : exec .ovr s = .next t) :
    s.WritesOnly t ({Config.DP} ∪ {s.dp.toInt}) := by
  obtain ⟨-, -, -, hread, hpush, hnext⟩ := dupAndOverPushACopy s hi
  obtain ⟨⟨-, hin⟩, rfl⟩ := next_of_guards hread hpush hnext h
  exact s.writesOnly_pushed (by decide) hin.1 _

/-- A word moved from one stack to another writes the two pointers and the cell pushed to. -/
theorem popped_pushed_writes {src dst : Int} (hs : 0 ≤ src) (hd : 0 ≤ dst) (hne : dst ≠ src)
    (ht : 0 ≤ (s.cell dst).toInt) (v : Word) :
    s.WritesOnly ((s.popped src).pushed dst v) ({src} ∪ ({dst} ∪ {(s.cell dst).toInt})) := by
  have hdst : (s.popped src).cell dst = s.cell dst := State.popped_cell_other hs hd hne
  have hw := (s.popped src).writesOnly_pushed hd (by rwa [hdst]) v
  rw [hdst] at hw
  exact (s.writesOnly_setCell hs _).trans hw

theorem exec_str_writes (hi : s.Inv) (h : exec .str s = .next t) :
    s.WritesOnly t ({Config.DP} ∪ ({Config.RP} ∪ {s.rp.toInt})) := by
  obtain ⟨hpop, hpush, hnext, -⟩ := strAndRtsMoveBetweenStacks s hi
  obtain ⟨⟨-, hin⟩, rfl⟩ := next_of_guards hpop hpush hnext h
  exact popped_pushed_writes (by decide) (by decide) (by decide) hin.1 _

theorem exec_rts_writes (hi : s.Inv) (h : exec .rts s = .next t) :
    s.WritesOnly t ({Config.RP} ∪ ({Config.DP} ∪ {s.dp.toInt})) := by
  obtain ⟨-, -, -, hpop, hpush, hnext⟩ := strAndRtsMoveBetweenStacks s hi
  obtain ⟨⟨-, hin⟩, rfl⟩ := next_of_guards hpop hpush hnext h
  exact popped_pushed_writes (by decide) (by decide) (by decide) hin.1 _

/-- Settles O49: each instruction's cells are among those its clauses name. -/
theorem stackFrame : Obligations.StackFrame := by
  intro i s t hmem hi h
  simp only [List.mem_cons, List.not_mem_nil, or_false] at hmem
  rcases hmem with rfl | rfl | rfl | rfl | rfl | rfl | rfl
  · have hw := exec_const_writes hi h
    exact ⟨hw.memOnly, fun a ha hdp hconst _ _ _ _ =>
      hw.cell a ha (not_or.2 ⟨(hconst rfl).1, not_or.2 ⟨hdp, (hconst rfl).2⟩⟩)⟩
  · have hw := exec_drop_writes hi h
    exact ⟨hw.memOnly, fun a ha hdp _ _ _ _ _ => hw.cell a ha hdp⟩
  · have hw := exec_swap_writes hi h
    exact ⟨hw.memOnly, fun a ha hdp _ _ _ _ hswap =>
      hw.cell a ha (not_or.2 ⟨not_or.2 ⟨hdp, (hswap rfl).1⟩, not_or.2 ⟨hdp, (hswap rfl).2⟩⟩)⟩
  · have hw := exec_dup_writes hi h
    exact ⟨hw.memOnly, fun a ha hdp _ htop _ _ _ => hw.cell a ha (not_or.2 ⟨hdp, htop (by decide)⟩)⟩
  · have hw := exec_ovr_writes hi h
    exact ⟨hw.memOnly, fun a ha hdp _ htop _ _ _ => hw.cell a ha (not_or.2 ⟨hdp, htop (by decide)⟩)⟩
  · have hw := exec_str_writes hi h
    exact ⟨hw.memOnly, fun a ha hdp _ _ hrp htop _ =>
      hw.cell a ha (not_or.2 ⟨hdp, not_or.2 ⟨hrp (by decide), htop rfl⟩⟩)⟩
  · have hw := exec_rts_writes hi h
    exact ⟨hw.memOnly, fun a ha hdp _ htop hrp _ _ =>
      hw.cell a ha (not_or.2 ⟨hrp (by decide), not_or.2 ⟨hdp, htop (by decide)⟩⟩)⟩

/-! ## Control transfers (R150) -/

theorem exec_call_writes (hi : s.Inv) (h : exec .call s = .next t) :
    s.WritesOnly t ({Config.RP} ∪ {s.rp.toInt} ∪ {Config.PC}) := by
  obtain ⟨hpush, hread, hnext⟩ := callPushesThenReadsTarget s hi
  obtain ⟨⟨hin, -⟩, rfl⟩ := next_of_guards hpush hread hnext h
  exact (s.writesOnly_pushed (by decide) hin.1 _).trans (State.writesOnly_setCell _ (by decide) _)

theorem exec_jump_writes (hi : s.Inv) (h : exec .jump s = .next t) : s.WritesOnly t {Config.PC} := by
  obtain ⟨hin, hout, -⟩ := jumpAndReturnSetProgramCounter s hi
  obtain ⟨-, rfl⟩ := next_of_guard hout hin h
  exact s.writesOnly_setCell (by decide) _

theorem exec_ret_writes (hi : s.Inv) (h : exec .ret s = .next t) : s.WritesOnly t ({Config.RP} ∪ {Config.PC}) := by
  obtain ⟨-, -, hin, hout⟩ := jumpAndReturnSetProgramCounter s hi
  obtain ⟨-, rfl⟩ := next_of_guard hout hin h
  exact (s.writesOnly_setCell (by decide) _).trans (State.writesOnly_setCell _ (by decide) _)

/-- Taken or not, a conditional jump pops its condition and writes the program counter. -/
theorem conditionalJump_writes (hi : s.Inv) {taken : Word → Bool} (h : run (conditionalJump taken) s = .next t) :
    s.WritesOnly t ({Config.DP} ∪ {Config.PC}) := by
  have hsets (v : Word) : s.WritesOnly ((s.popped Config.DP).setCell Config.PC v) ({Config.DP} ∪ {Config.PC}) :=
    (s.writesOnly_setCell (by decide) _).trans (State.writesOnly_setCell _ (by decide) v)
  by_cases hin : s.inMemory (s.dp - 1#32).toInt
  · cases hc : taken (s.popWord Config.DP 1#32) with
    | false =>
      cases h.symm.trans (conditionalJump_not_taken hi hin hc)
      exact hsets _
    | true =>
      obtain ⟨hnext, hfault⟩ := conditionalJump_taken hi hin hc
      obtain ⟨-, rfl⟩ := next_of_guard hfault hnext h
      exact hsets _
  · cases h.symm.trans (conditionalJump_out hi hin taken)

theorem exec_next_writes (hi : s.Inv) (h : exec .next s = .next t) :
    s.WritesOnly t ({(s.rp - 1#32).toInt} ∪ {Config.PC}) := by
  obtain ⟨hout, hcounted⟩ := nextDecrementsInPlace s hi
  by_cases hin : s.inMemory (s.rp - 1#32).toInt
  · obtain ⟨hfall, hnext, hfault⟩ := hcounted hin
    have hsets (v w : Word) : s.WritesOnly ((s.setCell (s.rp - 1#32).toInt v).setCell Config.PC w)
        ({(s.rp - 1#32).toInt} ∪ {Config.PC}) :=
      (s.writesOnly_setCell hin.1 v).trans (State.writesOnly_setCell _ (by decide) w)
    rcases lt_or_ge (s.cell (s.rp - 1#32).toInt - 1#32).toInt 0 with hneg | hnn
    · cases h.symm.trans (hfall hneg)
      exact hsets _ _
    · obtain ⟨-, rfl⟩ := next_of_guard (hfault hnn) (hnext hnn) h
      exact hsets _ _
  · cases h.symm.trans (hout hin)

/-- Settles O50: each instruction's cells are among those its clauses name. -/
theorem controlFrame : Obligations.ControlFrame := by
  intro i s t hmem hi h
  simp only [List.mem_cons, List.not_mem_nil, or_false] at hmem
  rcases hmem with rfl | rfl | rfl | rfl | rfl | rfl
  · have hw := exec_call_writes hi h
    exact ⟨hw.memOnly, fun a ha hpc _ hrp htop _ =>
      hw.cell a ha (not_or.2 ⟨not_or.2 ⟨hrp (by decide), htop rfl⟩, hpc⟩)⟩
  · have hw := exec_jump_writes hi h
    exact ⟨hw.memOnly, fun a ha hpc _ _ _ _ => hw.cell a ha hpc⟩
  · have hw := conditionalJump_writes hi (taken := isZero) h
    exact ⟨hw.memOnly, fun a ha hpc hdp _ _ _ => hw.cell a ha (not_or.2 ⟨hdp (by decide), hpc⟩)⟩
  · have hw := conditionalJump_writes hi (taken := fun c => !isZero c) h
    exact ⟨hw.memOnly, fun a ha hpc hdp _ _ _ => hw.cell a ha (not_or.2 ⟨hdp (by decide), hpc⟩)⟩
  · have hw := exec_ret_writes hi h
    exact ⟨hw.memOnly, fun a ha hpc _ hrp _ _ => hw.cell a ha (not_or.2 ⟨hrp (by decide), hpc⟩)⟩
  · have hw := exec_next_writes hi h
    exact ⟨hw.memOnly, fun a ha hpc _ _ _ hcount => hw.cell a ha (not_or.2 ⟨hcount rfl, hpc⟩)⟩

end Sys2Proof.Machine
end

section
/-! PROOF. What LOAD and STOR leave unchanged (spec/44_load_store_iomux.md R203, R204): what each port of the two tables
touches, then the instructions. -/

namespace Sys2Proof.Machine

variable {s t : State} {addr v : Word}

/-- A block that always succeeds stays within a relation if the state it leaves does. -/
theorem op_within_of_total {α : Type} {R : State → State → Prop} {op : Op α} {value : State → α} {after : State → State}
    (hop : ∀ s, op s = .ok (value s) (after s)) (h : ∀ s, R s (after s)) : Op.Within R op := by
  intro s a t he
  rw [hop] at he
  cases he
  exact h s

/-! ## LOAD (R203) -/

/-- What the port `a` of a load can touch: the key queue, the entry of the handle in `XA`, the host's side. -/
structure PortRead (a : Int) (s t : State) : Prop where
  eq : t = { s with keyq := t.keyq, rd := t.rd, env := t.env }
  keyq : a ≠ Config.KB → t.keyq = s.keyq
  rd : a ≠ Config.XO → t.rd = s.rd
  other : ∀ h, handleOf (s.cell Config.XA) ≠ some h → tableFind t.rd h = tableFind s.rd h

/-- The ports that ask the host at most. -/
theorem PortRead.of_env {a : Int} (heq : t = { s with env := t.env }) : PortRead a s t := by
  rw [heq]
  exact ⟨rfl, fun _ => rfl, fun _ => rfl, fun _ _ => rfl⟩

theorem loadKeyQueue_touches (h : loadKeyQueue s = .ok v t) : PortRead Config.KB s t := by
  unfold loadKeyQueue at h
  split at h <;> cases h
  · exact .of_env rfl
  · exact ⟨rfl, fun hne => absurd rfl hne, fun _ => rfl, fun _ _ => rfl⟩

theorem loadExtData_touches (h : loadExtData s = .ok v t) : PortRead Config.XO s t := by
  obtain ⟨x, _, hreg, hbyte⟩ := op_bind_inv h
  obtain ⟨-, rfl, rfl⟩ := reg_inv hreg
  rcases fileReadByte_inv hbyte with rfl | ⟨k, e, hk, -, hr⟩
  · exact .of_env rfl
  · refine ⟨?_, fun _ => ?_, fun hne => absurd rfl hne, fun j hj => hr.other j fun hjk => hj (hjk ▸ hk)⟩
    · rw [hr.eq]
    · rw [hr.eq]

theorem portLoad_touches (h : portLoad addr s = .ok v t) : PortRead addr.toInt s t := by
  simp only [portLoad] at h
  split_ifs at h with hrn hky hkb hco hxo hxs
  · cases h
    exact .of_env rfl
  · cases h
    exact .of_env rfl
  · exact hkb ▸ loadKeyQueue_touches h
  · cases (loadConsole_ok s).symm.trans h
    exact .of_env rfl
  · exact hxo ▸ loadExtData_touches h
  · cases h
    exact .of_env rfl
  · obtain ⟨-, -, rfl⟩ := memRead_inv h
    exact .of_env rfl

/-- A LOAD reads its port and puts the value in the address's place. -/
theorem exec_load_inv (hi : s.Inv) (h : exec .load s = .next t) :
    s.inMemory (s.dp - 1#32).toInt ∧ ∃ u v, PortRead s.topAddress s u ∧ t = u.setCell (s.dp - 1#32).toInt v := by
  have hd : s.inMemory Config.DP := hi.reg_inMemory (by decide) (by decide)
  by_cases hin : s.inMemory (s.dp - 1#32).toInt
  · refine ⟨hin, ?_⟩
    obtain ⟨v, u, hport, hpush⟩ := op_bind_inv ((op_bind_ok (popAt_ok hd hin)).symm.trans (run_next_iff.1 h))
    obtain ⟨heq, hkeyq, hrd, hother⟩ := portLoad_touches hport
    rw [s.popped_xa] at hother
    refine ⟨{ s with keyq := u.keyq, rd := u.rd, env := u.env }, v, ⟨rfl, hkeyq, hrd, hother⟩, ?_⟩
    have hpop : u = State.popped { s with keyq := u.keyq, rd := u.rd, env := u.env } Config.DP := heq
    rw [hpop, push_after_pop (by exact hi.2.1.1) (by exact hd) (by exact hin)] at hpush
    cases hpush
    rfl
  · cases h.symm.trans (exec_load_out hi hin)

theorem PortRead.cell {a : Int} (k : PortRead a s t) (b : Int) : t.cell b = s.cell b := by
  rw [k.eq]
  rfl

theorem loadFrame (hi : s.Inv) (h : exec .load s = .next t) :
    t = { s with mem := t.mem, keyq := t.keyq, rd := t.rd, env := t.env } ∧
    (∀ a : Int, 0 ≤ a → a ≠ (s.dp - 1#32).toInt → t.cell a = s.cell a) ∧
    (s.topAddress ≠ Config.KB → t.keyq = s.keyq) ∧ (s.topAddress ≠ Config.XO → t.rd = s.rd) ∧
    (∀ h, some h ≠ s.xaHandle → tableFind t.rd h = tableFind s.rd h) := by
  obtain ⟨hin, u, v, hport, rfl⟩ := exec_load_inv hi h
  refine ⟨?_, fun a ha hne => ?_, hport.keyq, hport.rd, fun h hh => hport.other h hh.symm⟩
  · rw [hport.eq]
    rfl
  · rw [State.cell_setCell_other hin.1 ha hne, hport.cell]

/-! ## The commands of the file port (R215) -/

/-- What a command touches: `XA`, the stream tables and their counter, the host's side. -/
structure Commanded (s t : State) : Prop where
  eq : t = { s with mem := t.mem, rd := t.rd, wr := t.wr, nexth := t.nexth, env := t.env }
  cell : ∀ a : Int, 0 ≤ a → a ≠ Config.XA → t.cell a = s.cell a

/-- A command that leaves memory alone. -/
theorem Commanded.of_streams (heq : t = { s with rd := t.rd, wr := t.wr, nexth := t.nexth, env := t.env }) :
    Commanded s t := by
  rw [heq]
  exact ⟨rfl, fun _ _ _ => rfl⟩

theorem Commanded.refl (s : State) : Commanded s s := .of_streams rfl

theorem Commanded.trans (s t u : State) (a : Commanded s t) (b : Commanded t u) : Commanded s u := by
  refine ⟨?_, fun c hc hne => (b.cell c hc hne).trans (a.cell c hc hne)⟩
  have heq := b.eq
  rw [a.eq] at heq
  exact heq

theorem commanded_of_total {α : Type} {op : Op α} {value : State → α} {after : State → State}
    (hop : ∀ s, op s = .ok (value s) (after s))
    (h : ∀ s, after s = { s with rd := (after s).rd, wr := (after s).wr, nexth := (after s).nexth,
                                 env := (after s).env }) : Op.Within Commanded op :=
  op_within_of_total hop fun s => .of_streams (h s)

theorem setXa_commanded (v : Word) : Op.Within Commanded (setReg Config.XA v) := by
  intro s _ t h
  obtain ⟨-, rfl⟩ := setReg_inv h
  exact ⟨rfl, fun a ha hne => State.cell_setCell_other (by decide) ha hne v⟩

theorem closeRead_commanded (w : Word) : Op.Within Commanded (closeRead w) := by
  refine op_within_bind Commanded.trans (readStream_within Commanded.refl w) fun o => ?_
  cases o with
  | none => exact op_within_pure Commanded.refl _
  | some e =>
    exact op_within_bind Commanded.trans (commanded_of_total (fun _ => rfl) fun _ => rfl) fun _ =>
      op_within_bind Commanded.trans (commanded_of_total (op_modify _) fun _ => rfl) fun _ =>
        op_within_pure Commanded.refl _

theorem closeWrite_commanded (w : Word) : Op.Within Commanded (closeWrite w) := by
  refine op_within_bind Commanded.trans (writeStream_within Commanded.refl w) fun o => ?_
  cases o with
  | none => exact op_within_pure Commanded.refl _
  | some n =>
    exact op_within_bind Commanded.trans (commanded_of_total (fun _ => rfl) fun _ => rfl) fun _ =>
      op_within_bind Commanded.trans (commanded_of_total (op_modify _) fun _ => rfl) fun _ =>
        op_within_pure Commanded.refl _

theorem fileClose_commanded : Op.Within Commanded fileClose :=
  op_within_bind Commanded.trans (memRead_within Commanded.refl _) fun h =>
    op_within_bind Commanded.trans (closeRead_commanded h) fun _ =>
      op_within_bind Commanded.trans (closeWrite_commanded h) fun _ =>
        op_within_ite (fun _ => setXa_commanded _) fun _ => op_within_pure Commanded.refl _

theorem allocRead_commanded (n : Nat) : Op.Within Commanded (allocRead n) := by
  intro s _ t h
  obtain ⟨-, rfl⟩ := allocRead_inv h
  exact ⟨rfl, fun a ha hne => State.cell_setCell_other (by decide) ha hne _⟩

theorem allocWrite_commanded (n : Nat) : Op.Within Commanded (allocWrite n) := by
  intro s _ t h
  obtain ⟨-, rfl⟩ := allocWrite_inv h
  exact ⟨rfl, fun a ha hne => State.cell_setCell_other (by decide) ha hne _⟩

theorem openPath_commanded (ask : List Word → HostCall) {alloc : Nat → Op Unit}
    (halloc : ∀ n, Op.Within Commanded (alloc n)) : Op.Within Commanded (openPath ask alloc) := by
  refine op_within_bind Commanded.trans (memRead_within Commanded.refl _) fun _ =>
    op_within_bind Commanded.trans (readString_within Commanded.refl _) fun path =>
    op_within_bind Commanded.trans (commanded_of_total (fun _ => rfl) fun _ => rfl) fun _ =>
    op_within_bind Commanded.trans (commanded_of_total (fun _ => rfl) fun _ => rfl) fun r => ?_
  cases r with
  | opened n => exact halloc n
  | failure => exact setXa_commanded _

theorem storeExtStatus_commanded (v : Word) : Op.Within Commanded (storeExtStatus v) := by
  unfold storeExtStatus
  rw [fileOpenRead_eq, fileOpenWrite_eq]
  exact op_within_ite (fun _ => fileClose_commanded) fun _ =>
    op_within_ite (fun _ => openPath_commanded _ allocRead_commanded) fun _ =>
      op_within_ite (fun _ => openPath_commanded _ allocWrite_commanded) fun _ =>
        op_within_pure Commanded.refl _

/-! ## STOR (R204) -/

/-- What the port `a` of a store can touch. -/
structure PortWritten (a : Int) (s t : State) : Prop where
  eq : t = { s with mem := t.mem, abuf := t.abuf, acur := t.acur, rd := t.rd, wr := t.wr, nexth := t.nexth,
                    env := t.env }
  cell : ∀ b : Int, 0 ≤ b → (a ∉ [Config.CO, Config.AU, Config.XO, Config.XS] → b ≠ a) →
    (a = Config.XS → b ≠ Config.XA) → t.cell b = s.cell b
  audio : a ≠ Config.AU → t.abuf = s.abuf ∧ t.acur = s.acur
  streams : a ≠ Config.XS → t.rd = s.rd ∧ t.wr = s.wr ∧ t.nexth = s.nexth

/-- The ports that hand bytes to the host. -/
theorem PortWritten.of_env {a : Int} (heq : t = { s with env := t.env }) : PortWritten a s t := by
  rw [heq]
  exact ⟨rfl, fun _ _ _ _ => rfl, fun _ => ⟨rfl, rfl⟩, fun _ => ⟨rfl, rfl, rfl⟩⟩

theorem storeAudio_touches (h : storeAudio v s = .ok () t) : PortWritten Config.AU s t := by
  rw [storeAudio, audioAppend, op_modify] at h
  split at h <;> cases h
  · exact ⟨rfl, fun _ _ _ _ => rfl, fun hne => absurd rfl hne, fun _ => ⟨rfl, rfl, rfl⟩⟩
  · exact .of_env rfl

theorem storeExtData_touches {a : Int} (h : storeExtData v s = .ok () t) : PortWritten a s t := by
  obtain ⟨x, u, hreg, hbyte⟩ := op_bind_inv h
  obtain ⟨-, hx, hu⟩ := reg_inv hreg
  rw [hx, hu] at hbyte
  cases hw : s.xaWriter with
  | none =>
    cases (fileWriteByte_none s rfl _ hw).symm.trans hbyte
    exact .of_env rfl
  | some stream =>
    cases (fileWriteByte_some s rfl _ hw).symm.trans hbyte
    exact .of_env rfl

theorem Commanded.portWritten (k : Commanded s t) : PortWritten Config.XS s t := by
  have heq := k.eq
  refine ⟨?_, fun b hb _ hne => k.cell b hb (hne rfl), fun _ => ?_, fun hne => absurd rfl hne⟩
  · rw [heq]
  · rw [heq]
    exact ⟨rfl, rfl⟩

theorem portStore_touches (h : portStore addr v s = .ok () t) : PortWritten addr.toInt s t := by
  simp only [portStore] at h
  split_ifs at h with hco hau hxo hxs
  · cases h
    exact .of_env rfl
  · exact hau ▸ storeAudio_touches h
  · exact storeExtData_touches h
  · exact hxs ▸ (storeExtStatus_commanded v s () t h).portWritten
  · obtain ⟨hin, rfl⟩ := memWrite_inv h
    refine ⟨rfl, fun b hb hne _ => ?_, fun _ => ⟨rfl, rfl⟩, fun _ => ⟨rfl, rfl, rfl⟩⟩
    exact State.cell_setCell_other hin.1 hb (hne (by simp [hco, hau, hxo, hxs])) v

theorem storFrame (hi : s.Inv) (h : exec .stor s = .next t) :
    t = { s with mem := t.mem, abuf := t.abuf, acur := t.acur, rd := t.rd, wr := t.wr, nexth := t.nexth,
                 env := t.env } ∧
    (∀ a : Int, 0 ≤ a → a ≠ Config.DP →
      (s.topAddress ∉ [Config.CO, Config.AU, Config.XO, Config.XS] → a ≠ s.topAddress) →
      (s.topAddress = Config.XS → a ≠ Config.XA) → t.cell a = s.cell a) ∧
    (s.topAddress ≠ Config.AU → t.abuf = s.abuf ∧ t.acur = s.acur) ∧
    (s.topAddress ≠ Config.XS → t.rd = s.rd ∧ t.wr = s.wr ∧ t.nexth = s.nexth) := by
  have hops := twoOperands_of_next (fun x hx => exec_stor_out hi hx) h
  rw [execStor_eq hi hops] at h
  obtain ⟨heq, hcell, haudio, hstreams⟩ := portStore_touches (run_next_iff.1 h)
  refine ⟨heq, fun a ha hdp hplain hxa => (hcell a ha hplain hxa).trans ?_, haudio, hstreams⟩
  exact State.cell_setCell_other (by decide) ha hdp _

/-- Settles O51: the frame of each of the two instructions is what its port can touch, and the cells of its pops. -/
theorem loadAndStorFrame : Obligations.LoadAndStorFrame :=
  ⟨fun _ _ hi h => loadFrame hi h, fun _ _ hi h => storFrame hi h⟩

end Sys2Proof.Machine
end

section
/-! PROOF. What SYNC leaves unchanged (spec/46_raster_generator.md R260 to R265), and what no instruction touches: the
pixel buffer and the phase (spec/10_state.md R31, R36) and the key state (R33). -/

namespace Sys2Proof.Machine

variable {s t : State} {i : Instr}

/-! ## SYNC -/

/-- What a SYNC that draws touches: the pixel buffer, the audio cursor, the phase, the host's side. -/
def Drawn (s t : State) : Prop := t = { s with pixels := t.pixels, acur := t.acur, phase := t.phase, env := t.env }

theorem Drawn.refl (s : State) : Drawn s s := rfl

theorem Drawn.trans (s t u : State) (h : Drawn s t) (k : Drawn t u) : Drawn s u := by
  unfold Drawn at *
  rw [k, h]

theorem drawScanline_drawn (y : Nat) : Op.Within Drawn (drawScanline y) := by
  intro s _ t h
  unfold drawScanline onRow at h
  split at h <;> cases h
  rfl

theorem endFrame_drawn : Op.Within Drawn endFrame :=
  op_within_of_total endFrame_ok fun s => by
    unfold State.frameEnded State.flushed
    split <;> rfl

theorem staticFrame_drawn : Op.Within Drawn staticFrame :=
  op_within_bind Drawn.trans (forM_within Drawn.refl Drawn.trans drawScanline_drawn _) fun _ => endFrame_drawn

theorem scanlineSync_drawn (y : Fin 240) : Op.Within Drawn (scanlineSync y) := by
  refine op_within_bind Drawn.trans (drawScanline_drawn _) fun _ => ?_
  unfold afterScanline
  split
  · exact op_within_of_total (op_setPhase _) fun _ => rfl
  · exact endFrame_drawn

/-- A SYNC draws, or enters the per-scanline routine. -/
theorem exec_sync_inv (hi : s.Inv) (h : exec .sync s = .next t) :
    ((s.phase ≠ .run ∨ s.cell Config.RV = 0#32) ∧ Drawn s t) ∨
      (s.phase = .run ∧ s.cell Config.RV ≠ 0#32) ∧ s.inMemory s.rp.toInt ∧
        t = { (s.pushed Config.RP s.pc).setCell Config.PC (s.cell Config.RV) with phase := .scan 0 } := by
  cases hp : s.phase with
  | run =>
    by_cases hv : s.cell Config.RV = 0#32
    · rw [exec_sync_run hp] at h
      exact .inl ⟨.inr hv, staticFrame_drawn s () t ((frameProtocol_static hi hv).symm.trans (run_next_iff.1 h))⟩
    · obtain ⟨hnext, hfault⟩ := syncEntersRasterRoutine s hi hp hv
      exact .inr ⟨⟨rfl, hv⟩, next_of_guard hfault hnext h⟩
  | scan y =>
    rw [exec_sync_scan hp] at h
    exact .inl ⟨.inl nofun, scanlineSync_drawn y s () t (run_next_iff.1 h)⟩
  | _ =>
    change execSync s = _ at h
    rw [execSync, hp] at h
    cases h

/-- Settles O52: a draw leaves memory alone, and the entry into the routine writes three cells and the phase. -/
theorem syncFrame : Obligations.SyncFrame := by
  intro s t hi h
  rcases exec_sync_inv hi h with ⟨hdraws, hdrawn⟩ | ⟨⟨hrun, hv⟩, hin, rfl⟩
  · refine ⟨?_, fun _ => ?_, fun hrun hv => ?_⟩
    · rw [hdrawn]
    · rw [hdrawn]
    · exact absurd hdraws (not_or.2 ⟨not_not.2 hrun, hv⟩)
  · have hw := (s.writesOnly_pushed (ptr := Config.RP) (by decide) hin.1 s.pc).trans
      (State.writesOnly_setCell _ (a := Config.PC) (by decide) (s.cell Config.RV))
    refine ⟨rfl, fun hn => absurd hn (not_or.2 ⟨not_not.2 hrun, hv⟩), fun _ _ => ⟨rfl, rfl, rfl, ?_⟩⟩
    exact fun a ha hpc hrp htop => hw.cell a ha (not_or.2 ⟨not_or.2 ⟨hrp, htop⟩, hpc⟩)

/-! ## What only SYNC, only LOAD and only STOR touch -/

/-- Every instruction but LOAD, STOR and SYNC works on memory alone. -/
theorem exec_memOnly (hi : s.Inv) (hload : i ≠ .load) (hstor : i ≠ .stor) (hsync : i ≠ .sync)
    (h : exec i s = .next t) : s.MemOnly t := by
  have hfamily : i ∈ [.add, .sub, .mul, .div, .mod, .and, .or, .xor, .sgt, .slt, .not] ∨
      i ∈ [.const, .drop, .swap, .dup, .ovr, .str, .rts] ∨ i ∈ [.call, .jump, .jumpz, .jumpif, .ret, .next] := by
    cases i <;> simp at hload hstor hsync ⊢
  rcases hfamily with harith | hstack | hcontrol
  · exact (arithmeticFrame i s t harith hi h).1
  · exact (stackFrame i s t hstack hi h).1
  · exact (controlFrame i s t hcontrol hi h).1

/-- Settles O57: neither the frame of LOAD nor that of STOR has the pixel buffer or the phase in it. -/
theorem onlySyncDrawsOrMovesThePhase : Obligations.OnlySyncDrawsOrMovesThePhase := by
  intro i s t hsync hi h
  by_cases hload : i = .load
  · subst hload
    rw [(loadFrame hi h).1]
    exact ⟨rfl, rfl⟩
  by_cases hstor : i = .stor
  · subst hstor
    rw [(storFrame hi h).1]
    exact ⟨rfl, rfl⟩
  · rw [exec_memOnly hi hload hstor hsync h]
    exact ⟨rfl, rfl⟩

/-! ## The key state (R33, R351) -/

/-- A LOAD takes at most the oldest press code. -/
theorem exec_load_keyq (hi : s.Inv) (h : exec .load s = .next t) :
    t.keys = s.keys ∧ (t.keyq = s.keyq ∨ ∃ c, s.keyq = c :: t.keyq) := by
  obtain ⟨heq, -, hkeyq, -, -⟩ := loadFrame hi h
  refine ⟨by rw [heq], ?_⟩
  by_cases hkb : s.topAddress = Config.KB
  · obtain ⟨hin, -⟩ := exec_load_inv hi h
    obtain ⟨-, hqueue⟩ := loadOfKeyState s hi hin
    obtain ⟨hempty, holdest⟩ := hqueue hkb
    cases hq : s.keyq with
    | nil =>
      cases h.symm.trans (hempty hq)
      exact .inl hq
    | cons c rest =>
      cases h.symm.trans (holdest c rest hq)
      exact .inr ⟨c, rfl⟩
  · exact .inl (hkeyq hkb)

theorem exec_keyState (hi : s.Inv) (h : exec i s = .next t) :
    t.keys = s.keys ∧ (t.keyq = s.keyq ∨ ∃ c, s.keyq = c :: t.keyq) := by
  by_cases hload : i = .load
  · subst hload
    exact exec_load_keyq hi h
  by_cases hstor : i = .stor
  · subst hstor
    rw [(storFrame hi h).1]
    exact ⟨rfl, .inl rfl⟩
  by_cases hsync : i = .sync
  · subst hsync
    rw [(syncFrame s t hi h).1]
    exact ⟨rfl, .inl rfl⟩
  · rw [exec_memOnly hi hload hstor hsync h]
    exact ⟨rfl, .inl rfl⟩

/-- Settles O58: no frame has `keys` in it; under `idle_only` the host has no move that would change the key state. -/
theorem keyStateBelongsToHost : Obligations.KeyStateBelongsToHost := by
  refine ⟨fun i s t hi h => exec_keyState hi h, fun s t hi hwin hidle h => ?_⟩
  obtain ⟨ms, hturn⟩ := step_inv h
  cases hturn with
  | hostMoved keys keyq hopen _ => exact absurd hopen (keyWindowOpen_idleOnly hwin hidle)
  | frameCalled hp _ => exact absurd hp hidle
  | sequenced _ hseq =>
    have hevolves := sequencerStep_evolves hseq hi
    exact ⟨hevolves.keys, hevolves.keyq⟩

end Sys2Proof.Machine
end
